-- ==== Sys2Proof/Word.lean ====
section
/-! DEFINITION. The words, bytes, symbols and bitstrings of the block (00_scope.md R10, R12). -/

namespace Sys2Proof

/-- A command or response word: 32 bits (R110, R115). -/
abbrev Word := BitVec 32

/-- A byte of the compressed stream (R86). -/
abbrev Byte := BitVec 8

/-- A symbol: SYM_WIDTH = 21 bits (R10). -/
abbrev Sym := BitVec 21

/-- The operand VAL of ENC_SYM: 28 bits (R112). -/
abbrev Val := BitVec 28

/-- A bitstring, its bits from left to right in the order they are produced or consumed (R12). -/
abbrev Bits := List Bool

end Sys2Proof
end

