-- ==== Sys2Proof/Syntax.lean ====
section
/-! DEFINITION. The ten commands of the opcode map (30_encoding.md R111): one constructor for each row of
spec/opcode_table.json. -/

namespace Sys2Proof

/-- A command with its operand. -/
inductive Instr where
  /-- NOP (44_control.md R301). -/
  | nop
  /-- ENC_BEGIN (42_encoder.md R221). -/
  | encBegin
  /-- ENC_SYM VAL, VAL = w[27:0] (42_encoder.md R222, 30_encoding.md R112). -/
  | encSym (val : Val)
  /-- ENC_BUILD (42_encoder.md R226). -/
  | encBuild
  /-- ENC_END (42_encoder.md R228). -/
  | encEnd
  /-- DEC_BEGIN (43_decoder.md R251). -/
  | decBegin
  /-- DEC_BYTE BYTE, BYTE = w[7:0] (43_decoder.md R252, 30_encoding.md R113). -/
  | decByte (byte : Byte)
  /-- DEC_END (43_decoder.md R263). -/
  | decEnd
  /-- GET_STATUS (44_control.md R302). -/
  | getStatus
  /-- ABORT (44_control.md R303). -/
  | abort
  deriving DecidableEq, Repr

end Sys2Proof
end

