-- ==== Sys2Proof/Decode.lean ====
section
/-! DEFINITION. The command decoder, total on every 32-bit word, and the encoder (30_encoding.md R110 to R117). -/

namespace Sys2Proof

/-- Why a word is illegal (R116). -/
inductive DecodeError where
  /-- `w[31:28]` is one of 0x9 to 0xD and 0xF. -/
  | reservedOpcode
  /-- Some reserved payload bit is set. -/
  | reservedBits
  deriving DecidableEq, Repr

/-- The field OP = w[31:28] (R110). -/
def opField (w : Word) : BitVec 4 := w.extractLsb' 28 4

/-- The field PAYLOAD = w[27:0] (R110). -/
def payloadField (w : Word) : Val := w.extractLsb' 0 28

/-- The field BYTE = w[7:0] (R113). -/
def byteField (w : Word) : Byte := w.extractLsb' 0 8

/-- The reserved field w[27:8] of DEC_BYTE (R113). -/
def byteReserved (w : Word) : BitVec 20 := w.extractLsb' 8 20

/-- The command of an opcode without an operand, legal only when PAYLOAD is zero (R114). -/
def decodePlain (w : Word) (i : Instr) : Except DecodeError Instr :=
  if payloadField w = 0#28 then .ok i else .error .reservedBits

/-- `Decode(w)` of R117. -/
def decode (w : Word) : Except DecodeError Instr :=
  match (opField w).toNat with
  | 0x0 => decodePlain w .nop
  | 0x1 => decodePlain w .encBegin
  | 0x2 => .ok (.encSym (payloadField w))
  | 0x3 => decodePlain w .encBuild
  | 0x4 => decodePlain w .encEnd
  | 0x5 => decodePlain w .decBegin
  | 0x6 => if byteReserved w = 0#20 then .ok (.decByte (byteField w)) else .error .reservedBits
  | 0x7 => decodePlain w .decEnd
  | 0x8 => decodePlain w .getStatus
  | 0xE => decodePlain w .abort
  | _ => .error .reservedOpcode

/-- The opcode of a command (R111). -/
def opcode : Instr → BitVec 4
  | .nop => 0x0
  | .encBegin => 0x1
  | .encSym _ => 0x2
  | .encBuild => 0x3
  | .encEnd => 0x4
  | .decBegin => 0x5
  | .decByte _ => 0x6
  | .decEnd => 0x7
  | .getStatus => 0x8
  | .abort => 0xE

/-- The payload of a command (R112 to R114). -/
def operand : Instr → Val
  | .encSym v => v
  | .decByte b => b.setWidth 28
  | .nop | .encBegin | .encBuild | .encEnd | .decBegin | .decEnd | .getStatus | .abort => 0

/-- The word of a command: `(OP << 28) | operand` (R120). -/
def encode (i : Instr) : Word := opcode i ++ operand i

/-- R116, the definition of an illegal word, clause by clause; `decode` is written from R117 instead. -/
def illegal (w : Word) : Bool :=
  [0x9#4, 0xA#4, 0xB#4, 0xC#4, 0xD#4, 0xF#4].contains (opField w) ||
    (opField w == 0x6#4 && byteReserved w != 0#20) ||
    ([0x0#4, 0x1#4, 0x3#4, 0x4#4, 0x5#4, 0x7#4, 0x8#4, 0xE#4].contains (opField w) &&
      payloadField w != 0#28)

/-- The command the decoder reads from a word numbered as spec/opcode_table.json numbers it: bits at `nbits`
and above are zero. -/
def decodeTableWord (nbits w : Nat) : Option Instr :=
  match decode (BitVec.ofNat 32 (w % 2 ^ nbits)) with
  | .ok i => some i
  | .error _ => none

end Sys2Proof
end

