-- ==== Sys2Proof/Config.lean ====
section
/-! DEFINITION. The implementation parameters and fixed constants of the block (00_scope.md R9, R10). The spec leaves no value
free, so no opaque constant stands here: every open point is a parameter, an input or a value no rule reads. -/

namespace Sys2Proof

/-- The four implementation parameters of R9. A model takes each as an argument: a machine carries them
in its state and no step writes them (notes/assumptions/1.md). -/
structure Params where
  /-- MAX_ENTRIES: capacity of the code table, sentinel included. -/
  maxEntries : Nat
  /-- MAX_CODE_LEN: the longest code, in bits, the block stores, emits or matches. -/
  maxCodeLen : Nat
  /-- COUNT_WIDTH: width in bits of every count and weight. -/
  countWidth : Nat
  /-- RSP_FIFO_DEPTH: depth of the response FIFO, in words. -/
  rspFifoDepth : Nat
  deriving DecidableEq, Repr

namespace Params

/-- The default values of R9. -/
def defaults : Params :=
  { maxEntries := 4096, maxCodeLen := 64, countWidth := 32, rspFifoDepth := 16 }

/-- COUNT_MAX = 2^COUNT_WIDTH − 1, the largest weight (R10). -/
def countMax (p : Params) : Nat := 2 ^ p.countWidth - 1

/-- TOTAL_MAX = COUNT_MAX − 1, the largest number of pass-1 symbols (R10). -/
def totalMax (p : Params) : Nat := p.countMax - 1

end Params

/-- SENTINEL = 0x110000, the sentinel symbol, as an integer (R10). -/
def sentinelVal : Nat := 0x110000

/-- SENTINEL as a symbol (R10). -/
def sentinel : Sym := 0x110000#21

end Sys2Proof
end

