-- ==== Sys2Proof/Machine/State.lean ====
section
/-! DEFINITION. The state of the block (10_state.md R31, R33 to R46) with the host's side of its two ports (R32, R364),
the reasons a step can stop, and reset. -/

namespace Sys2Proof.Machine

/-- `S.state` (R34). -/
inductive Phase where
  | idle
  | encCount
  | encBody
  | decHeader
  | decBody
  | decTail
  | error
  deriving DecidableEq, Repr

/-- `S.err`: NONE or one of the seventeen errors (60_exceptions.md R320). -/
inductive Err where
  | none
  | illegalCmd
  | sequence
  | badSymbol
  | tableFull
  | countOverflow
  | unknownSymbol
  | codeTooLong
  | fmtOddTokens
  | fmtNonintSymbol
  | fmtSymbolRange
  | fmtDupCode
  | fmtBadCode
  | fmtCodeTooLong
  | fmtTableFull
  | fmtHeaderEof
  | bodyTruncated
  | bodyNoMatch
  deriving DecidableEq, Repr

/-- `S.hp_phase` (R33). -/
inductive HpPhase where
  | symWait
  | symIn
  | codeWait
  | codeIn
  deriving DecidableEq, Repr

/-- A code-table entry (R36). -/
structure Entry where
  sym : Sym
  cnt : Nat
  code : Bits
  deriving DecidableEq, Repr

/-- What the host does at a clock edge; each is taken by one step (R371). -/
inductive HostAct where
  /-- Offer the next word of `cmds` on the command port (R365). -/
  | command
  /-- Hold `rsp_ready` high for one edge (R366). -/
  | take
  /-- Hold `rst` high for one edge (R360). -/
  | reset
  deriving DecidableEq, Repr

/-- The state: the parameters (R9), the fields of R33, the command index (R31) and the host's side of
the ports (notes/assumptions/4.md). `S.nent` is the length of `tab` (notes/assumptions/2.md). -/
structure State where
  /-- The parameters the machine was built with (R9); no step writes them. -/
  params : Params
  /-- `S.state` -/
  state : Phase
  /-- `S.err` -/
  err : Err
  /-- `S.tab[0 .. S.nent-1]`, the valid entries in index order. -/
  tab : List Entry
  /-- `S.total` -/
  total : Nat
  /-- `S.bw_acc` -/
  bwAcc : Byte
  /-- `S.bw_cnt` -/
  bwCnt : Fin 8
  /-- `S.hp_phase` -/
  hpPhase : HpPhase
  /-- `S.hp_val` -/
  hpVal : Nat
  /-- `S.hp_nd` -/
  hpNd : Bool
  /-- `S.hp_sym` -/
  hpSym : Sym
  /-- `S.hp_code` -/
  hpCode : Bits
  /-- `S.hp_len` -/
  hpLen : Nat
  /-- `S.hp_bad` -/
  hpBad : Bool
  /-- `S.cand` -/
  cand : Bits
  /-- `S.rsp`, oldest word first. -/
  rsp : List Word
  /-- `CI` (R31). -/
  ci : Nat
  /-- The words the host offers and the engine has not yet accepted, oldest first. -/
  cmds : List Word
  /-- What the host does at the next edges, in order; after the last it only offers commands. -/
  acts : List HostAct
  /-- The response words the host has taken, oldest first. -/
  received : List Word
  deriving DecidableEq, Repr

/-- `S.nent`, the number of valid entries (R33). -/
def State.nent (s : State) : Nat := s.tab.length

/-- Why a step stops. Neither is reached from a state that meets the invariant of Safety.lean, so both are safe:
the block itself never does what raises them (notes/assumptions/7.md). -/
inductive Fault where
  /-- Raised by a command that writes a table entry at an index at or above MAX_ENTRIES, an access that never
  happens (20_memory.md R80). Safe. -/
  | tableIndex
  /-- Raised by ENC_END when no entry holds the sentinel, which never happens in ENC_BODY (R37, R228). Safe. -/
  | noSentinelEntry
  deriving DecidableEq, Repr

/-- Why an instruction has no meaning. -/
inductive Refusal where
  /-- Raised by an arm of exec whose instruction has no meaning yet; no arm raises it now. Safe. -/
  | notModelled (mnemonic : String)
  deriving DecidableEq, Repr

/-- What one command does. -/
abbrev Result := Host.Outcome State Fault Refusal

/-- The reset values of R46 for a machine with the given parameters. -/
def State.resetWith (p : Params) : State :=
  { params := p
    state := .idle
    err := .none
    tab := []
    total := 0
    bwAcc := 0
    bwCnt := 0
    hpPhase := .symWait
    hpVal := 0
    hpNd := false
    hpSym := 0
    hpCode := []
    hpLen := 0
    hpBad := false
    cand := []
    rsp := []
    ci := 0
    cmds := []
    acts := []
    received := [] }

/-- The machine right after reset, with the default parameters (R9, R46). -/
def State.reset : State := State.resetWith Params.defaults

end Sys2Proof.Machine
end

