-- ==== Sys2Proof/Machine/Flags.lean ====
section
/-! DEFINITION. The codes behind the block's status (10_state.md R34, R45, R48; 60_exceptions.md R320, R321). The block has no
condition codes: S.state and S.err are all there is, and each has its code here. -/

namespace Sys2Proof.Machine

/-- The state codes of R34. -/
def Phase.code : Phase → BitVec 4
  | .idle => 0x0
  | .encCount => 0x1
  | .encBody => 0x2
  | .decHeader => 0x3
  | .decBody => 0x4
  | .decTail => 0x5
  | .error => 0xF

/-- The error codes of R320. -/
def Err.code : Err → BitVec 8
  | .none => 0x00
  | .illegalCmd => 0x01
  | .sequence => 0x02
  | .badSymbol => 0x03
  | .tableFull => 0x04
  | .countOverflow => 0x05
  | .unknownSymbol => 0x06
  | .codeTooLong => 0x07
  | .fmtOddTokens => 0x10
  | .fmtNonintSymbol => 0x11
  | .fmtSymbolRange => 0x12
  | .fmtDupCode => 0x13
  | .fmtBadCode => 0x14
  | .fmtCodeTooLong => 0x15
  | .fmtTableFull => 0x16
  | .fmtHeaderEof => 0x17
  | .bodyTruncated => 0x20
  | .bodyNoMatch => 0x21

/-- The class column of R320. -/
inductive ErrClass where
  | usage
  | capacity
  | format
  deriving DecidableEq, Repr

/-- The class of an error (R320, R321); NONE has none. -/
def Err.errClass : Err → Option ErrClass
  | .none => Option.none
  | .illegalCmd | .sequence | .badSymbol | .unknownSymbol => some .usage
  | .tableFull | .countOverflow | .codeTooLong => some .capacity
  | .fmtOddTokens | .fmtNonintSymbol | .fmtSymbolRange | .fmtDupCode | .fmtBadCode | .fmtCodeTooLong
  | .fmtTableFull | .fmtHeaderEof | .bodyTruncated | .bodyNoMatch => some .format

end Sys2Proof.Machine
end

