-- ==== Sys2Proof/Machine/Response.lean ====
section
/-! DEFINITION. The five response words (30_encoding.md R115). -/

namespace Sys2Proof.Machine

/-- DIR of RSP_DONE (R115). -/
inductive Dir where
  | enc
  | dec
  deriving DecidableEq, Repr

/-- A response. -/
inductive Response where
  /-- RSP_BYTE: one byte of the compressed stream. -/
  | byte (b : Byte)
  /-- RSP_SYM: one decoded symbol. -/
  | sym (v : Sym)
  /-- RSP_DONE. -/
  | done (d : Dir)
  /-- RSP_STATUS: STATE and ERR. -/
  | status (p : Phase) (e : Err)
  /-- RSP_ERR. -/
  | err (e : Err)
  deriving DecidableEq, Repr

/-- The bit DIR: 0 for an encode, 1 for a decode (R115). -/
def Dir.bit : Dir → BitVec 1
  | .enc => 0
  | .dec => 1

/-- The word of a response: TAG in [31:28], reserved bits zero (R115). -/
def Response.word : Response → Word
  | .byte b => 0x1#4 ++ 0#20 ++ b
  | .sym v => 0x2#4 ++ 0#7 ++ v
  | .done d => 0x3#4 ++ 0#27 ++ d.bit
  | .status p e => 0x4#4 ++ p.code ++ e.code ++ 0#16
  | .err e => 0xF#4 ++ 0#20 ++ e.code

end Sys2Proof.Machine
end

