-- ==== Sys2Proof/Machine/Ops.lean ====
section
/-! DEFINITION. The operations every command shares: emitting a response (10_state.md R44), the error entry (60_exceptions.md
R324), the common checks (60_exceptions.md R325 to R328), and access to the code table (20_memory.md R80). -/

namespace Sys2Proof.Machine

/-- `Emit(w)` for each word in order (R44). -/
def emitAll (ws : List Word) (s : State) : State := { s with rsp := s.rsp ++ ws }

/-- `Emit(w)` of a response's word (R44, R115). -/
def emit (r : Response) (s : State) : State := emitAll [r.word] s

/-- `raise E`, the error entry (R324). What it ends is the current command: see `Flow.ended`. -/
def raise (e : Err) (s : State) : State := emit (.err e) { s with err := e, state := .error }

/-- ABORT and reset are the only returns from ERROR (R330). This is ABORT's: every field of R33 but S.rsp
takes its cleared value (R303). -/
def clearAll (s : State) : State :=
  { s with
    state := .idle
    err := .none
    tab := []
    total := 0
    bwAcc := 0
    bwCnt := 0
    hpPhase := .symWait
    hpVal := 0
    hpNd := false
    hpSym := 0
    hpCode := []
    hpLen := 0
    hpBad := false
    cand := [] }

/-- The outcome of a piece of a command's pseudocode (R14, R324). -/
inductive Flow where
  /-- The pseudocode goes on from this state. -/
  | cont (s : State)
  /-- The command has ended in this state, by `stop` or by `raise`. -/
  | ended (s : State)
  /-- The piece did what the block never does. -/
  | fault (f : Fault)
  deriving DecidableEq, Repr

/-- Run the next piece of the pseudocode unless the command has ended. -/
def Flow.andThen (f : Flow) (g : State → Flow) : Flow :=
  match f with
  | .cont s => g s
  | .ended s => .ended s
  | .fault r => .fault r

/-- What a command whose pseudocode has run to its end answers. -/
def Flow.result : Flow → Result
  | .cont s => .next s
  | .ended s => .next s
  | .fault r => .fault r

/-- End the command with an error (R324). -/
def raiseEnd (e : Err) (s : State) : Flow := .ended (raise e s)

/-- The legality table of R327. -/
def legalIn (i : Instr) (p : Phase) : Bool :=
  match i, p with
  | .nop, _ | .getStatus, _ | .abort, _ => true
  | .encBegin, .idle | .encBegin, .decTail => true
  | .decBegin, .idle | .decBegin, .decTail => true
  | .encSym _, .encCount | .encSym _, .encBody => true
  | .encBuild, .encCount => true
  | .encEnd, .encBody => true
  | .decByte _, .decHeader | .decByte _, .decBody | .decByte _, .decTail => true
  | .decEnd, .decHeader | .decEnd, .decBody | .decEnd, .decTail => true
  | .encBegin, _ | .decBegin, _ | .encSym _, _ | .encBuild, _ | .encEnd, _ | .decByte _, _
  | .decEnd, _ => false

/-- The commands the sticky ERROR state executes (R300, R325). -/
def runsInError : Instr → Bool
  | .nop | .getStatus | .abort => true
  | .encBegin | .encSym _ | .encBuild | .encEnd | .decBegin | .decByte _ | .decEnd => false

/-- The common checks of a legal word before its command's pseudocode: dropped in ERROR (R325), SEQUENCE
where the command is not legal (R327), in the order of R328. The check between them, ILLEGAL_CMD, is
`execIllegal`: an illegal word is no command. -/
def commonChecks (i : Instr) (body : State → Flow) (s : State) : Result :=
  if s.state = .error then
    if runsInError i then (body s).result else .next s
  else if legalIn i s.state then (body s).result
  else .next (raise .sequence s)

/-- An illegal word: dropped in ERROR (R325), else ILLEGAL_CMD (R326). -/
def execIllegal (s : State) : Result :=
  if s.state = .error then .next s else .next (raise .illegalCmd s)

/-- `exists i < S.nent with S.tab[i].sym = v`: that entry (R223, R225, R228). -/
def findSym (v : Sym) (tab : List Entry) : Option Entry := tab.find? fun e => decide (e.sym = v)

/-- `exists i < S.nent with S.tab[i].code = c`: that entry (R256, R259). -/
def findCode (c : Bits) (tab : List Entry) : Option Entry := tab.find? fun e => decide (e.code = c)

/-- `S.tab[i].cnt <- S.tab[i].cnt + 1` at the entry whose symbol is v (R223). -/
def bumpCount (v : Sym) : List Entry → List Entry
  | [] => []
  | e :: es => if e.sym = v then { e with cnt := e.cnt + 1 } :: es else e :: bumpCount v es

/-- `TabWrite(S.nent, e); S.nent <- S.nent + 1`. An index at or above MAX_ENTRIES never happens (R80). -/
def tabPush (e : Entry) (s : State) : Flow :=
  if s.nent < s.params.maxEntries then .cont { s with tab := s.tab ++ [e] } else .fault .tableIndex

end Sys2Proof.Machine
end

