-- ==== Sys2Proof/Machine/Control.lean ====
section
/-! DEFINITION. The control commands (44_control.md R300 to R303): NOP, GET_STATUS, ABORT. -/

namespace Sys2Proof.Machine

/-- NOP does nothing (R301). -/
def execNop (s : State) : Result := commonChecks .nop Flow.cont s

/-- GET_STATUS's pseudocode (R302). -/
def getStatusBody (s : State) : Flow := .cont (emit (.status s.state s.err) s)

/-- GET_STATUS (R302). -/
def execGetStatus (s : State) : Result := commonChecks .getStatus getStatusBody s

/-- ABORT's pseudocode (R303). -/
def abortBody (s : State) : Flow := .cont (clearAll s)

/-- ABORT (R303). -/
def execAbort (s : State) : Result := commonChecks .abort abortBody s

end Sys2Proof.Machine
end

