-- ==== Sys2Proof/Machine/Operands.lean ====
section
/-! DEFINITION. What the commands read in their operands: symbol values (00_scope.md R11), header byte classes (43_decoder.md
R253), the bits of a body byte (41_bitstream.md R195), and the characters the header is written in (42_encoder.md R227,
20_memory.md R85). -/

namespace Sys2Proof.Machine

/-- `IsScalar(v)` (R11): v is a real symbol. -/
def isScalar (v : Nat) : Bool :=
  decide (v ≤ 0xD7FF) || (decide (0xE000 ≤ v) && decide (v ≤ 0x10FFFF))

/-- v is a header symbol (R11). -/
def isHeaderSymbol (v : Nat) : Bool := isScalar v || decide (v = sentinelVal)

/-- The symbol an accepted VAL names: its low SYM_WIDTH bits. A real symbol has no bit above them
(notes/assumptions/15.md). -/
def symOfVal (v : Val) : Sym := v.setWidth 21

/-- The symbol an accepted header value names. A header symbol fits SYM_WIDTH bits. -/
def symOfNat (v : Nat) : Sym := BitVec.ofNat 21 v

/-- The byte classes of the header parser (R253). -/
inductive ByteClass where
  | digit
  | nl
  | sep
  | other
  deriving DecidableEq, Repr

/-- The class of a header byte (R253). -/
def classify (c : Byte) : ByteClass :=
  if 0x30 ≤ c.toNat ∧ c.toNat ≤ 0x39 then .digit
  else if c = 0x0A#8 then .nl
  else if c = 0x20#8 ∨ c = 0x09#8 ∨ c = 0x0B#8 ∨ c = 0x0C#8 ∨ c = 0x0D#8 then .sep
  else .other

/-- The value of a DIGIT byte, `c - 0x30` (R254). -/
def digitVal (c : Byte) : Nat := c.toNat - 0x30

/-- `ReadBits(byte)`: the bits of a body byte, most significant first (R195). -/
def readBits (b : Byte) : Bits :=
  [b.getLsbD 7, b.getLsbD 6, b.getLsbD 5, b.getLsbD 4, b.getLsbD 3, b.getLsbD 2, b.getLsbD 1,
    b.getLsbD 0]

/-- The ASCII digit of d < 10 (R85). -/
def digitByte (d : Nat) : Byte := BitVec.ofNat 8 (0x30 + d)

/-- The decimal digits of v, most significant first, with fuel for one digit more than `fuel`. -/
def decimalDigits : Nat → Nat → List Byte
  | 0, v => [digitByte (v % 10)]
  | fuel + 1, v =>
    if v < 10 then [digitByte v] else decimalDigits fuel (v / 10) ++ [digitByte (v % 10)]

/-- `Dec(v)`: the decimal numeral of v in ASCII, without leading zeros (R227). -/
def decimal (v : Nat) : List Byte := decimalDigits v v

/-- One bit of a code as a header character (R227). -/
def bitChar (b : Bool) : Byte := if b then 0x31#8 else 0x30#8

/-- `Chars(c)` (R227). -/
def codeChars (c : Bits) : List Byte := c.map bitChar

end Sys2Proof.Machine
end

