-- ==== Sys2Proof/Machine/Bitstream.lean ====
section
/-! DEFINITION. The bitstream_writer (41_bitstream.md R190 to R193). The bitstream_reader is `readBits` in Operands.lean (R195). -/

namespace Sys2Proof.Machine

/-- `acc[k] <- b`: bit k of a byte set or cleared. -/
def setBit (acc : Byte) (k : Nat) (b : Bool) : Byte :=
  if b then acc ||| ((1#8) <<< k) else acc &&& ~~~((1#8) <<< k)

/-- The writer emptied: `S.bw_acc <- 0; S.bw_cnt <- 0`. -/
def clearWriter (s : State) : State := { s with bwAcc := 0, bwCnt := 0 }

/-- `WriteBit(b)` (R190). -/
def writeBit (b : Bool) (s : State) : State :=
  let acc := setBit s.bwAcc (7 - s.bwCnt.val) b
  if s.bwCnt = 7 then clearWriter (emit (.byte acc) s)
  else { s with bwAcc := acc, bwCnt := s.bwCnt + 1 }

/-- `WriteCode(c)`: each bit of c in order (R191). -/
def writeCode (c : Bits) (s : State) : State := c.foldl (fun s b => writeBit b s) s

/-- `Flush()` (R192). -/
def flush (s : State) : State :=
  if 0 < s.bwCnt.val then clearWriter (emit (.byte s.bwAcc) s) else s

end Sys2Proof.Machine
end

