-- ==== Sys2Proof/Machine/Decoder.lean ====
section
/-! DEFINITION. The decode commands (43_decoder.md R250 to R265): DEC_BEGIN, DEC_BYTE with the header parser and the body
matcher, DEC_END. -/

namespace Sys2Proof.Machine

/-- DEC_BEGIN's pseudocode (R251). -/
def decBeginBody (s : State) : Flow :=
  .cont
    { s with
      tab := []
      hpPhase := .symWait
      hpVal := 0
      hpNd := false
      hpSym := 0
      hpCode := []
      hpLen := 0
      hpBad := false
      cand := []
      state := .decHeader }

/-- DEC_BEGIN (R251). -/
def execDecBegin (s : State) : Result := commonChecks .decBegin decBeginBody s

/-- `FinishSym()` (R255). -/
def finishSym (s : State) : Flow :=
  if s.hpNd then raiseEnd .fmtNonintSymbol s
  else if isHeaderSymbol s.hpVal then
    .cont { s with hpSym := symOfNat s.hpVal, hpPhase := .codeWait }
  else raiseEnd .fmtSymbolRange s

/-- `FinishCode()` (R256, with the duplicate check of R257). -/
def finishCode (s : State) : Flow :=
  if s.hpBad then raiseEnd .fmtBadCode s
  else if s.params.maxCodeLen < s.hpLen then raiseEnd .fmtCodeTooLong s
  else if (findCode s.hpCode s.tab).isSome then raiseEnd .fmtDupCode s
  else if s.nent = s.params.maxEntries then raiseEnd .fmtTableFull s
  else
    (tabPush ⟨s.hpSym, 0, s.hpCode⟩ s).andThen fun s => .cont { s with hpPhase := .symWait }

/-- `CodeChar(c)` (R254). -/
def codeChar (c : Byte) (s : State) : State :=
  let s₁ :=
    if c = 0x30#8 ∨ c = 0x31#8 then
      if s.hpLen < s.params.maxCodeLen then { s with hpCode := s.hpCode ++ [decide (c = 0x31#8)] }
      else s
    else { s with hpBad := true }
  { s₁ with hpLen := min (s.hpLen + 1) (s.params.maxCodeLen + 1) }

/-- `EndHeader()` (R254). -/
def endHeader (s : State) : State := { s with cand := [], state := .decBody }

/-- `HdrByte(c)` (R254). -/
def hdrByte (c : Byte) (s : State) : Flow :=
  match s.hpPhase, classify c with
  | .symWait, .sep => .cont s
  | .symWait, .nl => .cont (endHeader s)
  | .symWait, .digit => .cont { s with hpVal := digitVal c, hpNd := false, hpPhase := .symIn }
  | .symWait, .other => .cont { s with hpVal := 0, hpNd := true, hpPhase := .symIn }
  | .symIn, .digit => .cont { s with hpVal := min (10 * s.hpVal + digitVal c) (sentinelVal + 1) }
  | .symIn, .other => .cont { s with hpNd := true }
  | .symIn, .sep => finishSym s
  | .symIn, .nl => (finishSym s).andThen (raiseEnd .fmtOddTokens)
  | .codeWait, .sep => .cont s
  | .codeWait, .nl => raiseEnd .fmtOddTokens s
  | .codeWait, .digit | .codeWait, .other =>
    .cont (codeChar c { s with hpCode := [], hpLen := 0, hpBad := false, hpPhase := .codeIn })
  | .codeIn, .digit | .codeIn, .other => .cont (codeChar c s)
  | .codeIn, .sep => finishCode s
  | .codeIn, .nl => (finishCode s).andThen fun s => .cont (endHeader s)

/-- One turn of the loop of `BodyByte` (R259, R260). After the sentinel the candidate keeps its code
(notes/assumptions/14.md). -/
def bodyBit (b : Bool) (s : State) : Flow :=
  let s₁ := { s with cand := s.cand ++ [b] }
  match findCode s₁.cand s₁.tab with
  | some e =>
    if e.sym = sentinel then .ended { emit (.done .dec) s₁ with state := .decTail }
    else .cont { emit (.sym e.sym) s₁ with cand := [] }
  | none => if s₁.cand.length = s.params.maxCodeLen then raiseEnd .bodyNoMatch s₁ else .cont s₁

/-- The loop of `BodyByte` over the bits of a byte; it stops where the command ends (R259). -/
def bodyBits : Bits → State → Flow
  | [], s => .cont s
  | b :: bs, s => (bodyBit b s).andThen (bodyBits bs)

/-- `BodyByte(b)` (R259). -/
def bodyByte (b : Byte) (s : State) : Flow := bodyBits (readBits b) s

/-- DEC_BYTE's pseudocode (R252, R262). -/
def decByteBody (b : Byte) (s : State) : Flow :=
  match s.state with
  | .decHeader => hdrByte b s
  | .decBody => bodyByte b s
  | .decTail | .idle | .encCount | .encBody | .error => .cont s

/-- DEC_BYTE (R252). -/
def execDecByte (b : Byte) (s : State) : Result := commonChecks (.decByte b) (decByteBody b) s

/-- DEC_END's pseudocode (R263). -/
def decEndBody (s : State) : Flow :=
  if s.state = .decHeader then raiseEnd .fmtHeaderEof s
  else if s.state = .decBody then raiseEnd .bodyTruncated s
  else .cont { s with state := .idle }

/-- DEC_END (R263). -/
def execDecEnd (s : State) : Result := commonChecks .decEnd decEndBody s

end Sys2Proof.Machine
end

