-- ==== Sys2Proof/Machine/Arbiter.lean ====
section
/-! DEFINITION. The priority_queue_arbiter: the node arena, BuildTree and GenCodes (40_tree_construction.md R154 to R162, with
10_state.md R42 and 20_memory.md R81). Its working state lives inside ENC_BUILD only and no field of State holds it. -/

namespace Sys2Proof.Machine

/-- What a node of the arena is (R42). -/
inductive NodeBody where
  | leaf (sym : Sym)
  /-- The indices of its children. -/
  | internal (left right : Nat)
  deriving DecidableEq, Repr

/-- A node of the arena (R42). -/
structure Node where
  weight : Nat
  minsym : Sym
  body : NodeBody
  deriving DecidableEq, Repr

/-- The arena: node i is the i-th of the list. -/
abbrev Arena := List Node

/-- `key(t) = (weight(t), minsym(t))` of the node at an index (R154). -/
def keyAt (ar : Arena) (i : Nat) : Nat × Nat :=
  match ar[i]? with
  | some n => (n.weight, n.minsym.toNat)
  | none => (0, 0)

/-- The lexicographic order on keys: weight first, then minsym (R154). -/
def keyLt (a b : Nat × Nat) : Bool := decide (a.1 < b.1) || (decide (a.1 = b.1) && decide (a.2 < b.2))

/-- The argmin over `best` and the rest of the live indices, of the key of R154. -/
def argmin (ar : Arena) : Nat → List Nat → Nat
  | best, [] => best
  | best, j :: js => if keyLt (keyAt ar j) (keyAt ar best) then argmin ar j js else argmin ar best js

/-- Extract the live index with the least key: it and the indices that remain (R155, R156). -/
def extractMin (ar : Arena) : List Nat → Option (Nat × List Nat)
  | [] => none
  | j :: js => let a := argmin ar j js; some (a, (j :: js).erase a)

/-- The smaller of two symbols. -/
def minSym (a b : Sym) : Sym := if a.toNat ≤ b.toNat then a else b

/-- `Internal(weight, minsym, left = a, right = b)` (R155, R156). -/
def joinNode (ar : Arena) (a b : Nat) : Option Node :=
  match ar[a]?, ar[b]? with
  | some na, some nb => some ⟨na.weight + nb.weight, minSym na.minsym nb.minsym, .internal a b⟩
  | _, _ => none

/-- One turn of the loop of R156; none when at most one tree is live. -/
def mergeStep (ar : Arena) (live : List Nat) : Option (Arena × List Nat) := do
  let (a, live₁) ← extractMin ar live
  let (b, live₂) ← extractMin ar live₁
  let n ← joinNode ar a b
  return (ar ++ [n], live₂ ++ [ar.length])

/-- The loop of R156. -/
def mergeLoop : Nat → Arena → List Nat → Arena × List Nat
  | 0, ar, live => (ar, live)
  | fuel + 1, ar, live =>
    match mergeStep ar live with
    | none => (ar, live)
    | some (ar', live') => mergeLoop fuel ar' live'

/-- `Leaf(sym = s_i, weight = c_i, minsym = s_i)` (R156). -/
def leafNode (e : Entry) : Node := ⟨e.cnt, e.sym, .leaf e.sym⟩

/-- `BuildTree(entries)` (R156): the final arena and the indices still live, which are the root alone. The loop
runs one turn fewer than there are entries. -/
def buildTree (entries : List Entry) : Arena × List Nat :=
  mergeLoop entries.length (entries.map leafNode) (List.range entries.length)

/-- `Visit(n, p)` of GenCodes (R161): the codes of the leaves below node n, whose path is p. A child's index
is below its parent's, so fuel above n reaches every leaf. -/
def visit (ar : Arena) : Nat → Nat → Bits → List (Sym × Bits)
  | 0, _, _ => []
  | fuel + 1, n, p =>
    match ar[n]? with
    | none => []
    | some node =>
      match node.body with
      | .leaf v => [(v, p)]
      | .internal l r => visit ar fuel l (p ++ [false]) ++ visit ar fuel r (p ++ [true])

/-- `GenCodes(root)` (R161). -/
def genCodes (ar : Arena) (root : Nat) : List (Sym × Bits) := visit ar ar.length root []

/-- The code table of a frequency table: "0" for the one leaf of a table of one entry (R162), else
`GenCodes(BuildTree(entries))` (R156, R161). -/
def codesOf (entries : List Entry) : List (Sym × Bits) :=
  match entries with
  | [e] => [(e.sym, [false])]
  | _ =>
    match buildTree entries with
    | (ar, root :: _) => genCodes ar root
    | (_, []) => []

/-- `codes[s]`. Every symbol of the table is a leaf, so it has a code. -/
def codeFor (codes : List (Sym × Bits)) (v : Sym) : Bits :=
  match codes.find? fun c => decide (c.1 = v) with
  | some c => c.2
  | none => []

/-- `for i in 0 .. S.nent-1: S.tab[i].code <- codes[S.tab[i].sym]` (R226). -/
def assignCodes (codes : List (Sym × Bits)) (entries : List Entry) : List Entry :=
  entries.map fun e => { e with code := codeFor codes e.sym }

end Sys2Proof.Machine
end

