-- ==== Sys2Proof/Machine/Encoder.lean ====
section
/-! DEFINITION. The encode commands (42_encoder.md R220 to R232): ENC_BEGIN, ENC_SYM, ENC_BUILD, ENC_END. -/

namespace Sys2Proof.Machine

/-- ENC_BEGIN's pseudocode (R221). -/
def encBeginBody (s : State) : Flow :=
  .cont { clearWriter s with tab := [], total := 0, state := .encCount }

/-- ENC_BEGIN (R221). -/
def execEncBegin (s : State) : Result := commonChecks .encBegin encBeginBody s

/-- `Count(VAL)`, the first pass (R223, R224). -/
def count (v : Sym) (s : State) : Flow :=
  if s.total = s.params.totalMax then raiseEnd .countOverflow s
  else if (findSym v s.tab).isSome then
    .cont { s with tab := bumpCount v s.tab, total := s.total + 1 }
  else if s.nent = s.params.maxEntries - 1 then raiseEnd .tableFull s
  else (tabPush ⟨v, 1, []⟩ s).andThen fun s => .cont { s with total := s.total + 1 }

/-- `Code(VAL)`, the second pass (R225). -/
def code (v : Sym) (s : State) : Flow :=
  match findSym v s.tab with
  | some e => .cont (writeCode e.code s)
  | none => raiseEnd .unknownSymbol s

/-- ENC_SYM's pseudocode (R222). -/
def encSymBody (val : Val) (s : State) : Flow :=
  if isScalar val.toNat then
    if s.state = .encCount then count (symOfVal val) s else code (symOfVal val) s
  else raiseEnd .badSymbol s

/-- ENC_SYM (R222). -/
def execEncSym (val : Val) (s : State) : Result := commonChecks (.encSym val) (encSymBody val) s

/-- The entries in ascending order of symbol (R227). -/
def bySymbol (entries : List Entry) : List Entry :=
  entries.insertionSort fun a b => a.sym.toNat ≤ b.sym.toNat

/-- One pair of the header: `Dec(e.sym) ++ [0x20] ++ Chars(e.code) ++ [0x20]` (R227). -/
def entryBytes (e : Entry) : List Byte :=
  decimal e.sym.toNat ++ [0x20#8] ++ codeChars e.code ++ [0x20#8]

/-- `HeaderBytes()` (R227). -/
def headerBytes (entries : List Entry) : List Byte :=
  (bySymbol entries).flatMap entryBytes ++ [0x0A#8]

/-- The rest of ENC_BUILD's pseudocode once the sentinel's entry is in the table (R226). -/
def buildCodes (s : State) : Flow :=
  let codes := codesOf s.tab
  if codes.any fun c => decide (s.params.maxCodeLen < c.2.length) then raiseEnd .codeTooLong s
  else
    let tab := assignCodes codes s.tab
    let s₁ := emitAll ((headerBytes tab).map fun h => (Response.byte h).word) { s with tab := tab }
    .cont { clearWriter s₁ with state := .encBody }

/-- ENC_BUILD's pseudocode (R226). -/
def encBuildBody (s : State) : Flow := (tabPush ⟨sentinel, 1, []⟩ s).andThen buildCodes

/-- ENC_BUILD (R226). -/
def execEncBuild (s : State) : Result := commonChecks .encBuild encBuildBody s

/-- ENC_END's pseudocode (R228). -/
def encEndBody (s : State) : Flow :=
  match findSym sentinel s.tab with
  | some e => .cont { emit (.done .enc) (flush (writeCode e.code s)) with state := .idle }
  | none => .fault .noSentinelEntry

/-- ENC_END (R228). -/
def execEncEnd (s : State) : Result := commonChecks .encEnd encEndBody s

end Sys2Proof.Machine
end

