-- ==== Sys2Proof/Machine/Dispatch.lean ====
section
/-! DEFINITION. The meaning of every command: one arm for each constructor of Instr. -/

namespace Sys2Proof.Machine

/-- What a command does to a state, its common checks included (60_exceptions.md R325 to R328). -/
def exec (i : Instr) (s : State) : Host.Outcome State Fault Refusal :=
  match i with
  | .nop => Sys2Proof.Machine.execNop s
  | .encBegin => Sys2Proof.Machine.execEncBegin s
  | .encSym val => Sys2Proof.Machine.execEncSym val s
  | .encBuild => Sys2Proof.Machine.execEncBuild s
  | .encEnd => Sys2Proof.Machine.execEncEnd s
  | .decBegin => Sys2Proof.Machine.execDecBegin s
  | .decByte byte => Sys2Proof.Machine.execDecByte byte s
  | .decEnd => Sys2Proof.Machine.execDecEnd s
  | .getStatus => Sys2Proof.Machine.execGetStatus s
  | .abort => Sys2Proof.Machine.execAbort s

end Sys2Proof.Machine
end

