-- ==== Sys2Proof/Machine/Ports.lean ====
section
/-! DEFINITION. The ports of the block (70_reset_and_hazards.md R360 to R367, 10_state.md R45): the output levels, and the three
things that can happen at an edge: a command is accepted, a response is taken, the block is reset. -/

namespace Sys2Proof.Machine

/-- The words of S.rsp that stand in the response FIFO: at most RSP_FIFO_DEPTH of them (R366). -/
def fifo (s : State) : List Word := s.rsp.take s.params.rspFifoDepth

/-- The last accepted command is still executing: the FIFO lacks room for its next response (R365, R366). -/
def stalled (s : State) : Bool := decide (s.params.rspFifoDepth < s.rsp.length)

/-- The last accepted command has come as far as its `raise`, if it has one: of its words at most the last, which would be the
RSP_ERR, still waits for room in the FIFO (R366). `raise` sets S.state before it emits RSP_ERR (R324). -/
def reachedRaise (s : State) : Bool := decide (s.rsp.length ≤ s.params.rspFifoDepth + 1)

/-- `err_o`: ERROR (R45), once the command that raises has come as far as its `raise`. A word accepted in ERROR emits at most
one response (R325), so in ERROR two words waiting for room are the words of the command that raised
(notes/assumptions/3.md). -/
def errO (s : State) : Bool := decide (s.state = .error) && reachedRaise s

/-- `idle_o`: IDLE, S.rsp empty, nothing executing (R45). -/
def idleO (s : State) : Bool := decide (s.state = .idle) && s.rsp.isEmpty && !stalled s

/-- `cmd_ready` while `rst` has the given level (R360, R365). -/
def cmdReady (rst : Bool) (s : State) : Bool := !rst && !stalled s

/-- `rsp_valid` while `rst` has the given level (R360, R366). -/
def rspValid (rst : Bool) (s : State) : Bool := !rst && !s.rsp.isEmpty

/-- `rsp_data`, the front word of S.rsp; none where `rsp_valid` is low (R366). -/
def rspData (s : State) : Option Word := s.rsp.head?

/-- `Step(S, w)` of R371: the engine accepts the word w, CI advances (R31), and the command runs, or the illegal word
is dealt with (R325, R326). -/
def acceptWord (w : Word) (s : State) : Result :=
  let s₁ := { s with ci := s.ci + 1 }
  match decode w with
  | .ok i => exec i s₁
  | .error _ => execIllegal s₁

/-- An edge at which the host offers the next word (R365). With nothing offered, or while the engine is stalled, nothing
transfers and the state stays as it is. -/
def commandEdge (s : State) : Result :=
  match s.cmds with
  | [] => .next s
  | w :: ws => if cmdReady false s then acceptWord w { s with cmds := ws } else .next s

/-- An edge at which the host takes the front response word, if there is one (R366). -/
def takeEdge (s : State) : State :=
  match s.rsp with
  | [] => s
  | w :: ws => { s with rsp := ws, received := s.received ++ [w] }

/-- An edge at which `rst` is high: every field of R46 takes its reset value; the host keeps its own
(R360, notes/assumptions/4.md). -/
def resetEdge (s : State) : State :=
  { State.resetWith s.params with cmds := s.cmds, acts := s.acts, received := s.received }

/-- What the next edge does, given the host's act. -/
def edge (a : HostAct) (s : State) : Result :=
  match a with
  | .command => commandEdge s
  | .take => .next (takeEdge s)
  | .reset => .next (resetEdge s)

/-- The host's next act, and the state with that act taken off its plan; with no plan left it offers commands. -/
def nextAct (s : State) : HostAct × State :=
  match s.acts with
  | [] => (.command, s)
  | a :: as => (a, { s with acts := as })

/-- The host offers the word w before its other words, at the next edge, with the engine ready for it: any words
that stall the engine have been taken (R365, R366). -/
def offerNow (w : Word) (s : State) : State :=
  let excess := s.rsp.length - s.params.rspFifoDepth
  { s with
    cmds := w :: s.cmds
    acts := .command :: s.acts
    rsp := s.rsp.drop excess
    received := s.received ++ s.rsp.take excess }

/-- The engine accepts each word in turn, the host draining every response in time (R371). -/
def feed : List Word → State → Result
  | [], s => .next s
  | w :: ws, s =>
    match acceptWord w s with
    | .next s' => feed ws s'
    | .fault r => .fault r
    | .refused r => .refused r

end Sys2Proof.Machine
end

