-- ==== Sys2Proof/Machine/Step.lean ====
section
/-! DEFINITION. One step of the block and its host: one edge, at which at most one thing happens (70_reset_and_hazards.md R371),
and the placing of a word where the next step fetches it. -/

namespace Sys2Proof.Machine

/-- One step. -/
def step (s : State) : Host.Outcome State Fault Refusal := edge (nextAct s).1 (nextAct s).2

/-- s with the word w, its bits above nbits zero, offered so that the very next step accepts and runs it
(notes/assumptions/5.md). -/
def State.withFetchWord (s : State) (nbits w : Nat) : State :=
  offerNow (BitVec.ofNat 32 (w % 2 ^ nbits)) s

end Sys2Proof.Machine
end

