-- ==== Sys2Proof/WellFormed.lean ====
section
/-! DEFINITION. Which raw terms are meaningful: the constraints on the parameters (00_scope.md R9), and the ranges of a
listing's operands (30_encoding.md R120), which are the only place a command can be written down ill-formed: the types
of Instr's operands admit exactly the encodings R112 and R113 admit. -/

namespace Sys2Proof

/-- The constraints of R9: MAX_ENTRIES ≥ 2, MAX_CODE_LEN ≥ 1, COUNT_WIDTH ≥ 2, RSP_FIFO_DEPTH ≥ 1. -/
def Params.wf (p : Params) : Bool :=
  decide (2 ≤ p.maxEntries) && decide (1 ≤ p.maxCodeLen) && decide (2 ≤ p.countWidth) &&
    decide (1 ≤ p.rspFifoDepth)

/-- A command as a listing writes it: an opcode and an operand that is any natural number, not yet
checked against the operand's range (R120). -/
inductive RawCommand where
  | plain (i : Instr)
  | encSym (v : Nat)
  | decByte (b : Nat)
  deriving DecidableEq, Repr

/-- R120: `ENC_SYM <v>` takes a value in 0..0x0FFFFFFF and `DEC_BYTE <b>` a value in 0..0xFF. -/
def RawCommand.wf : RawCommand → Bool
  | .plain _ => true
  | .encSym v => decide (v ≤ 0x0FFFFFFF)
  | .decByte b => decide (b ≤ 0xFF)

/-- The command a well-formed raw command stands for. -/
def RawCommand.toInstr? (r : RawCommand) : Option Instr :=
  if r.wf then
    match r with
    | .plain i => some i
    | .encSym v => some (.encSym (BitVec.ofNat 28 v))
    | .decByte b => some (.decByte (BitVec.ofNat 8 b))
  else none

/-- Every command is well-formed: all 2^28 values of VAL and all 2^8 values of BYTE are legal encodings
(R112, R113), and the operand types hold no other value. -/
def Instr.wf : Instr → Bool
  | .nop | .encBegin | .encSym _ | .encBuild | .encEnd | .decBegin | .decByte _ | .decEnd | .getStatus
  | .abort => true

end Sys2Proof
end

