-- ==== Sys2Proof/Machine/Listing.lean ====
section
/-! DEFINITION. The listing syntax of commands, the pseudo-commands with their expansions, and the listing of responses
(30_encoding.md R120, R121, R122). A line is a list of characters. What the rules leave open about the text itself is
notes/assumptions/10.md. -/

namespace Sys2Proof.Machine

/-- The mnemonic of a command (R111). -/
def mnemonic : Instr → String
  | .nop => "NOP"
  | .encBegin => "ENC_BEGIN"
  | .encSym _ => "ENC_SYM"
  | .encBuild => "ENC_BUILD"
  | .encEnd => "ENC_END"
  | .decBegin => "DEC_BEGIN"
  | .decByte _ => "DEC_BYTE"
  | .decEnd => "DEC_END"
  | .getStatus => "GET_STATUS"
  | .abort => "ABORT"

/-- The pseudo-commands of R121; a text is its characters' scalar values. -/
inductive Pseudo where
  | encSyms (text : List Nat)
  | encode (text : List Nat)
  | decBytes (bytes : List Nat)
  | decode (bytes : List Nat)
  | sync
  deriving DecidableEq, Repr

/-- The expansion of a pseudo-command (R121), operands not yet checked. -/
def Pseudo.expand : Pseudo → List RawCommand
  | .encSyms t => t.map .encSym
  | .encode t =>
    [.plain .encBegin] ++ t.map .encSym ++ [.plain .encBuild] ++ t.map .encSym ++ [.plain .encEnd]
  | .decBytes bs => bs.map .decByte
  | .decode bs => [.plain .decBegin] ++ bs.map .decByte ++ [.plain .decEnd]
  | .sync => [.plain .getStatus]

/-- Why a line does not assemble. -/
inductive ListingError where
  | unknownMnemonic
  | badOperand
  | operandRange
  deriving DecidableEq, Repr

/-- A space between the parts of a line. -/
def isBlank (c : Char) : Bool := decide (c = ' ') || decide (c = '\t')

/-- Nothing but spaces or a comment is left of the line (R120). A `;` begins a comment where a part of the line could begin or
end; inside a literal it is that character (DESIGN CHOICE, notes/assumptions/10.md). -/
def lineEnds (cs : List Char) : Bool :=
  match cs.dropWhile isBlank with
  | [] => true
  | c :: _ => decide (c = ';')

/-- The value of a digit character in base 10 or 16. -/
def digitOf (hex : Bool) (c : Char) : Option Nat :=
  let n := c.toNat
  if 0x30 ≤ n ∧ n ≤ 0x39 then some (n - 0x30)
  else if hex ∧ 0x41 ≤ n ∧ n ≤ 0x46 then some (n - 0x41 + 10)
  else if hex ∧ 0x61 ≤ n ∧ n ≤ 0x66 then some (n - 0x61 + 10)
  else none

/-- The digits at the front of the text, their value added to `acc`, and the rest. -/
def readDigits (hex : Bool) : Nat → List Char → Nat × List Char
  | acc, [] => (acc, [])
  | acc, c :: cs =>
    match digitOf hex c with
    | some d => readDigits hex ((if hex then 16 else 10) * acc + d) cs
    | none => (acc, c :: cs)

/-- A decimal or `0x` hexadecimal number at the front of the text (R120). -/
def readNumber : List Char → Option (Nat × List Char)
  | '0' :: 'x' :: c :: cs => if (digitOf true c).isSome then some (readDigits true 0 (c :: cs)) else none
  | c :: cs => if (digitOf false c).isSome then some (readDigits false 0 (c :: cs)) else none
  | [] => none

/-- The operand of ENC_SYM: a number, or a character literal that stands for its scalar value (R120). R120 does not say whether
the `;` of `';'` begins a comment: it is read as the character (DESIGN CHOICE, notes/assumptions/10.md). -/
def readSymbol : List Char → Option (Nat × List Char)
  | '\'' :: '\\' :: 'n' :: '\'' :: cs => some (10, cs)
  | '\'' :: c :: '\'' :: cs => some (c.toNat, cs)
  | cs => readNumber cs

/-- The rest of a text literal after its opening quote: its characters' scalar values, and what follows. -/
def readTextRest : List Char → Option (List Nat × List Char)
  | [] => none
  | '"' :: cs => some ([], cs)
  | '\\' :: 'n' :: cs => (readTextRest cs).map fun r => (10 :: r.1, r.2)
  | c :: cs => (readTextRest cs).map fun r => (c.toNat :: r.1, r.2)

/-- A text literal (R121), in which a `;` is a character of the text (DESIGN CHOICE, notes/assumptions/10.md). -/
def readText : List Char → Option (List Nat × List Char)
  | '"' :: cs => readTextRest cs
  | _ => none

/-- A list of numbers separated by commas (R121), with fuel for one number more than `fuel`. A list has at least one number:
whether it may be empty R121 leaves open (DESIGN CHOICE, notes/assumptions/10.md). -/
def readNumbers : Nat → List Char → Option (List Nat × List Char)
  | fuel, cs =>
    match readNumber cs with
    | none => none
    | some (n, rest) =>
      match fuel, rest.dropWhile isBlank with
      | fuel + 1, ',' :: more =>
        (readNumbers fuel (more.dropWhile isBlank)).map fun r => (n :: r.1, r.2)
      | _, _ => some ([n], rest)

/-- The commands whose line is their mnemonic alone (R114). -/
def plainCommands : List Instr :=
  [.nop, .encBegin, .encBuild, .encEnd, .decBegin, .decEnd, .getStatus, .abort]

/-- The raw commands of a mnemonic or pseudo-command, given the text after it, and what follows the operand. The line
`.word <w>` of 95_test_vectors.md, which R120 does not define, is no command: see `readRawWord`. R120 names the written
forms of a value for ENC_SYM only: DEC_BYTE, and with it DEC_BYTES and DECODE, takes decimal and `0x` hexadecimal numbers and
no character literal (DESIGN CHOICE, notes/assumptions/10.md). -/
def readCommand (name rest : List Char) : Except ListingError (List RawCommand × List Char) :=
  let operand {α : Type} (r : Option (α × List Char)) (f : α → List RawCommand) :
      Except ListingError (List RawCommand × List Char) :=
    match r with
    | some (v, cs) => .ok (f v, cs)
    | none => .error .badOperand
  match plainCommands.find? fun i => decide ((mnemonic i).toList = name) with
  | some i => .ok ([.plain i], rest)
  | none =>
    if name = "ENC_SYM".toList then operand (readSymbol rest) fun v => [.encSym v]
    else if name = "DEC_BYTE".toList then operand (readNumber rest) fun b => [.decByte b]
    else if name = "ENC_SYMS".toList then operand (readText rest) fun t => (Pseudo.encSyms t).expand
    else if name = "ENCODE".toList then operand (readText rest) fun t => (Pseudo.encode t).expand
    else if name = "DEC_BYTES".toList then
      operand (readNumbers rest.length rest) fun b => (Pseudo.decBytes b).expand
    else if name = "DECODE".toList then
      operand (readNumbers rest.length rest) fun b => (Pseudo.decode b).expand
    else if name = "SYNC".toList then .ok (Pseudo.sync.expand, rest)
    else .error .unknownMnemonic

/-- The commands of raw commands whose operands are all in range (R120). -/
def checkAll (rs : List RawCommand) : Except ListingError (List Instr) :=
  match rs.mapM RawCommand.toInstr? with
  | some is => .ok is
  | none => .error .operandRange

/-- A listing line: nothing, or one command or pseudo-command, and a comment (R120, R121). -/
def parseLine (line : List Char) : Except ListingError (List Instr) :=
  if lineEnds line then .ok []
  else
    let cs := line.dropWhile isBlank
    let isName := fun c : Char => c.isUpper || decide (c = '_')
    match readCommand (cs.takeWhile isName) ((cs.dropWhile isName).dropWhile isBlank) with
    | .error e => .error e
    | .ok (rs, rest) => if lineEnds rest then checkAll rs else .error .badOperand

/-- The operand of a raw-word line `.word <w>`, given the text after `.word`: one number below 2^32, the word itself, whether
it is legal or not. 95_test_vectors.md writes such lines and R120 does not define them (DESIGN CHOICE,
notes/assumptions/10.md). -/
def readRawWord (operand : List Char) : Except ListingError Word :=
  match readNumber (operand.dropWhile isBlank) with
  | none => .error .badOperand
  | some (w, rest) =>
    if lineEnds rest then
      if w < 2 ^ 32 then .ok (BitVec.ofNat 32 w) else .error .operandRange
    else .error .badOperand

/-- The words a line assembles to (R120). -/
def assembleLine (line : List Char) : Except ListingError (List Word) :=
  match line.dropWhile isBlank with
  | '.' :: 'w' :: 'o' :: 'r' :: 'd' :: operand =>
    match readRawWord operand with
    | .error e => .error e
    | .ok w => .ok [w]
  | _ =>
    match parseLine line with
    | .error e => .error e
    | .ok is => .ok (is.map encode)

/-- The state names of R34. -/
def Phase.name : Phase → String
  | .idle => "IDLE"
  | .encCount => "ENC_COUNT"
  | .encBody => "ENC_BODY"
  | .decHeader => "DEC_HEADER"
  | .decBody => "DEC_BODY"
  | .decTail => "DEC_TAIL"
  | .error => "ERROR"

/-- The error names of R320. -/
def Err.name : Err → String
  | .none => "NONE"
  | .illegalCmd => "ILLEGAL_CMD"
  | .sequence => "SEQUENCE"
  | .badSymbol => "BAD_SYMBOL"
  | .tableFull => "TABLE_FULL"
  | .countOverflow => "COUNT_OVERFLOW"
  | .unknownSymbol => "UNKNOWN_SYMBOL"
  | .codeTooLong => "CODE_TOO_LONG"
  | .fmtOddTokens => "FMT_ODD_TOKENS"
  | .fmtNonintSymbol => "FMT_NONINT_SYMBOL"
  | .fmtSymbolRange => "FMT_SYMBOL_RANGE"
  | .fmtDupCode => "FMT_DUP_CODE"
  | .fmtBadCode => "FMT_BAD_CODE"
  | .fmtCodeTooLong => "FMT_CODE_TOO_LONG"
  | .fmtTableFull => "FMT_TABLE_FULL"
  | .fmtHeaderEof => "FMT_HEADER_EOF"
  | .bodyTruncated => "BODY_TRUNCATED"
  | .bodyNoMatch => "BODY_NO_MATCH"

/-- A hexadecimal digit as a character. -/
def hexDigit (d : Nat) : Char := Char.ofNat (if d < 10 then 0x30 + d else 0x41 + (d - 10))

/-- The characters of a decimal numeral. -/
def decimalChars (v : Nat) : List Char := (decimal v).map fun b => Char.ofNat b.toNat

/-- The listing of a response (R122). -/
def Response.listing : Response → List Char
  | .byte b => "BYTE 0x".toList ++ [hexDigit (b.toNat / 16), hexDigit (b.toNat % 16)]
  | .sym v => "SYM ".toList ++ decimalChars v.toNat
  | .done .enc => "DONE enc".toList
  | .done .dec => "DONE dec".toList
  | .status p e => "STATUS ".toList ++ p.name.toList ++ ", ".toList ++ e.name.toList
  | .err e => "ERR ".toList ++ e.name.toList

end Sys2Proof.Machine
end

