-- ==== Sys2Proof/Safety.lean ====
section
/-! DEFINITION. What counts as a safe run: the invariant of the block's state (10_state.md R35 to R41, the bounds of R33, and
30_encoding.md R115), and the words the claims are written in. -/

namespace Sys2Proof.Machine

/-- The response words as the pseudocode writes them (41_bitstream.md R190, 43_decoder.md R259, 60_exceptions.md R324). -/
def byteWord (b : Byte) : Word := 0x10000000#32 ||| b.setWidth 32

def symWord (v : Sym) : Word := 0x20000000#32 ||| v.setWidth 32

def doneWord (decode : Bool) : Word := if decode then 0x30000001#32 else 0x30000000#32

def errWord (c : BitVec 8) : Word := 0xF0000000#32 ||| c.setWidth 32

/-- The bits held in the writer, first written first: `S.bw_acc[7 : 8 − S.bw_cnt]` (R39). -/
def pending (s : State) : Bits := (readBits s.bwAcc).take s.bwCnt.val

/-- The bits a sequence of bytes yields to the reader (R195). -/
def bitsOf (bs : List Byte) : Bits := bs.flatMap readBits

/-- No bitstring of the list is a prefix of another, and no two are equal (R164). -/
abbrev PrefixFree (codes : List Bits) : Prop := codes.Pairwise fun a b => ¬ a <+: b ∧ ¬ b <+: a

/-- No stored code is a prefix of the bitstring: a candidate that has matched nothing yet (R259). -/
abbrev Unmatched (tab : List Entry) (c : Bits) : Prop := ∀ e ∈ tab, ¬ e.code <+: c

/-- No two entries have the same symbol (R37). -/
abbrev DistinctSyms (tab : List Entry) : Prop := (tab.map Entry.sym).Nodup

/-- No two entries have equal codes (R37). -/
abbrev DistinctCodes (tab : List Entry) : Prop := (tab.map Entry.code).Nodup

/-- The sum of the counts. -/
def sumCounts (tab : List Entry) : Nat := (tab.map Entry.cnt).sum

/-- The error codes of R320 that an RSP_ERR word may carry. -/
def errorCodes : List (BitVec 8) :=
  [0x01, 0x02, 0x03, 0x04, 0x05, 0x06, 0x07, 0x10, 0x11, 0x12, 0x13, 0x14, 0x15, 0x16, 0x17, 0x20, 0x21]

/-- w has one of the five formats of R115: a tag that is emitted, its reserved bits zero, a state code of R34 and an
error code of R320. -/
def isResponse (w : Word) : Bool :=
  (decide (w.extractLsb' 28 4 = 0x1#4) && decide (w.extractLsb' 8 20 = 0#20)) ||
  (decide (w.extractLsb' 28 4 = 0x2#4) && decide (w.extractLsb' 21 7 = 0#7)) ||
  (decide (w.extractLsb' 28 4 = 0x3#4) && decide (w.extractLsb' 1 27 = 0#27)) ||
  (decide (w.extractLsb' 28 4 = 0x4#4) && decide (w.extractLsb' 0 16 = 0#16) &&
    [0x0#4, 0x1#4, 0x2#4, 0x3#4, 0x4#4, 0x5#4, 0xF#4].contains (w.extractLsb' 24 4) &&
    (0x00#8 :: errorCodes).contains (w.extractLsb' 16 8)) ||
  (decide (w.extractLsb' 28 4 = 0xF#4) && decide (w.extractLsb' 8 20 = 0#20) &&
    errorCodes.contains (w.extractLsb' 0 8))

/-- S.err is NONE exactly outside ERROR (R35). -/
abbrev StatusInv (s : State) : Prop := s.err = .none ↔ s.state ≠ .error

/-- The table's bounds (R33, R36, R37), and `S.total <= TOTAL_MAX` (R38). -/
abbrev TableInv (s : State) : Prop :=
  s.nent ≤ s.params.maxEntries ∧ s.total ≤ s.params.totalMax ∧
    ∀ e ∈ s.tab, e.cnt ≤ s.params.countMax ∧ e.code.length ≤ s.params.maxCodeLen

/-- The accumulator's bits not yet written are zero (R39). -/
abbrev WriterInv (s : State) : Prop :=
  ∀ k : Fin 8, k.val < 8 - s.bwCnt.val → s.bwAcc.getLsbD k.val = false

/-- The bounds of the parser's fields and of the candidate (R33). -/
abbrev ParserInv (s : State) : Prop :=
  s.hpVal ≤ sentinelVal + 1 ∧ s.hpCode.length ≤ s.params.maxCodeLen ∧
    s.hpLen ≤ s.params.maxCodeLen + 1 ∧ s.cand.length ≤ s.params.maxCodeLen

/-- Every word of S.rsp is a response (R115). -/
abbrev ResponsesInv (s : State) : Prop := s.rsp.all isResponse = true

/-- The table in ENC_COUNT (R37, R38): a slot is free for the sentinel, the symbols are real and distinct, the counts
positive, and S.total is their sum. -/
abbrev EncCountInv (s : State) : Prop :=
  s.nent < s.params.maxEntries ∧ DistinctSyms s.tab ∧
    (∀ e ∈ s.tab, isScalar e.sym.toNat = true ∧ 1 ≤ e.cnt) ∧ sumCounts s.tab = s.total

/-- The table in ENC_BODY (R37): one entry holds the sentinel, the codes are a prefix-free set. -/
abbrev EncBodyInv (s : State) : Prop :=
  DistinctSyms s.tab ∧ s.tab.countP (fun e => decide (e.sym = sentinel)) = 1 ∧
    (∀ e ∈ s.tab, isHeaderSymbol e.sym.toNat = true ∧ 1 ≤ e.cnt ∧ e.code ≠ []) ∧
    PrefixFree (s.tab.map Entry.code) ∧ sumCounts s.tab = s.total + 1

/-- The table in DEC_HEADER, DEC_BODY and DEC_TAIL (R36, R37). -/
abbrev DecodeInv (s : State) : Prop :=
  DistinctCodes s.tab ∧
    ∀ e ∈ s.tab, isHeaderSymbol e.sym.toNat = true ∧ e.cnt = 0 ∧ e.code ≠ []

/-- The parser in DEC_HEADER: a finished symbol is a header symbol, and of the code token read so far no more than its length
is held, and all of it unless it is bad or too long (R254, R255). -/
abbrev HeaderInv (s : State) : Prop :=
  (s.hpPhase = .codeWait ∨ s.hpPhase = .codeIn → isHeaderSymbol s.hpSym.toNat = true) ∧
    (s.hpPhase = .codeIn → 1 ≤ s.hpLen ∧ s.hpCode.length ≤ s.hpLen ∧
      (s.hpBad = false → s.hpLen ≤ s.params.maxCodeLen → s.hpCode.length = s.hpLen))

/-- The invariant of the block. -/
abbrev Inv (s : State) : Prop :=
  s.params.wf = true ∧ StatusInv s ∧ TableInv s ∧ WriterInv s ∧ ParserInv s ∧ ResponsesInv s ∧
    (s.state = .encCount → EncCountInv s) ∧ (s.state = .encBody → EncBodyInv s) ∧
    (s.state = .decHeader ∨ s.state = .decBody ∨ s.state = .decTail → DecodeInv s) ∧
    (s.state = .decHeader → HeaderInv s) ∧
    (s.state = .decBody → s.cand.length < s.params.maxCodeLen)

/-- A step that answers a next state. -/
def Safe (s : State) : Prop := ∃ t, step s = .next t

/-- The words of an encode: pass 1 over `xs`, pass 2 over `ys` (42_encoder.md R232, 70_reset_and_hazards.md R368). -/
def encodeWords (xs ys : List Val) : List Word :=
  [0x10000000#32] ++ xs.map (fun x => encode (.encSym x)) ++ [0x30000000#32] ++
    ys.map (fun y => encode (.encSym y)) ++ [0x40000000#32]

/-- The words of a decode of a compressed stream (43_decoder.md R264). -/
def decodeWords (bs : List Byte) : List Word :=
  [0x50000000#32] ++ bs.map (fun b => encode (.decByte b)) ++ [0x70000000#32]

/-- The bits of a pass-2 sequence: the code of each symbol, then the sentinel's code (42_encoder.md R229). -/
def bodyCode (tab : List Entry) (ys : List Val) : Bits :=
  ys.flatMap (fun y => ((findSym (symOfVal y) tab).map Entry.code).getD []) ++
    ((findSym sentinel tab).map Entry.code).getD []

end Sys2Proof.Machine
end

