-- ==== Sys2Proof/Certificates/Slice0/Obligations.lean ====
section
/-! DEFINITION. The statements about the block, in the order of the spec's files. Each says in its docstring which rules it
formalises. -/

open Sys2Proof Sys2Proof.Machine

namespace Sys2Proof.Claims

/-- What `raise E` leaves (60_exceptions.md R324), written out from the rule's pseudocode. -/
def raised (e : Err) (s : State) : State :=
  { s with err := e, state := .error, rsp := s.rsp ++ [errWord e.code] }

/-- The legality table of 60_exceptions.md R327, row by row. -/
def legalPhases : Instr → List Phase
  | .nop | .getStatus | .abort => [.idle, .encCount, .encBody, .decHeader, .decBody, .decTail, .error]
  | .encBegin | .decBegin => [.idle, .decTail]
  | .encSym _ => [.encCount, .encBody]
  | .encBuild => [.encCount]
  | .encEnd => [.encBody]
  | .decByte _ | .decEnd => [.decHeader, .decBody, .decTail]

/-- The range of R11, written out: v is no real symbol. -/
def notScalar (v : Nat) : Prop := (0xD800 ≤ v ∧ v ≤ 0xDFFF) ∨ 0x110000 ≤ v

/-- The sentinel's entry as ENC_BUILD writes it (R226). -/
def sentinelEntry : Entry := ⟨0x110000#21, 1, []⟩

/-- One key is below another (R154). -/
def keyBelow (a b : Node) : Prop :=
  a.weight < b.weight ∨ (a.weight = b.weight ∧ a.minsym.toNat < b.minsym.toNat)

/-- The digits of a numeral as bytes give this value (R227, R254). -/
def numeralValue (ds : List Byte) : Nat := ds.foldl (fun a d => 10 * a + (d.toNat - 0x30)) 0

/-- An ASCII digit. -/
def isDigitByte (b : Byte) : Prop := 0x30 ≤ b.toNat ∧ b.toNat ≤ 0x39

/-- The separator bytes of R253. -/
def sepBytes : List Byte := [0x20, 0x09, 0x0B, 0x0C, 0x0D]

/-- `hp_len <- min(hp_len + 1, MAX_CODE_LEN + 1)` (R254). -/
def longer (s : State) : Nat := min (s.hpLen + 1) (s.params.maxCodeLen + 1)

/-- Two states agree on every field of the engine but S.rsp (R33). -/
def sameEngine (s t : State) : Prop :=
  s.state = t.state ∧ s.err = t.err ∧ s.tab = t.tab ∧ s.total = t.total ∧ s.bwAcc = t.bwAcc ∧
    s.bwCnt = t.bwCnt ∧ s.hpPhase = t.hpPhase ∧ s.hpVal = t.hpVal ∧ s.hpNd = t.hpNd ∧
    s.hpSym = t.hpSym ∧ s.hpCode = t.hpCode ∧ s.hpLen = t.hpLen ∧ s.hpBad = t.hpBad ∧
    s.cand = t.cand ∧ s.ci = t.ci

/-- From the candidate c, the code of the stored entry e is the first code the growing candidate equals (R259, R261): no other
stored code is reached on the way. -/
abbrev firstMatch (s : State) (c : Bits) (e : Entry) : Prop :=
  e ∈ s.tab ∧ e.code.length ≤ s.params.maxCodeLen ∧ c.length < e.code.length ∧
    ∀ x ∈ s.tab, x.code <+: e.code → c.length < x.code.length → x = e

/-- The candidate grows from c to d and equals no stored code on the way or at d (R259). -/
abbrev noMatch (s : State) (c d : Bits) : Prop := ∀ x ∈ s.tab, x.code <+: d → x.code.length ≤ c.length

/-- The candidate once the entries es have been matched: each match empties it (R259). -/
abbrev candAfter (s : State) (es : List Entry) : Bits := if es = [] then s.cand else []

/-- The entries es of real symbols are first matches one after another, the first of them from S.cand. -/
abbrev matchedInOrder (s : State) (es : List Entry) : Prop :=
  (∀ e ∈ es, e.sym ≠ 0x110000#21) ∧ (∀ e ∈ es.take 1, firstMatch s s.cand e) ∧ ∀ e ∈ es.drop 1, firstMatch s [] e

end Sys2Proof.Claims

open Sys2Proof.Claims

/-! ### Encoding (30_encoding.md) -/

/-- 30_encoding.md R110 to R114, R117: no bit of a command's word is dropped, and no word that decodes has another. -/
def Obligations.DecodeAndEncodeAgree : Prop :=
  ∀ i : Instr, decode (encode i) = .ok i ∧ ∀ w : Word, decode w = .ok i → w = encode i

/-- 30_encoding.md R117, in arithmetic on the word's number: what each of the 2^32 words is. -/
def Obligations.DecodeByOpcodeAndPayload : Prop :=
  ∀ w : Word,
    let op := w.toNat / 2 ^ 28
    let p := w.toNat % 2 ^ 28
    (op = 2 → decode w = .ok (.encSym (BitVec.ofNat 28 p))) ∧
    (op = 6 → p < 256 → decode w = .ok (.decByte (BitVec.ofNat 8 p))) ∧
    (op = 6 → 256 ≤ p → ∃ e, decode w = .error e) ∧
    (∀ oi ∈ [(0, Instr.nop), (1, .encBegin), (3, .encBuild), (4, .encEnd), (5, .decBegin), (7, .decEnd),
        (8, .getStatus), (14, .abort)], op = oi.1 →
      (p = 0 → decode w = .ok oi.2) ∧ (p ≠ 0 → ∃ e, decode w = .error e)) ∧
    (op ∈ [9, 10, 11, 12, 13, 15] → ∃ e, decode w = .error e)

/-- 30_encoding.md R111 to R114, R120: words written out from the encodings. -/
def Obligations.WordsOfTheOpcodeMap : Prop :=
  decode 0x00000000#32 = .ok .nop ∧ decode 0x10000000#32 = .ok .encBegin ∧
  decode 0x20000041#32 = .ok (.encSym 65#28) ∧ decode 0x2FFFFFFF#32 = .ok (.encSym 0xFFFFFFF#28) ∧
  decode 0x30000000#32 = .ok .encBuild ∧ decode 0x40000000#32 = .ok .encEnd ∧
  decode 0x50000000#32 = .ok .decBegin ∧ decode 0x6000000A#32 = .ok (.decByte 0x0A#8) ∧
  decode 0x70000000#32 = .ok .decEnd ∧ decode 0x80000000#32 = .ok .getStatus ∧
  decode 0xE0000000#32 = .ok .abort ∧ decode 0x60000100#32 = .error .reservedBits ∧
  decode 0x00000001#32 = .error .reservedBits ∧ decode 0x90000000#32 = .error .reservedOpcode ∧
  decode 0xF0000000#32 = .error .reservedOpcode

/-- 30_encoding.md R120, R121: a command with an operand in range assembles to `(OP << 28) | operand`, one with an operand
out of range to nothing, and each pseudo-command to the words of its expansion. -/
def Obligations.ListingAssembles : Prop :=
  (∀ r : RawCommand, ∀ i, r.toInstr? = some i → encode i =
    match r with
    | .plain j => encode j
    | .encSym v => BitVec.ofNat 32 (0x20000000 + v)
    | .decByte b => BitVec.ofNat 32 (0x60000000 + b)) ∧
  (∀ r : RawCommand, r.toInstr? = none ↔
    match r with
    | .plain _ => False
    | .encSym v => 0x0FFFFFFF < v
    | .decByte b => 0xFF < b) ∧
  (∀ t : List Nat, (∀ c ∈ t, c ≤ 0x0FFFFFFF) →
    (∃ is, checkAll (Pseudo.encSyms t).expand = .ok is ∧
      is.map encode = t.map (fun c => BitVec.ofNat 32 (0x20000000 + c))) ∧
    ∃ is, checkAll (Pseudo.encode t).expand = .ok is ∧
      is.map encode = encodeWords (t.map (BitVec.ofNat 28)) (t.map (BitVec.ofNat 28))) ∧
  (∀ bs : List Nat, (∀ b ∈ bs, b ≤ 0xFF) →
    (∃ is, checkAll (Pseudo.decBytes bs).expand = .ok is ∧
      is.map encode = bs.map (fun b => BitVec.ofNat 32 (0x60000000 + b))) ∧
    ∃ is, checkAll (Pseudo.decode bs).expand = .ok is ∧
      is.map encode = decodeWords (bs.map (BitVec.ofNat 8))) ∧
  ∃ is, checkAll Pseudo.sync.expand = .ok is ∧ is.map encode = [0x80000000#32]

/-! ### Errors and control (60_exceptions.md, 44_control.md) -/

/-- 60_exceptions.md R320: the code of each error, and that no two errors share one. -/
def Obligations.ErrorCodesOfTheTable : Prop :=
  ([.none, .illegalCmd, .sequence, .badSymbol, .tableFull, .countOverflow, .unknownSymbol, .codeTooLong] :
      List Err).map Err.code = [0x00, 0x01, 0x02, 0x03, 0x04, 0x05, 0x06, 0x07] ∧
  ([.fmtOddTokens, .fmtNonintSymbol, .fmtSymbolRange, .fmtDupCode, .fmtBadCode, .fmtCodeTooLong,
      .fmtTableFull, .fmtHeaderEof] : List Err).map Err.code =
    [0x10, 0x11, 0x12, 0x13, 0x14, 0x15, 0x16, 0x17] ∧
  ([.bodyTruncated, .bodyNoMatch] : List Err).map Err.code = [0x20, 0x21] ∧
  ∀ e f : Err, e.code = f.code → e = f

/-- 60_exceptions.md R326, 30_encoding.md R116: outside ERROR an illegal word raises ILLEGAL_CMD, and nothing but
S.err, S.state, S.rsp and CI changes; in ERROR it is dropped. -/
def Obligations.IllegalWordRaisesIllegalCmd : Prop :=
  ∀ (w : Word) (s : State), illegal w = true →
    (s.state ≠ .error →
      acceptWord w s = .next (raised .illegalCmd { s with ci := s.ci + 1 })) ∧
    (s.state = .error → acceptWord w s = .next { s with ci := s.ci + 1 })

/-- 60_exceptions.md R327: a legal command outside its legal states raises SEQUENCE (in ERROR it is dropped instead), and in
its legal states it does not. -/
def Obligations.SequenceOutsideLegalStates : Prop :=
  ∀ (i : Instr) (s : State), s.state ≠ .error →
    (s.state ∉ legalPhases i → exec i s = .next (raised .sequence s)) ∧
    (s.state ∈ legalPhases i → ∀ t, exec i s = .next t → t.state = .error → t.err ≠ .sequence)

/-- 60_exceptions.md R325: in ERROR every word but the exact NOP, GET_STATUS and ABORT words is dropped, and those
three execute; only ABORT leaves ERROR, and no RSP_ERR comes out. -/
def Obligations.ErrorStateIsSticky : Prop :=
  ∀ (w : Word) (s : State), s.state = .error →
    (w ≠ 0x00000000#32 → w ≠ 0x80000000#32 → w ≠ 0xE0000000#32 →
      acceptWord w s = .next { s with ci := s.ci + 1 }) ∧
    acceptWord 0x00000000#32 s = .next { s with ci := s.ci + 1 } ∧
    acceptWord 0x80000000#32 s = .next { s with
      ci := s.ci + 1, rsp := s.rsp ++ [0x4F000000#32 ||| (s.err.code.setWidth 32 <<< 16)] } ∧
    acceptWord 0xE0000000#32 s = exec .abort { s with ci := s.ci + 1 } ∧
    (∃ t, acceptWord 0xE0000000#32 s = .next t ∧ t.state = .idle ∧ t.err = .none ∧ t.rsp = s.rsp)

/-- 60_exceptions.md R330: a step that leaves ERROR is an accepted ABORT or a reset, and it ends in IDLE with no error. -/
def Obligations.ErrorLeftOnlyByAbortOrReset : Prop :=
  ∀ s t : State, s.state = .error → step s = .next t → t.state ≠ .error →
    t.state = .idle ∧ t.err = .none ∧
      (s.acts.head? = some .reset ∨
        (s.acts.head? ≠ some .take ∧ s.cmds.head? = some 0xE0000000#32))

/-- 44_control.md R301: NOP does nothing in every state; its word advances CI; a set reserved bit is ILLEGAL_CMD. -/
def Obligations.NopDoesNothing : Prop :=
  ∀ s : State, exec .nop s = .next s ∧ acceptWord 0x00000000#32 s = .next { s with ci := s.ci + 1 } ∧
    ∀ p : Val, p ≠ 0 → s.state ≠ .error →
      acceptWord (0x0#4 ++ p) s = .next (raised .illegalCmd { s with ci := s.ci + 1 })

/-- 44_control.md R302: GET_STATUS emits the state code and the error code in every state, and changes nothing else. -/
def Obligations.GetStatusReports : Prop :=
  ∀ s : State,
    exec .getStatus s = .next { s with
      rsp := s.rsp ++ [0x40000000#32 ||| (s.state.code.setWidth 32 <<< 24) ||| (s.err.code.setWidth 32 <<< 16)] } ∧
    ([.idle, .encCount, .encBody, .decHeader, .decBody, .decTail, .error] : List Phase).map Phase.code =
      [0x0, 0x1, 0x2, 0x3, 0x4, 0x5, 0xF] ∧
    decode 0x80000000#32 = .ok .getStatus ∧
    ∀ p : Val, p ≠ 0 → s.state ≠ .error →
      acceptWord (0x8#4 ++ p) s = .next (raised .illegalCmd { s with ci := s.ci + 1 })

/-- 44_control.md R303: ABORT clears every field of R33 but S.rsp, in every state, and emits nothing. -/
def Obligations.AbortClears : Prop :=
  ∀ s : State,
    exec .abort s = .next { s with
      state := .idle, err := .none, tab := [], total := 0, bwAcc := 0, bwCnt := 0, hpPhase := .symWait,
      hpVal := 0, hpNd := false, hpSym := 0, hpCode := [], hpLen := 0, hpBad := false, cand := [] } ∧
    decode 0xE0000000#32 = .ok .abort ∧
    ∀ p : Val, p ≠ 0 → s.state ≠ .error →
      acceptWord (0xE#4 ++ p) s = .next (raised .illegalCmd { s with ci := s.ci + 1 })

/-! ### The bit layer (41_bitstream.md) -/

/-- 41_bitstream.md R190, R193: WriteBit sets or clears the next most significant unfilled bit, and the eighth bit emits
the byte. -/
def Obligations.WriteBitFillsFromTheTop : Prop :=
  ∀ (b : Bool) (s : State), ∃ acc : Byte,
    (∀ k, k < 8 → acc.getLsbD k = if k + s.bwCnt.val = 7 then b else s.bwAcc.getLsbD k) ∧
    (s.bwCnt = 7 → writeBit b s = { s with bwAcc := 0, bwCnt := 0, rsp := s.rsp ++ [byteWord acc] }) ∧
    (s.bwCnt ≠ 7 → writeBit b s = { s with bwAcc := acc, bwCnt := s.bwCnt + 1 })

/-- 41_bitstream.md R192: Flush emits the partly filled byte and empties the writer; with no bits held it does nothing. -/
def Obligations.FlushEmitsPartialByte : Prop :=
  ∀ s : State,
    (s.bwCnt = 0 → flush s = s) ∧
    (s.bwCnt ≠ 0 → flush s = { s with bwAcc := 0, bwCnt := 0, rsp := s.rsp ++ [byteWord s.bwAcc] }) ∧
    (WriterInv s → readBits s.bwAcc = pending s ++ List.replicate (8 - s.bwCnt.val) false)

/-- 41_bitstream.md R198: what is written and flushed reads back, followed by the pad. -/
def Obligations.WrittenBitsReadBack : Prop :=
  ∀ (β : Bits) (s : State), s.bwAcc = 0 → s.bwCnt = 0 → ∃ bytes : List Byte,
    flush (writeCode β s) = { s with rsp := s.rsp ++ bytes.map byteWord } ∧
    bytes.length = (β.length + 7) / 8 ∧
    bitsOf bytes = β ++ List.replicate (8 * bytes.length - β.length) false

/-! ### The tree and the codes (40_tree_construction.md) -/

/-- 40_tree_construction.md R154, R155: a merge takes the live tree with the least key and then the least of the rest, the
first as left child, and does so as long as two trees are live. -/
def Obligations.MergeTakesTheTwoLeastTrees : Prop :=
  ∀ (ar : Arena) (live : List Nat), live.Nodup → (∀ i ∈ live, i < ar.length) →
    (∀ i ∈ live, ∀ j ∈ live, i ≠ j → (ar[i]?).map Node.minsym ≠ (ar[j]?).map Node.minsym) →
    2 ≤ live.length →
    ∃ a b na nb rest, ar[a]? = some na ∧ ar[b]? = some nb ∧ live.Perm (a :: b :: rest) ∧
      keyBelow na nb ∧ (∀ j ∈ rest, ∀ nj, ar[j]? = some nj → keyBelow nb nj) ∧
      mergeStep ar live = some
        (ar ++ [⟨na.weight + nb.weight, if na.minsym.toNat ≤ nb.minsym.toNat then na.minsym else nb.minsym,
          .internal a b⟩], rest ++ [ar.length])

/-- 40_tree_construction.md R156: one tree remains, its arena has exactly 2m − 1 nodes, and each node but the root is the
child of exactly one parent (20_memory.md R81). -/
def Obligations.BuildLeavesOneTree : Prop :=
  ∀ tab : List Entry, tab ≠ [] → ∃ ar root, buildTree tab = (ar, [root]) ∧
    ar.length = 2 * tab.length - 1 ∧
    (ar.flatMap fun n => match n.body with
      | .leaf _ => []
      | .internal l r => [l, r]).Perm ((List.range ar.length).erase root) ∧
    (ar.filterMap fun n => match n.body with
      | .leaf v => some v
      | .internal _ _ => none) = tab.map Entry.sym

/-- 40_tree_construction.md R157: at ENC_BUILD the root's weight is S.total + 1 ≤ COUNT_MAX and no node's is larger, so no
sum wraps. -/
def Obligations.WeightsNeverWrap : Prop :=
  ∀ s : State, Inv s → s.state = .encCount → ∃ ar root n,
    buildTree (s.tab ++ [sentinelEntry]) = (ar, [root]) ∧ ar[root]? = some n ∧
    n.weight = s.total + 1 ∧ s.total + 1 ≤ 2 ^ s.params.countWidth - 1 ∧ ∀ x ∈ ar, x.weight ≤ n.weight

/-- 40_tree_construction.md R161, R162: every symbol of the table gets exactly one code, and no other symbol does. -/
def Obligations.EveryEntryGetsOneCode : Prop :=
  ∀ tab : List Entry, ((codesOf tab).map Prod.fst).Perm (tab.map Entry.sym)

/-- 40_tree_construction.md R164: no generated code is a prefix of another, and no two are equal. -/
def Obligations.CodesArePrefixFree : Prop :=
  ∀ tab : List Entry, PrefixFree ((codesOf tab).map Prod.snd)

/-- 40_tree_construction.md R162, R163: with m ≥ 2 entries a code has between 1 and m − 1 bits; with one it is "0". -/
def Obligations.CodeLengthBounds : Prop :=
  (∀ tab : List Entry, 2 ≤ tab.length →
    ∀ c ∈ codesOf tab, 1 ≤ c.2.length ∧ c.2.length ≤ tab.length - 1) ∧
  ∀ e : Entry, codesOf [e] = [(e.sym, [false])]

/-- 40_tree_construction.md R152, R160: codes, header and body depend on the table's (symbol, count) pairs alone, not on
their order. -/
def Obligations.OutputIgnoresTableOrder : Prop :=
  ∀ t₁ t₂ : List Entry, DistinctSyms t₁ →
    (t₁.map fun e => (e.sym, e.cnt)).Perm (t₂.map fun e => (e.sym, e.cnt)) →
    (∀ v, codeFor (codesOf t₁) v = codeFor (codesOf t₂) v) ∧
    headerBytes (assignCodes (codesOf t₁) t₁) = headerBytes (assignCodes (codesOf t₂) t₂) ∧
    ∀ ys, bodyCode (assignCodes (codesOf t₁) t₁) ys = bodyCode (assignCodes (codesOf t₂) t₂) ys

/-- 42_encoder.md R231: the codes of a table that holds one real symbol n times. -/
def Obligations.OneSymbolCodes : Prop :=
  ∀ (v : Sym) (n : Nat) (c : Bits), v.toNat < 0x110000 → 1 ≤ n →
    let codes := codesOf [⟨v, n, c⟩, sentinelEntry]
    (n = 1 → codeFor codes v = [false] ∧ codeFor codes 0x110000#21 = [true]) ∧
    (1 < n → codeFor codes v = [true] ∧ codeFor codes 0x110000#21 = [false])

/-! ### The encode commands (42_encoder.md) -/

/-- 42_encoder.md R221: ENC_BEGIN in IDLE or DEC_TAIL clears the table, the total and the writer, and nothing else changes. -/
def Obligations.EncBeginStartsCounting : Prop :=
  decode 0x10000000#32 = .ok .encBegin ∧ ∀ s : State, s.state = .idle ∨ s.state = .decTail →
    exec .encBegin s = .next { s with
      tab := [], total := 0, bwAcc := 0, bwCnt := 0, state := .encCount }

/-- 42_encoder.md R222, 30_encoding.md R112: a VAL that is no real symbol raises BAD_SYMBOL in both passes, before any
other check of ENC_SYM. -/
def Obligations.EncSymRejectsNonScalars : Prop :=
  ∀ (v : Val) (s : State), s.state = .encCount ∨ s.state = .encBody → notScalar v.toNat →
    exec (.encSym v) s = .next (raised .badSymbol s)

/-- 42_encoder.md R223, R224: the first pass counts a known symbol, adds a new one, or raises COUNT_OVERFLOW or
TABLE_FULL, in that order of checks; nothing but S.tab and S.total changes. -/
def Obligations.EncSymCountsInFirstPass : Prop :=
  ∀ (v : Val) (s : State), s.state = .encCount → ¬ notScalar v.toNat →
    let sym := BitVec.ofNat 21 v.toNat
    (s.total = 2 ^ s.params.countWidth - 2 → exec (.encSym v) s = .next (raised .countOverflow s)) ∧
    (s.total ≠ 2 ^ s.params.countWidth - 2 →
      (∀ pre e post, s.tab = pre ++ e :: post → e.sym = sym → (∀ x ∈ pre, x.sym ≠ sym) →
        exec (.encSym v) s = .next { s with
          tab := pre ++ { e with cnt := e.cnt + 1 } :: post, total := s.total + 1 }) ∧
      ((∀ x ∈ s.tab, x.sym ≠ sym) → s.nent = s.params.maxEntries - 1 →
        exec (.encSym v) s = .next (raised .tableFull s)) ∧
      ((∀ x ∈ s.tab, x.sym ≠ sym) → s.nent < s.params.maxEntries - 1 →
        exec (.encSym v) s = .next { s with
          tab := s.tab ++ [⟨sym, 1, []⟩], total := s.total + 1 }))

/-- 42_encoder.md R225, 41_bitstream.md R191: the second pass appends the symbol's code to the bits of the writer, emits each
byte that fills, and changes nothing else; a symbol with no entry raises UNKNOWN_SYMBOL. -/
def Obligations.EncSymWritesCodeInSecondPass : Prop :=
  ∀ (v : Val) (s : State), s.state = .encBody → ¬ notScalar v.toNat →
    let sym := BitVec.ofNat 21 v.toNat
    ((∀ x ∈ s.tab, x.sym ≠ sym) → exec (.encSym v) s = .next (raised .unknownSymbol s)) ∧
    ∀ e ∈ s.tab, e.sym = sym → DistinctSyms s.tab → WriterInv s → ∃ (bytes : List Byte) (acc : Byte) (n : Fin 8),
      exec (.encSym v) s = .next { s with
        rsp := s.rsp ++ bytes.map byteWord, bwAcc := acc, bwCnt := n } ∧
      bitsOf bytes ++ (readBits acc).take n.val = pending s ++ e.code

/-- 42_encoder.md R226: ENC_BUILD appends the sentinel's entry, stores the codes and emits the header, or raises
CODE_TOO_LONG before any header byte. -/
def Obligations.EncBuildMakesCodesAndHeader : Prop :=
  decode 0x30000000#32 = .ok .encBuild ∧ ∀ s : State, s.state = .encCount → s.nent < s.params.maxEntries →
    let tab := s.tab ++ [sentinelEntry]
    let codes := codesOf tab
    let coded := tab.map fun e => { e with code := codeFor codes e.sym }
    ((∃ c ∈ codes, s.params.maxCodeLen < c.2.length) →
      exec .encBuild s = .next (raised .codeTooLong { s with tab := tab })) ∧
    ((∀ c ∈ codes, c.2.length ≤ s.params.maxCodeLen) →
      exec .encBuild s = .next { s with
        tab := coded, rsp := s.rsp ++ (headerBytes coded).map byteWord, bwAcc := 0, bwCnt := 0,
        state := .encBody })

/-- 42_encoder.md R227, 20_memory.md R85: the header lists the entries in ascending order of symbol, is as long as the rule
says, and ends in a space and the newline. -/
def Obligations.HeaderLayout : Prop :=
  ∀ tab : List Entry, ∃ es : List Entry, es.Perm tab ∧
    es.Pairwise (fun a b => a.sym.toNat ≤ b.sym.toNat) ∧
    headerBytes tab = (es.flatMap fun e => decimal e.sym.toNat ++ [0x20#8] ++
      e.code.map (fun b => if b then 0x31#8 else 0x30#8) ++ [0x20#8]) ++ [0x0A#8] ∧
    (headerBytes tab).length =
      (tab.map fun e => (decimal e.sym.toNat).length + e.code.length + 2).sum + 1 ∧
    (tab ≠ [] → ∃ h, headerBytes tab = h ++ [0x20#8, 0x0A#8]) ∧
    ∀ b ∈ (headerBytes tab).dropLast, isDigitByte b ∨ b = 0x20#8

/-- 42_encoder.md R227: Dec(v) is the decimal numeral of v, most significant digit first, without leading zeros. -/
def Obligations.DecimalNumeral : Prop :=
  ∀ v : Nat, (∀ d ∈ decimal v, isDigitByte d) ∧ numeralValue (decimal v) = v ∧
    (v ≠ 0 → ∃ d ds, decimal v = d :: ds ∧ d ≠ 0x30#8) ∧ decimal 0 = [0x30#8]

/-- 42_encoder.md R228: ENC_END writes the sentinel's code, flushes, emits RSP_DONE enc and returns to IDLE, with at most
seven pad bits, all zero; nothing else changes. -/
def Obligations.EncEndTerminatesStream : Prop :=
  decode 0x40000000#32 = .ok .encEnd ∧ ∀ (s : State) (e : Entry), s.state = .encBody → e ∈ s.tab →
    e.sym = 0x110000#21 → DistinctSyms s.tab → WriterInv s → ∃ (bytes : List Byte) (pad : Nat), pad < 8 ∧
      exec .encEnd s = .next { s with
        rsp := s.rsp ++ bytes.map byteWord ++ [0x30000000#32], bwAcc := 0, bwCnt := 0, state := .idle } ∧
      bitsOf bytes = pending s ++ e.code ++ List.replicate pad false

/-- 42_encoder.md R229: the responses of a complete encode are the header's bytes, the packed body's bytes and RSP_DONE enc. -/
def Obligations.EncodeStreamIsHeaderThenBody : Prop :=
  ∀ (s t : State) (xs ys : List Val), Inv s → s.state = .idle ∨ s.state = .decTail →
    feed (encodeWords xs ys) s = .next t → t.state = .idle →
    ∃ (body : List Byte) (pad : Nat), pad < 8 ∧
      t.rsp = s.rsp ++ (headerBytes t.tab ++ body).map byteWord ++ [0x30000000#32] ∧
      bitsOf body = bodyCode t.tab ys ++ List.replicate pad false

/-- 40_tree_construction.md R150, R152: after pass 1 the table holds each symbol that occurs, with its count, in the order
of first occurrence, and S.total is the number of symbols. -/
def Obligations.FirstPassIsTheFrequencyTable : Prop :=
  ∀ (s t : State) (xs : List Val), s.state = .idle ∨ s.state = .decTail →
    feed (0x10000000#32 :: xs.map (fun x => encode (.encSym x))) s = .next t → t.state = .encCount →
    t.total = xs.length ∧ DistinctSyms t.tab ∧
    (∀ v : Sym, ((findSym v t.tab).map Entry.cnt).getD 0 = (xs.map symOfVal).count v) ∧
    t.tab.map Entry.sym = (xs.map symOfVal).reverse.dedup.reverse

/-- 40_tree_construction.md R151, R158: an empty input yields the header `1114112 0 ` with its newline and the body byte 0x00. -/
def Obligations.EmptyInputEncodes : Prop :=
  ∀ s : State, s.state = .idle ∨ s.state = .decTail → s.params.wf = true → ∃ t,
    feed (encodeWords [] []) s = .next t ∧ t.state = .idle ∧ t.err = s.err ∧
    t.tab = [⟨0x110000#21, 1, [false]⟩] ∧
    t.rsp = s.rsp ++ ([0x31, 0x31, 0x31, 0x34, 0x31, 0x31, 0x32, 0x20, 0x30, 0x20, 0x0A, 0x00] : List Byte).map
      byteWord ++ [0x30000000#32]

/-! ### The decode commands (43_decoder.md) -/

/-- 43_decoder.md R251: DEC_BEGIN in IDLE or DEC_TAIL clears the table, the parser and the candidate, and nothing else. -/
def Obligations.DecBeginStartsHeader : Prop :=
  decode 0x50000000#32 = .ok .decBegin ∧ ∀ s : State, s.state = .idle ∨ s.state = .decTail →
    exec .decBegin s = .next { s with
      tab := [], hpPhase := .symWait, hpVal := 0, hpNd := false, hpSym := 0, hpCode := [], hpLen := 0,
      hpBad := false, cand := [], state := .decHeader }

/-- 43_decoder.md R253: the class of every byte. -/
def Obligations.HeaderByteClasses : Prop :=
  ∀ c : Byte,
    (classify c = .digit ↔ isDigitByte c) ∧ (classify c = .nl ↔ c = 0x0A#8) ∧
    (classify c = .sep ↔ c ∈ sepBytes) ∧
    (classify c = .other ↔ ¬ isDigitByte c ∧ c ≠ 0x0A#8 ∧ c ∉ sepBytes)

/-- 43_decoder.md R254, the bytes that end no token: each phase and class, and what DEC_BYTE then writes. -/
def Obligations.HeaderBytesInsideTokens : Prop :=
  ∀ (c : Byte) (s : State), s.state = .decHeader →
    (s.hpPhase = .symWait ∨ s.hpPhase = .codeWait → c ∈ sepBytes → exec (.decByte c) s = .next s) ∧
    (s.hpPhase = .symWait → isDigitByte c → exec (.decByte c) s = .next { s with
      hpVal := c.toNat - 0x30, hpNd := false, hpPhase := .symIn }) ∧
    (s.hpPhase = .symWait → ¬ isDigitByte c → c ≠ 0x0A#8 → c ∉ sepBytes → exec (.decByte c) s = .next { s with
      hpVal := 0, hpNd := true, hpPhase := .symIn }) ∧
    (s.hpPhase = .symIn → isDigitByte c → exec (.decByte c) s = .next { s with
      hpVal := min (10 * s.hpVal + (c.toNat - 0x30)) 0x110001 }) ∧
    (s.hpPhase = .symIn → ¬ isDigitByte c → c ≠ 0x0A#8 → c ∉ sepBytes → exec (.decByte c) s = .next { s with
      hpNd := true }) ∧
    (s.hpPhase = .codeWait → 1 ≤ s.params.maxCodeLen → c = 0x30#8 ∨ c = 0x31#8 →
      exec (.decByte c) s = .next { s with
        hpPhase := .codeIn, hpBad := false, hpLen := 1, hpCode := [decide (c = 0x31#8)] }) ∧
    (s.hpPhase = .codeWait → c ≠ 0x30#8 → c ≠ 0x31#8 → c ≠ 0x0A#8 → c ∉ sepBytes →
      exec (.decByte c) s = .next { s with
        hpPhase := .codeIn, hpBad := true, hpLen := min 1 (s.params.maxCodeLen + 1), hpCode := [] }) ∧
    (s.hpPhase = .codeIn → c = 0x30#8 ∨ c = 0x31#8 → exec (.decByte c) s = .next { s with
      hpLen := longer s,
      hpCode := if s.hpLen < s.params.maxCodeLen then s.hpCode ++ [decide (c = 0x31#8)] else s.hpCode }) ∧
    (s.hpPhase = .codeIn → c ≠ 0x30#8 → c ≠ 0x31#8 → c ≠ 0x0A#8 → c ∉ sepBytes →
      exec (.decByte c) s = .next { s with hpBad := true, hpLen := longer s })

/-- 43_decoder.md R255, R254, 60_exceptions.md R329: the byte that ends a symbol token gives FMT_NONINT_SYMBOL, then
FMT_SYMBOL_RANGE, then at the newline FMT_ODD_TOKENS; else the symbol is kept and its code awaited. -/
def Obligations.SymbolTokenVerdict : Prop :=
  ∀ (c : Byte) (s : State), s.state = .decHeader → s.hpPhase = .symIn → c = 0x0A#8 ∨ c ∈ sepBytes →
    let kept := { s with hpSym := BitVec.ofNat 21 s.hpVal, hpPhase := HpPhase.codeWait }
    let legal := ¬ notScalar s.hpVal ∨ s.hpVal = 0x110000
    (s.hpNd = true → exec (.decByte c) s = .next (raised .fmtNonintSymbol s)) ∧
    (s.hpNd = false → ¬ legal → exec (.decByte c) s = .next (raised .fmtSymbolRange s)) ∧
    (s.hpNd = false → legal → c = 0x0A#8 → exec (.decByte c) s = .next (raised .fmtOddTokens kept)) ∧
    (s.hpNd = false → legal → c ≠ 0x0A#8 → exec (.decByte c) s = .next kept)

/-- 43_decoder.md R256, R257, 60_exceptions.md R329: the byte that ends a code token gives FMT_BAD_CODE, FMT_CODE_TOO_LONG,
FMT_DUP_CODE, then FMT_TABLE_FULL; else the entry is added, and a newline enters the body. -/
def Obligations.CodeTokenVerdict : Prop :=
  ∀ (c : Byte) (s : State), s.state = .decHeader → s.hpPhase = .codeIn → c = 0x0A#8 ∨ c ∈ sepBytes →
    let dup := ∃ e ∈ s.tab, e.code = s.hpCode
    let added := { s with tab := s.tab ++ [⟨s.hpSym, 0, s.hpCode⟩], hpPhase := HpPhase.symWait }
    (s.hpBad = true → exec (.decByte c) s = .next (raised .fmtBadCode s)) ∧
    (s.hpBad = false → s.params.maxCodeLen < s.hpLen →
      exec (.decByte c) s = .next (raised .fmtCodeTooLong s)) ∧
    (s.hpBad = false → s.hpLen ≤ s.params.maxCodeLen → dup →
      exec (.decByte c) s = .next (raised .fmtDupCode s)) ∧
    (s.hpBad = false → s.hpLen ≤ s.params.maxCodeLen → ¬ dup → s.nent = s.params.maxEntries →
      exec (.decByte c) s = .next (raised .fmtTableFull s)) ∧
    (s.hpBad = false → s.hpLen ≤ s.params.maxCodeLen → ¬ dup → s.nent < s.params.maxEntries →
      exec (.decByte c) s = .next (if c = 0x0A#8 then { added with cand := [], state := .decBody } else added))

/-- 43_decoder.md R254, R258: a newline between pairs ends the header, whatever the table holds; one before a code is
FMT_ODD_TOKENS. -/
def Obligations.NewlineBetweenTokens : Prop :=
  ∀ s : State, s.state = .decHeader →
    (s.hpPhase = .symWait → exec (.decByte 0x0A#8) s = .next { s with cand := [], state := .decBody }) ∧
    (s.hpPhase = .codeWait → exec (.decByte 0x0A#8) s = .next (raised .fmtOddTokens s))

/-- 43_decoder.md R254: a run of digits leaves the value of its numeral, saturated at SENTINEL + 1, however long it is. -/
def Obligations.SymbolNumeralSaturates : Prop :=
  ∀ (ds : List Byte) (s : State), ds ≠ [] → (∀ d ∈ ds, isDigitByte d) → s.state = .decHeader →
    s.hpPhase = .symWait →
    feed (ds.map fun d => encode (.decByte d)) s = .next { s with
      hpVal := min (numeralValue ds) 0x110001, hpNd := false, hpPhase := .symIn, ci := s.ci + ds.length }

/-- 43_decoder.md R253 to R258 with 42_encoder.md R227: the header the encoder writes for a table parses to that table, in
ascending order of symbol, and enters the body with no response. -/
def Obligations.HeaderParsesBack : Prop :=
  ∀ (tab : List Entry) (s : State), s.state = .decHeader → s.hpPhase = .symWait → s.tab = [] →
    tab.length ≤ s.params.maxEntries → DistinctCodes tab →
    (∀ e ∈ tab, isHeaderSymbol e.sym.toNat = true ∧ 1 ≤ e.code.length ∧
      e.code.length ≤ s.params.maxCodeLen) →
    ∃ u, feed ((headerBytes tab).map fun b => encode (.decByte b)) s = .next u ∧ u.state = .decBody ∧
      u.cand = [] ∧ u.rsp = s.rsp ∧ u.err = s.err ∧
      u.tab = (bySymbol tab).map fun e => { e with cnt := 0 }

/-- 43_decoder.md R259, R261, R197, of any table, prefix-free or not (R258): a body byte is cut at the first, shortest, matches;
the symbol of each is emitted in order, and what is left is the candidate. After the sentinel's code the rest of the byte
changes nothing; that the candidate then holds that code is R259's reading, notes/assumptions/14.md. -/
def Obligations.BodyByteMatchesGreedily : Prop :=
  ∀ (b : Byte) (s : State) (es : List Entry) (rest : Bits), s.state = .decBody → matchedInOrder s es →
    (s.cand ++ readBits b = es.flatMap Entry.code ++ rest → noMatch s (candAfter s es) rest →
      rest.length < s.params.maxCodeLen →
      exec (.decByte b) s = .next { s with
        rsp := s.rsp ++ es.map (fun e => symWord e.sym), cand := rest }) ∧
    ∀ e, e.sym = 0x110000#21 → firstMatch s (candAfter s es) e →
      s.cand ++ readBits b = es.flatMap Entry.code ++ e.code ++ rest →
      exec (.decByte b) s = .next { s with
        rsp := s.rsp ++ es.map (fun e => symWord e.sym) ++ [0x30000001#32], cand := e.code, state := .decTail }

/-- 43_decoder.md R260, R250, 60_exceptions.md R328: a candidate of MAX_CODE_LEN bits with no match raises BODY_NO_MATCH at the
bit that fills it; the symbols whose codes the byte's bits before it complete have been emitted. -/
def Obligations.BodyNoMatchAtTheLimit : Prop :=
  ∀ (b : Byte) (s : State) (es : List Entry) (u v : Bits), s.state = .decBody → matchedInOrder s es →
    s.cand ++ readBits b = es.flatMap Entry.code ++ u ++ v → u.length = s.params.maxCodeLen →
    (candAfter s es).length < u.length → noMatch s (candAfter s es) u →
    exec (.decByte b) s = .next (raised .bodyNoMatch { s with
      rsp := s.rsp ++ es.map (fun e => symWord e.sym), cand := u })

/-- 43_decoder.md R262, R263: after the sentinel a byte has no effect and DEC_END returns to IDLE; before it DEC_END raises
FMT_HEADER_EOF or BODY_TRUNCATED. -/
def Obligations.EndOfDecode : Prop :=
  decode 0x70000000#32 = .ok .decEnd ∧ ∀ s : State,
    (s.state = .decTail → (∀ b, exec (.decByte b) s = .next s) ∧ exec .decEnd s = .next { s with state := .idle }) ∧
    (s.state = .decHeader → exec .decEnd s = .next (raised .fmtHeaderEof s)) ∧
    (s.state = .decBody → exec .decEnd s = .next (raised .bodyTruncated s))

/-- 42_encoder.md R230: what a complete encode of the pass-2 sequence emits decodes to that sequence and RSP_DONE dec, with
no error. -/
def Obligations.DecodeOfEncodeIsTheInput : Prop :=
  ∀ (s t : State) (xs ys : List Val) (bytes : List Byte), Inv s → s.state = .idle ∨ s.state = .decTail →
    feed (encodeWords xs ys) s = .next t → t.state = .idle →
    t.rsp = s.rsp ++ bytes.map byteWord ++ [0x30000000#32] →
    ∃ u, feed (decodeWords bytes) t = .next u ∧ u.state = .idle ∧ u.err = .none ∧
      u.rsp = t.rsp ++ ys.map (fun y => symWord (BitVec.ofNat 21 y.toNat)) ++ [0x30000001#32]

/-! ### Frames of all commands -/

/-- 10_state.md R33, R44, 20_memory.md R80: what each family of commands leaves alone. -/
def Obligations.FamilyFrames : Prop :=
  ∀ (i : Instr) (s t : State), exec i s = .next t →
    (t.params = s.params ∧ t.ci = s.ci ∧ t.cmds = s.cmds ∧ t.acts = s.acts ∧ t.received = s.received) ∧
    (i ∈ [.encBegin, .encBuild, .encEnd] ∨ (∃ v, i = .encSym v) →
      t.hpPhase = s.hpPhase ∧ t.hpVal = s.hpVal ∧ t.hpNd = s.hpNd ∧ t.hpSym = s.hpSym ∧
      t.hpCode = s.hpCode ∧ t.hpLen = s.hpLen ∧ t.hpBad = s.hpBad ∧ t.cand = s.cand) ∧
    (i ∈ [.decBegin, .decEnd] ∨ (∃ b, i = .decByte b) →
      t.total = s.total ∧ t.bwAcc = s.bwAcc ∧ t.bwCnt = s.bwCnt) ∧
    (i ∈ [.nop, .getStatus, .encEnd, .decEnd] ∨ ((∃ v, i = .encSym v) ∧ s.state ≠ .encCount) ∨
        ((∃ b, i = .decByte b) ∧ s.state ≠ .decHeader) → t.tab = s.tab)

/-- 10_state.md R44, 70_reset_and_hazards.md R371: a command only appends to S.rsp, and neither what it appends nor what it
does depends on the words that wait there, on RSP_FIFO_DEPTH or on the host. -/
def Obligations.ResponsesOnlyAppended : Prop :=
  ∀ (w : Word) (s t : State), acceptWord w s = .next t → ∃ out, t.rsp = s.rsp ++ out ∧
    ∀ (r : List Word) (d : Nat) (cs : List Word) (as : List HostAct) (g : List Word),
      acceptWord w { s with
        rsp := r, params := { s.params with rspFifoDepth := d }, cmds := cs, acts := as, received := g } =
      .next { t with
        rsp := r ++ out, params := { s.params with rspFifoDepth := d }, cmds := cs, acts := as, received := g }

/-- 10_state.md R31: every accepted word advances CI by exactly 1, whatever it is and whatever it does. -/
def Obligations.EveryAcceptedWordAdvancesCi : Prop :=
  ∀ (w : Word) (s t : State), acceptWord w s = .next t → t.ci = s.ci + 1

/-! ### Reset, ports and the step (70_reset_and_hazards.md, 10_state.md) -/

/-- 10_state.md R46: the state after reset. That its parameters are the defaults of 00_scope.md R9 is the model's choice of the
machine State.reset stands for (notes/assumptions/1.md). -/
def Obligations.ResetValues : Prop :=
  let s := State.reset
  s.state = .idle ∧ s.err = .none ∧ s.nent = 0 ∧ s.total = 0 ∧ s.bwAcc = 0 ∧ s.bwCnt = 0 ∧
  s.hpPhase = .symWait ∧ s.hpVal = 0 ∧ s.hpNd = false ∧ s.hpSym = 0 ∧ s.hpCode = [] ∧ s.hpLen = 0 ∧
  s.hpBad = false ∧ s.cand = [] ∧ s.rsp = [] ∧ s.ci = 0 ∧ errO s = false ∧ idleO s = true ∧
  s.params = ⟨4096, 64, 32, 16⟩

/-- 70_reset_and_hazards.md R360: an edge with `rst` high gives every field its reset value, from any state; the host keeps
its own. -/
def Obligations.ResetEdgeFromAnyState : Prop :=
  ∀ (s : State) (as : List HostAct), s.acts = .reset :: as →
    step s = .next { State.resetWith s.params with cmds := s.cmds, acts := as, received := s.received } ∧
    cmdReady true s = false ∧ rspValid true s = false

/-- 70_reset_and_hazards.md R366, 20_memory.md R88: the front word leaves S.rsp at an edge where the host takes it, in order,
and nothing else of the engine changes. -/
def Obligations.ResponseHandshake : Prop :=
  ∀ (s : State) (as : List HostAct), s.acts = .take :: as →
    (s.rsp = [] → rspValid false s = false ∧ step s = .next { s with acts := as }) ∧
    (∀ w ws, s.rsp = w :: ws → rspValid false s = true ∧ rspData s = some w ∧
      step s = .next { s with acts := as, rsp := ws, received := s.received ++ [w] }) ∧
    (fifo s).length ≤ s.params.rspFifoDepth

/-- 70_reset_and_hazards.md R365: while the engine is ready, an offered word is accepted, and the step runs the command it
decodes to, with CI advanced; an illegal word is dealt with in its place. -/
def Obligations.StepRunsTheDecodedCommand : Prop :=
  ∀ (s : State) (w : Word) (ws : List Word), s.cmds = w :: ws → s.rsp.length ≤ s.params.rspFifoDepth →
    (∀ i, decode w = .ok i →
      (s.acts = [] → step s = exec i { s with cmds := ws, ci := s.ci + 1 }) ∧
      ∀ as, s.acts = .command :: as → step s = exec i { s with acts := as, cmds := ws, ci := s.ci + 1 }) ∧
    (∀ e, decode w = .error e →
      (s.acts = [] → step s = execIllegal { s with cmds := ws, ci := s.ci + 1 }) ∧
      ∀ as, s.acts = .command :: as → step s = execIllegal { s with acts := as, cmds := ws, ci := s.ci + 1 })

/-- 70_reset_and_hazards.md R365, R367, 93_implementation_defined.md U11: while the response FIFO lacks room, and while
nothing is offered, no command is accepted and the engine stays as it is; with no host act left it stays so for ever. -/
def Obligations.StalledEngineWaits : Prop :=
  ∀ s : State, s.params.rspFifoDepth < s.rsp.length ∨ s.cmds = [] →
    (s.acts = [] → ∀ n, Sys2Proof.core.run n s = .next s) ∧
    ∀ as, s.acts = .command :: as → step s = .next { s with acts := as }

/-- The placing of a word for the next step (notes/assumptions/5.md, the model's own): from every state the next step runs
exactly the command the decoder reads from it. -/
def Obligations.FetchWordRunsNext : Prop :=
  ∀ (s : State) (w : Word) (i : Instr), decode w = .ok i → ∃ r g,
    step (s.withFetchWord 32 w.toNat) = exec i { s with rsp := r, received := g, ci := s.ci + 1 } ∧
    g ++ r = s.received ++ s.rsp ∧ (s.rsp.length ≤ s.params.rspFifoDepth → r = s.rsp)

/-- 70_reset_and_hazards.md R361, 93_implementation_defined.md U4: when a reset comes after the host has taken j response
words, the host has exactly those, and the rest and the command's effects are gone, for every j. That the parameters, the
host's offered words and its plan stay is the model's choice (notes/assumptions/4.md, notes/assumptions/6.md). -/
def Obligations.ResetBetweenResponses : Prop :=
  ∀ (s : State) (j : Nat) (as : List HostAct), j ≤ s.rsp.length →
    s.acts = List.replicate j .take ++ .reset :: as →
    Sys2Proof.core.run (j + 1) s = .next { State.resetWith s.params with
      cmds := s.cmds, acts := as, received := s.received ++ s.rsp.take j }

/-- 70_reset_and_hazards.md R371, R372: with the same commands and no reset, when all are accepted the engine is in the same
state and has emitted the same response stream, however the host schedules its taking and whatever the FIFO's depth. -/
def Obligations.ScheduleDoesNotChangeResponses : Prop :=
  ∀ (s : State) (as bs : List HostAct) (d e m n : Nat) (t u : State), .reset ∉ as → .reset ∉ bs →
    Sys2Proof.core.run m { s with acts := as, params := { s.params with rspFifoDepth := d } } = .next t →
    Sys2Proof.core.run n { s with acts := bs, params := { s.params with rspFifoDepth := e } } = .next u →
    t.cmds = [] → u.cmds = [] →
    sameEngine t u ∧ t.received ++ t.rsp = u.received ++ u.rsp

/-- 10_state.md R45, 70_reset_and_hazards.md R364 to R366: the output levels. That the words of S.rsp beyond RSP_FIFO_DEPTH are
those a stalled command waits to emit, on which cmd_ready and a stalled engine's err_o and idle_o rest, is the model's
(notes/assumptions/3.md): err_o is high in ERROR from the `raise` on, when at most the RSP_ERR still waits, since that is the
last word of the command that raises (60_exceptions.md R324); it falls only through ABORT or reset (R331). -/
def Obligations.OutputLevels : Prop :=
  ∀ s : State, (errO s = true ↔ s.state = .error ∧ s.rsp.length ≤ s.params.rspFifoDepth + 1) ∧
    (idleO s = true ↔ s.state = .idle ∧ s.rsp = []) ∧
    (rspValid false s = true ↔ s.rsp ≠ []) ∧
    (cmdReady false s = true ↔ s.rsp.length ≤ s.params.rspFifoDepth) ∧
    fifo s ++ s.rsp.drop s.params.rspFifoDepth = s.rsp ∧
    (∀ w t, s.state ≠ .error → acceptWord w s = .next t → t.state = .error →
      ∃ out, t.rsp = s.rsp ++ out ++ [errWord t.err.code]) ∧
    ∀ t, step s = .next t → errO s = true → errO t = false →
      s.acts.head? = some .reset ∨ (s.acts.head? ≠ some .take ∧ s.cmds.head? = some 0xE0000000#32)

/-- 10_state.md R35 to R41, 20_memory.md R80, 30_encoding.md R115: from every state that meets the invariant a step answers a
next state, and that state meets it: no table index is out of range, no command stops. -/
def Obligations.StepKeepsTheInvariant : Prop :=
  ∀ s : State, Inv s → ∃ t, step s = .next t ∧ Inv t

/-- The invariant holds after reset, for every legal choice of parameters (00_scope.md R9, 10_state.md R46). -/
def Obligations.ResetMeetsTheInvariant : Prop :=
  ∀ p : Params, p.wf = true → Inv (State.resetWith p)
end

