-- ==== Sys2Proof/Laws/State.lean ====
section
/-! SUPPORT. The named updates of State, field by field: one lemma for each field of each update, so that no proof unfolds a
record update. -/

namespace Sys2Proof.Machine

/-! ### emitAll -/

@[simp] theorem emitAll_params (ws : List Word) (s : State) : (emitAll ws s).params = s.params := rfl
@[simp] theorem emitAll_state (ws : List Word) (s : State) : (emitAll ws s).state = s.state := rfl
@[simp] theorem emitAll_err (ws : List Word) (s : State) : (emitAll ws s).err = s.err := rfl
@[simp] theorem emitAll_tab (ws : List Word) (s : State) : (emitAll ws s).tab = s.tab := rfl
@[simp] theorem emitAll_total (ws : List Word) (s : State) : (emitAll ws s).total = s.total := rfl
@[simp] theorem emitAll_bwAcc (ws : List Word) (s : State) : (emitAll ws s).bwAcc = s.bwAcc := rfl
@[simp] theorem emitAll_bwCnt (ws : List Word) (s : State) : (emitAll ws s).bwCnt = s.bwCnt := rfl
@[simp] theorem emitAll_hpPhase (ws : List Word) (s : State) : (emitAll ws s).hpPhase = s.hpPhase := rfl
@[simp] theorem emitAll_hpVal (ws : List Word) (s : State) : (emitAll ws s).hpVal = s.hpVal := rfl
@[simp] theorem emitAll_hpNd (ws : List Word) (s : State) : (emitAll ws s).hpNd = s.hpNd := rfl
@[simp] theorem emitAll_hpSym (ws : List Word) (s : State) : (emitAll ws s).hpSym = s.hpSym := rfl
@[simp] theorem emitAll_hpCode (ws : List Word) (s : State) : (emitAll ws s).hpCode = s.hpCode := rfl
@[simp] theorem emitAll_hpLen (ws : List Word) (s : State) : (emitAll ws s).hpLen = s.hpLen := rfl
@[simp] theorem emitAll_hpBad (ws : List Word) (s : State) : (emitAll ws s).hpBad = s.hpBad := rfl
@[simp] theorem emitAll_cand (ws : List Word) (s : State) : (emitAll ws s).cand = s.cand := rfl
@[simp] theorem emitAll_rsp (ws : List Word) (s : State) : (emitAll ws s).rsp = s.rsp ++ ws := rfl
@[simp] theorem emitAll_ci (ws : List Word) (s : State) : (emitAll ws s).ci = s.ci := rfl
@[simp] theorem emitAll_cmds (ws : List Word) (s : State) : (emitAll ws s).cmds = s.cmds := rfl
@[simp] theorem emitAll_acts (ws : List Word) (s : State) : (emitAll ws s).acts = s.acts := rfl
@[simp] theorem emitAll_received (ws : List Word) (s : State) : (emitAll ws s).received = s.received := rfl

/-! ### emit -/

@[simp] theorem emit_params (r : Response) (s : State) : (emit r s).params = s.params := rfl
@[simp] theorem emit_state (r : Response) (s : State) : (emit r s).state = s.state := rfl
@[simp] theorem emit_err (r : Response) (s : State) : (emit r s).err = s.err := rfl
@[simp] theorem emit_tab (r : Response) (s : State) : (emit r s).tab = s.tab := rfl
@[simp] theorem emit_total (r : Response) (s : State) : (emit r s).total = s.total := rfl
@[simp] theorem emit_bwAcc (r : Response) (s : State) : (emit r s).bwAcc = s.bwAcc := rfl
@[simp] theorem emit_bwCnt (r : Response) (s : State) : (emit r s).bwCnt = s.bwCnt := rfl
@[simp] theorem emit_hpPhase (r : Response) (s : State) : (emit r s).hpPhase = s.hpPhase := rfl
@[simp] theorem emit_hpVal (r : Response) (s : State) : (emit r s).hpVal = s.hpVal := rfl
@[simp] theorem emit_hpNd (r : Response) (s : State) : (emit r s).hpNd = s.hpNd := rfl
@[simp] theorem emit_hpSym (r : Response) (s : State) : (emit r s).hpSym = s.hpSym := rfl
@[simp] theorem emit_hpCode (r : Response) (s : State) : (emit r s).hpCode = s.hpCode := rfl
@[simp] theorem emit_hpLen (r : Response) (s : State) : (emit r s).hpLen = s.hpLen := rfl
@[simp] theorem emit_hpBad (r : Response) (s : State) : (emit r s).hpBad = s.hpBad := rfl
@[simp] theorem emit_cand (r : Response) (s : State) : (emit r s).cand = s.cand := rfl
@[simp] theorem emit_rsp (r : Response) (s : State) : (emit r s).rsp = s.rsp ++ [r.word] := rfl
@[simp] theorem emit_ci (r : Response) (s : State) : (emit r s).ci = s.ci := rfl
@[simp] theorem emit_cmds (r : Response) (s : State) : (emit r s).cmds = s.cmds := rfl
@[simp] theorem emit_acts (r : Response) (s : State) : (emit r s).acts = s.acts := rfl
@[simp] theorem emit_received (r : Response) (s : State) : (emit r s).received = s.received := rfl

/-! ### raise -/

@[simp] theorem raise_params (e : Err) (s : State) : (raise e s).params = s.params := rfl
@[simp] theorem raise_state (e : Err) (s : State) : (raise e s).state = .error := rfl
@[simp] theorem raise_err (e : Err) (s : State) : (raise e s).err = e := rfl
@[simp] theorem raise_tab (e : Err) (s : State) : (raise e s).tab = s.tab := rfl
@[simp] theorem raise_total (e : Err) (s : State) : (raise e s).total = s.total := rfl
@[simp] theorem raise_bwAcc (e : Err) (s : State) : (raise e s).bwAcc = s.bwAcc := rfl
@[simp] theorem raise_bwCnt (e : Err) (s : State) : (raise e s).bwCnt = s.bwCnt := rfl
@[simp] theorem raise_hpPhase (e : Err) (s : State) : (raise e s).hpPhase = s.hpPhase := rfl
@[simp] theorem raise_hpVal (e : Err) (s : State) : (raise e s).hpVal = s.hpVal := rfl
@[simp] theorem raise_hpNd (e : Err) (s : State) : (raise e s).hpNd = s.hpNd := rfl
@[simp] theorem raise_hpSym (e : Err) (s : State) : (raise e s).hpSym = s.hpSym := rfl
@[simp] theorem raise_hpCode (e : Err) (s : State) : (raise e s).hpCode = s.hpCode := rfl
@[simp] theorem raise_hpLen (e : Err) (s : State) : (raise e s).hpLen = s.hpLen := rfl
@[simp] theorem raise_hpBad (e : Err) (s : State) : (raise e s).hpBad = s.hpBad := rfl
@[simp] theorem raise_cand (e : Err) (s : State) : (raise e s).cand = s.cand := rfl
@[simp] theorem raise_rsp (e : Err) (s : State) : (raise e s).rsp = s.rsp ++ [(Response.err e).word] := rfl
@[simp] theorem raise_ci (e : Err) (s : State) : (raise e s).ci = s.ci := rfl
@[simp] theorem raise_cmds (e : Err) (s : State) : (raise e s).cmds = s.cmds := rfl
@[simp] theorem raise_acts (e : Err) (s : State) : (raise e s).acts = s.acts := rfl
@[simp] theorem raise_received (e : Err) (s : State) : (raise e s).received = s.received := rfl

/-! ### clearWriter -/

@[simp] theorem clearWriter_params (s : State) : (clearWriter s).params = s.params := rfl
@[simp] theorem clearWriter_state (s : State) : (clearWriter s).state = s.state := rfl
@[simp] theorem clearWriter_err (s : State) : (clearWriter s).err = s.err := rfl
@[simp] theorem clearWriter_tab (s : State) : (clearWriter s).tab = s.tab := rfl
@[simp] theorem clearWriter_total (s : State) : (clearWriter s).total = s.total := rfl
@[simp] theorem clearWriter_bwAcc (s : State) : (clearWriter s).bwAcc = 0 := rfl
@[simp] theorem clearWriter_bwCnt (s : State) : (clearWriter s).bwCnt = 0 := rfl
@[simp] theorem clearWriter_hpPhase (s : State) : (clearWriter s).hpPhase = s.hpPhase := rfl
@[simp] theorem clearWriter_hpVal (s : State) : (clearWriter s).hpVal = s.hpVal := rfl
@[simp] theorem clearWriter_hpNd (s : State) : (clearWriter s).hpNd = s.hpNd := rfl
@[simp] theorem clearWriter_hpSym (s : State) : (clearWriter s).hpSym = s.hpSym := rfl
@[simp] theorem clearWriter_hpCode (s : State) : (clearWriter s).hpCode = s.hpCode := rfl
@[simp] theorem clearWriter_hpLen (s : State) : (clearWriter s).hpLen = s.hpLen := rfl
@[simp] theorem clearWriter_hpBad (s : State) : (clearWriter s).hpBad = s.hpBad := rfl
@[simp] theorem clearWriter_cand (s : State) : (clearWriter s).cand = s.cand := rfl
@[simp] theorem clearWriter_rsp (s : State) : (clearWriter s).rsp = s.rsp := rfl
@[simp] theorem clearWriter_ci (s : State) : (clearWriter s).ci = s.ci := rfl
@[simp] theorem clearWriter_cmds (s : State) : (clearWriter s).cmds = s.cmds := rfl
@[simp] theorem clearWriter_acts (s : State) : (clearWriter s).acts = s.acts := rfl
@[simp] theorem clearWriter_received (s : State) : (clearWriter s).received = s.received := rfl

/-! ### endHeader -/

@[simp] theorem endHeader_params (s : State) : (endHeader s).params = s.params := rfl
@[simp] theorem endHeader_state (s : State) : (endHeader s).state = .decBody := rfl
@[simp] theorem endHeader_err (s : State) : (endHeader s).err = s.err := rfl
@[simp] theorem endHeader_tab (s : State) : (endHeader s).tab = s.tab := rfl
@[simp] theorem endHeader_total (s : State) : (endHeader s).total = s.total := rfl
@[simp] theorem endHeader_bwAcc (s : State) : (endHeader s).bwAcc = s.bwAcc := rfl
@[simp] theorem endHeader_bwCnt (s : State) : (endHeader s).bwCnt = s.bwCnt := rfl
@[simp] theorem endHeader_hpPhase (s : State) : (endHeader s).hpPhase = s.hpPhase := rfl
@[simp] theorem endHeader_hpVal (s : State) : (endHeader s).hpVal = s.hpVal := rfl
@[simp] theorem endHeader_hpNd (s : State) : (endHeader s).hpNd = s.hpNd := rfl
@[simp] theorem endHeader_hpSym (s : State) : (endHeader s).hpSym = s.hpSym := rfl
@[simp] theorem endHeader_hpCode (s : State) : (endHeader s).hpCode = s.hpCode := rfl
@[simp] theorem endHeader_hpLen (s : State) : (endHeader s).hpLen = s.hpLen := rfl
@[simp] theorem endHeader_hpBad (s : State) : (endHeader s).hpBad = s.hpBad := rfl
@[simp] theorem endHeader_cand (s : State) : (endHeader s).cand = [] := rfl
@[simp] theorem endHeader_rsp (s : State) : (endHeader s).rsp = s.rsp := rfl
@[simp] theorem endHeader_ci (s : State) : (endHeader s).ci = s.ci := rfl
@[simp] theorem endHeader_cmds (s : State) : (endHeader s).cmds = s.cmds := rfl
@[simp] theorem endHeader_acts (s : State) : (endHeader s).acts = s.acts := rfl
@[simp] theorem endHeader_received (s : State) : (endHeader s).received = s.received := rfl

/-! ### clearAll -/

@[simp] theorem clearAll_params (s : State) : (clearAll s).params = s.params := rfl
@[simp] theorem clearAll_state (s : State) : (clearAll s).state = .idle := rfl
@[simp] theorem clearAll_err (s : State) : (clearAll s).err = .none := rfl
@[simp] theorem clearAll_tab (s : State) : (clearAll s).tab = [] := rfl
@[simp] theorem clearAll_total (s : State) : (clearAll s).total = 0 := rfl
@[simp] theorem clearAll_bwAcc (s : State) : (clearAll s).bwAcc = 0 := rfl
@[simp] theorem clearAll_bwCnt (s : State) : (clearAll s).bwCnt = 0 := rfl
@[simp] theorem clearAll_hpPhase (s : State) : (clearAll s).hpPhase = .symWait := rfl
@[simp] theorem clearAll_hpVal (s : State) : (clearAll s).hpVal = 0 := rfl
@[simp] theorem clearAll_hpNd (s : State) : (clearAll s).hpNd = false := rfl
@[simp] theorem clearAll_hpSym (s : State) : (clearAll s).hpSym = 0 := rfl
@[simp] theorem clearAll_hpCode (s : State) : (clearAll s).hpCode = [] := rfl
@[simp] theorem clearAll_hpLen (s : State) : (clearAll s).hpLen = 0 := rfl
@[simp] theorem clearAll_hpBad (s : State) : (clearAll s).hpBad = false := rfl
@[simp] theorem clearAll_cand (s : State) : (clearAll s).cand = [] := rfl
@[simp] theorem clearAll_rsp (s : State) : (clearAll s).rsp = s.rsp := rfl
@[simp] theorem clearAll_ci (s : State) : (clearAll s).ci = s.ci := rfl
@[simp] theorem clearAll_cmds (s : State) : (clearAll s).cmds = s.cmds := rfl
@[simp] theorem clearAll_acts (s : State) : (clearAll s).acts = s.acts := rfl
@[simp] theorem clearAll_received (s : State) : (clearAll s).received = s.received := rfl

/-! ### resetEdge -/

@[simp] theorem resetEdge_params (s : State) : (resetEdge s).params = s.params := rfl
@[simp] theorem resetEdge_state (s : State) : (resetEdge s).state = .idle := rfl
@[simp] theorem resetEdge_err (s : State) : (resetEdge s).err = .none := rfl
@[simp] theorem resetEdge_tab (s : State) : (resetEdge s).tab = [] := rfl
@[simp] theorem resetEdge_total (s : State) : (resetEdge s).total = 0 := rfl
@[simp] theorem resetEdge_bwAcc (s : State) : (resetEdge s).bwAcc = 0 := rfl
@[simp] theorem resetEdge_bwCnt (s : State) : (resetEdge s).bwCnt = 0 := rfl
@[simp] theorem resetEdge_hpPhase (s : State) : (resetEdge s).hpPhase = .symWait := rfl
@[simp] theorem resetEdge_hpVal (s : State) : (resetEdge s).hpVal = 0 := rfl
@[simp] theorem resetEdge_hpNd (s : State) : (resetEdge s).hpNd = false := rfl
@[simp] theorem resetEdge_hpSym (s : State) : (resetEdge s).hpSym = 0 := rfl
@[simp] theorem resetEdge_hpCode (s : State) : (resetEdge s).hpCode = [] := rfl
@[simp] theorem resetEdge_hpLen (s : State) : (resetEdge s).hpLen = 0 := rfl
@[simp] theorem resetEdge_hpBad (s : State) : (resetEdge s).hpBad = false := rfl
@[simp] theorem resetEdge_cand (s : State) : (resetEdge s).cand = [] := rfl
@[simp] theorem resetEdge_rsp (s : State) : (resetEdge s).rsp = [] := rfl
@[simp] theorem resetEdge_ci (s : State) : (resetEdge s).ci = 0 := rfl
@[simp] theorem resetEdge_cmds (s : State) : (resetEdge s).cmds = s.cmds := rfl
@[simp] theorem resetEdge_acts (s : State) : (resetEdge s).acts = s.acts := rfl
@[simp] theorem resetEdge_received (s : State) : (resetEdge s).received = s.received := rfl

/-! ### writeBit: what it leaves alone -/

@[simp] theorem writeBit_params (b : Bool) (s : State) : (writeBit b s).params = s.params := by unfold writeBit; split <;> rfl
@[simp] theorem writeBit_state (b : Bool) (s : State) : (writeBit b s).state = s.state := by unfold writeBit; split <;> rfl
@[simp] theorem writeBit_err (b : Bool) (s : State) : (writeBit b s).err = s.err := by unfold writeBit; split <;> rfl
@[simp] theorem writeBit_tab (b : Bool) (s : State) : (writeBit b s).tab = s.tab := by unfold writeBit; split <;> rfl
@[simp] theorem writeBit_total (b : Bool) (s : State) : (writeBit b s).total = s.total := by unfold writeBit; split <;> rfl
@[simp] theorem writeBit_hpPhase (b : Bool) (s : State) : (writeBit b s).hpPhase = s.hpPhase := by unfold writeBit; split <;> rfl
@[simp] theorem writeBit_hpVal (b : Bool) (s : State) : (writeBit b s).hpVal = s.hpVal := by unfold writeBit; split <;> rfl
@[simp] theorem writeBit_hpNd (b : Bool) (s : State) : (writeBit b s).hpNd = s.hpNd := by unfold writeBit; split <;> rfl
@[simp] theorem writeBit_hpSym (b : Bool) (s : State) : (writeBit b s).hpSym = s.hpSym := by unfold writeBit; split <;> rfl
@[simp] theorem writeBit_hpCode (b : Bool) (s : State) : (writeBit b s).hpCode = s.hpCode := by unfold writeBit; split <;> rfl
@[simp] theorem writeBit_hpLen (b : Bool) (s : State) : (writeBit b s).hpLen = s.hpLen := by unfold writeBit; split <;> rfl
@[simp] theorem writeBit_hpBad (b : Bool) (s : State) : (writeBit b s).hpBad = s.hpBad := by unfold writeBit; split <;> rfl
@[simp] theorem writeBit_cand (b : Bool) (s : State) : (writeBit b s).cand = s.cand := by unfold writeBit; split <;> rfl
@[simp] theorem writeBit_ci (b : Bool) (s : State) : (writeBit b s).ci = s.ci := by unfold writeBit; split <;> rfl
@[simp] theorem writeBit_cmds (b : Bool) (s : State) : (writeBit b s).cmds = s.cmds := by unfold writeBit; split <;> rfl
@[simp] theorem writeBit_acts (b : Bool) (s : State) : (writeBit b s).acts = s.acts := by unfold writeBit; split <;> rfl
@[simp] theorem writeBit_received (b : Bool) (s : State) : (writeBit b s).received = s.received := by unfold writeBit; split <;> rfl

/-! ### writeCode: what it leaves alone -/

@[simp] theorem writeCode_params (c : Bits) (s : State) : (writeCode c s).params = s.params := by
  induction c generalizing s with
  | nil => rfl
  | cons b c ih => exact (ih (writeBit b s)).trans (writeBit_params b s)
@[simp] theorem writeCode_state (c : Bits) (s : State) : (writeCode c s).state = s.state := by
  induction c generalizing s with
  | nil => rfl
  | cons b c ih => exact (ih (writeBit b s)).trans (writeBit_state b s)
@[simp] theorem writeCode_err (c : Bits) (s : State) : (writeCode c s).err = s.err := by
  induction c generalizing s with
  | nil => rfl
  | cons b c ih => exact (ih (writeBit b s)).trans (writeBit_err b s)
@[simp] theorem writeCode_tab (c : Bits) (s : State) : (writeCode c s).tab = s.tab := by
  induction c generalizing s with
  | nil => rfl
  | cons b c ih => exact (ih (writeBit b s)).trans (writeBit_tab b s)
@[simp] theorem writeCode_total (c : Bits) (s : State) : (writeCode c s).total = s.total := by
  induction c generalizing s with
  | nil => rfl
  | cons b c ih => exact (ih (writeBit b s)).trans (writeBit_total b s)
@[simp] theorem writeCode_hpPhase (c : Bits) (s : State) : (writeCode c s).hpPhase = s.hpPhase := by
  induction c generalizing s with
  | nil => rfl
  | cons b c ih => exact (ih (writeBit b s)).trans (writeBit_hpPhase b s)
@[simp] theorem writeCode_hpVal (c : Bits) (s : State) : (writeCode c s).hpVal = s.hpVal := by
  induction c generalizing s with
  | nil => rfl
  | cons b c ih => exact (ih (writeBit b s)).trans (writeBit_hpVal b s)
@[simp] theorem writeCode_hpNd (c : Bits) (s : State) : (writeCode c s).hpNd = s.hpNd := by
  induction c generalizing s with
  | nil => rfl
  | cons b c ih => exact (ih (writeBit b s)).trans (writeBit_hpNd b s)
@[simp] theorem writeCode_hpSym (c : Bits) (s : State) : (writeCode c s).hpSym = s.hpSym := by
  induction c generalizing s with
  | nil => rfl
  | cons b c ih => exact (ih (writeBit b s)).trans (writeBit_hpSym b s)
@[simp] theorem writeCode_hpCode (c : Bits) (s : State) : (writeCode c s).hpCode = s.hpCode := by
  induction c generalizing s with
  | nil => rfl
  | cons b c ih => exact (ih (writeBit b s)).trans (writeBit_hpCode b s)
@[simp] theorem writeCode_hpLen (c : Bits) (s : State) : (writeCode c s).hpLen = s.hpLen := by
  induction c generalizing s with
  | nil => rfl
  | cons b c ih => exact (ih (writeBit b s)).trans (writeBit_hpLen b s)
@[simp] theorem writeCode_hpBad (c : Bits) (s : State) : (writeCode c s).hpBad = s.hpBad := by
  induction c generalizing s with
  | nil => rfl
  | cons b c ih => exact (ih (writeBit b s)).trans (writeBit_hpBad b s)
@[simp] theorem writeCode_cand (c : Bits) (s : State) : (writeCode c s).cand = s.cand := by
  induction c generalizing s with
  | nil => rfl
  | cons b c ih => exact (ih (writeBit b s)).trans (writeBit_cand b s)
@[simp] theorem writeCode_ci (c : Bits) (s : State) : (writeCode c s).ci = s.ci := by
  induction c generalizing s with
  | nil => rfl
  | cons b c ih => exact (ih (writeBit b s)).trans (writeBit_ci b s)
@[simp] theorem writeCode_cmds (c : Bits) (s : State) : (writeCode c s).cmds = s.cmds := by
  induction c generalizing s with
  | nil => rfl
  | cons b c ih => exact (ih (writeBit b s)).trans (writeBit_cmds b s)
@[simp] theorem writeCode_acts (c : Bits) (s : State) : (writeCode c s).acts = s.acts := by
  induction c generalizing s with
  | nil => rfl
  | cons b c ih => exact (ih (writeBit b s)).trans (writeBit_acts b s)
@[simp] theorem writeCode_received (c : Bits) (s : State) : (writeCode c s).received = s.received := by
  induction c generalizing s with
  | nil => rfl
  | cons b c ih => exact (ih (writeBit b s)).trans (writeBit_received b s)

/-! ### flush: what it leaves alone -/

@[simp] theorem flush_params (s : State) : (flush s).params = s.params := by unfold flush; split <;> rfl
@[simp] theorem flush_state (s : State) : (flush s).state = s.state := by unfold flush; split <;> rfl
@[simp] theorem flush_err (s : State) : (flush s).err = s.err := by unfold flush; split <;> rfl
@[simp] theorem flush_tab (s : State) : (flush s).tab = s.tab := by unfold flush; split <;> rfl
@[simp] theorem flush_total (s : State) : (flush s).total = s.total := by unfold flush; split <;> rfl
@[simp] theorem flush_hpPhase (s : State) : (flush s).hpPhase = s.hpPhase := by unfold flush; split <;> rfl
@[simp] theorem flush_hpVal (s : State) : (flush s).hpVal = s.hpVal := by unfold flush; split <;> rfl
@[simp] theorem flush_hpNd (s : State) : (flush s).hpNd = s.hpNd := by unfold flush; split <;> rfl
@[simp] theorem flush_hpSym (s : State) : (flush s).hpSym = s.hpSym := by unfold flush; split <;> rfl
@[simp] theorem flush_hpCode (s : State) : (flush s).hpCode = s.hpCode := by unfold flush; split <;> rfl
@[simp] theorem flush_hpLen (s : State) : (flush s).hpLen = s.hpLen := by unfold flush; split <;> rfl
@[simp] theorem flush_hpBad (s : State) : (flush s).hpBad = s.hpBad := by unfold flush; split <;> rfl
@[simp] theorem flush_cand (s : State) : (flush s).cand = s.cand := by unfold flush; split <;> rfl
@[simp] theorem flush_ci (s : State) : (flush s).ci = s.ci := by unfold flush; split <;> rfl
@[simp] theorem flush_cmds (s : State) : (flush s).cmds = s.cmds := by unfold flush; split <;> rfl
@[simp] theorem flush_acts (s : State) : (flush s).acts = s.acts := by unfold flush; split <;> rfl
@[simp] theorem flush_received (s : State) : (flush s).received = s.received := by unfold flush; split <;> rfl

/-! ### Where the commands read S.nent -/

@[simp] theorem nent_eq (s : State) : s.nent = s.tab.length := rfl

end Sys2Proof.Machine
end

