-- ==== Sys2Proof/Laws/Encoding.lean ====
section
/-! SUPPORT. The fields of a command word and the numbers behind words built by concatenation. -/

namespace Sys2Proof

theorem toNat_concat {m n : Nat} (x : BitVec m) (y : BitVec n) :
    (x ++ y).toNat = x.toNat * 2 ^ n + y.toNat := by
  rw [BitVec.toNat_append, ← Nat.shiftLeft_add_eq_or_of_lt y.isLt, Nat.shiftLeft_eq]

theorem tag_or (a : Nat) {n b : Nat} (h : b < 2 ^ n) : a * 2 ^ n ||| b = a * 2 ^ n + b := by
  rw [← Nat.shiftLeft_eq, Nat.shiftLeft_add_eq_or_of_lt h]

theorem encode_toNat (i : Instr) : (encode i).toNat = (opcode i).toNat * 2 ^ 28 + (operand i).toNat :=
  toNat_concat _ _

theorem opField_toNat (w : Word) : (opField w).toNat = w.toNat / 2 ^ 28 := by
  have := w.isLt
  simp only [opField, BitVec.extractLsb'_toNat, Nat.shiftRight_eq_div_pow]
  omega

theorem payloadField_toNat (w : Word) : (payloadField w).toNat = w.toNat % 2 ^ 28 := by
  simp [payloadField]

theorem byteField_toNat (w : Word) : (byteField w).toNat = w.toNat % 2 ^ 8 := by
  simp [byteField]

theorem byteReserved_toNat (w : Word) : (byteReserved w).toNat = w.toNat / 2 ^ 8 % 2 ^ 20 := by
  simp [byteReserved, Nat.shiftRight_eq_div_pow]

@[simp] theorem opField_encode (i : Instr) : opField (encode i) = opcode i := by
  apply BitVec.eq_of_toNat_eq
  have h := (operand i).isLt
  rw [opField_toNat, encode_toNat]
  omega

@[simp] theorem payloadField_encode (i : Instr) : payloadField (encode i) = operand i := by
  apply BitVec.eq_of_toNat_eq
  have h := (operand i).isLt
  rw [payloadField_toNat, encode_toNat]
  omega

/-- A word is its opcode field followed by its payload field. -/
theorem word_eq_fields (w : Word) : w = opField w ++ payloadField w := by
  apply BitVec.eq_of_toNat_eq
  rw [toNat_concat, opField_toNat, payloadField_toNat]
  omega

namespace Machine

theorem byte_word (b : Byte) : (Response.byte b).word = byteWord b := by
  apply BitVec.eq_of_toNat_eq
  have hb := b.isLt
  have h : (Response.byte b).word.toNat = _ := toNat_concat (0x1#4 ++ 0#20) b
  rw [h, byteWord, BitVec.toNat_or, BitVec.toNat_setWidth, Nat.mod_eq_of_lt (by omega)]
  exact (tag_or 0x100000 hb).symm

theorem sym_word (v : Sym) : (Response.sym v).word = symWord v := by
  apply BitVec.eq_of_toNat_eq
  have hv := v.isLt
  have h : (Response.sym v).word.toNat = _ := toNat_concat (0x2#4 ++ 0#7) v
  rw [h, symWord, BitVec.toNat_or, BitVec.toNat_setWidth, Nat.mod_eq_of_lt (by omega)]
  exact (tag_or 0x100 hv).symm

theorem err_word (e : Err) : (Response.err e).word = errWord e.code := by cases e <;> rfl

theorem done_enc_word : (Response.done .enc).word = 0x30000000#32 := rfl

theorem done_dec_word : (Response.done .dec).word = 0x30000001#32 := rfl

theorem byteWord_toNat (b : Byte) : (byteWord b).toNat = 0x10000000 + b.toNat := by
  have hb := b.isLt
  rw [byteWord, BitVec.toNat_or, BitVec.toNat_setWidth, Nat.mod_eq_of_lt (by omega)]
  exact tag_or 0x100000 hb

/-- Each byte has its own response word. -/
theorem byteWord_injective : Function.Injective byteWord := by
  intro a b h
  apply BitVec.eq_of_toNat_eq
  have := congrArg BitVec.toNat h
  rw [byteWord_toNat, byteWord_toNat] at this
  omega

end Machine

end Sys2Proof
end

