-- ==== Sys2Proof/Laws/Ops.lean ====
section
/-! SUPPORT. What the shared operations can do: the common checks, the error entry, the table operations. -/

namespace Sys2Proof.Machine

/-- The error entry, field by field of R324. -/
theorem raise_eq (e : Err) (s : State) :
    raise e s = { s with err := e, state := .error, rsp := s.rsp ++ [errWord e.code] } := by
  rw [← err_word]; rfl

@[simp] theorem Flow.andThen_cont (s : State) (g : State → Flow) : (Flow.cont s).andThen g = g s := rfl

@[simp] theorem Flow.andThen_ended (s : State) (g : State → Flow) :
    (Flow.ended s).andThen g = .ended s := rfl

@[simp] theorem Flow.andThen_fault (r : Fault) (g : State → Flow) :
    (Flow.fault r).andThen g = .fault r := rfl

@[simp] theorem Flow.result_cont (s : State) : (Flow.cont s).result = .next s := rfl

@[simp] theorem Flow.result_ended (s : State) : (Flow.ended s).result = .next s := rfl

@[simp] theorem Flow.result_fault (r : Fault) : (Flow.fault r).result = .fault r := rfl

/-- A flow that continues continues after the next piece from where it stood. -/
theorem Flow.andThen_eq_cont {f : Flow} {g : State → Flow} {t : State} (h : f.andThen g = .cont t) :
    ∃ s, f = .cont s ∧ g s = .cont t := by
  cases f with
  | cont s => exact ⟨s, rfl, h⟩
  | ended s => cases h
  | fault r => cases h

/-- Everything the common checks can answer. -/
theorem commonChecks_cases (i : Instr) (body : State → Flow) (s : State) :
    (s.state = .error ∧ runsInError i = false ∧ commonChecks i body s = .next s) ∨
    (s.state ≠ .error ∧ legalIn i s.state = false ∧ commonChecks i body s = .next (raise .sequence s)) ∨
    ((s.state = .error ∧ runsInError i = true ∨ s.state ≠ .error ∧ legalIn i s.state = true) ∧
      commonChecks i body s = (body s).result) := by
  unfold commonChecks
  by_cases he : s.state = .error <;> cases hr : runsInError i <;> cases hl : legalIn i s.state <;>
    simp_all

/-- A command runs where the table of R327 says it is legal. -/
theorem commonChecks_legal {i : Instr} {body : State → Flow} {s : State} (he : s.state ≠ .error)
    (hl : legalIn i s.state = true) : commonChecks i body s = (body s).result := by
  simp [commonChecks, he, hl]

theorem findSym_eq_none {v : Sym} {tab : List Entry} :
    findSym v tab = none ↔ ∀ e ∈ tab, e.sym ≠ v := by
  simp [findSym]

theorem findSym_eq_some {v : Sym} {tab : List Entry} {e : Entry} (h : findSym v tab = some e) :
    e ∈ tab ∧ e.sym = v :=
  ⟨List.mem_of_find?_eq_some h, by simpa using List.find?_some h⟩

theorem findSym_isSome {v : Sym} {tab : List Entry} : (findSym v tab).isSome = true ↔ ∃ e ∈ tab, e.sym = v := by
  simp [findSym]

/-- Where symbols are distinct, the entry found is the one with the symbol. -/
theorem findSym_of_mem {tab : List Entry} (hd : DistinctSyms tab) {e : Entry} (he : e ∈ tab) :
    findSym e.sym tab = some e := by
  induction tab with
  | nil => cases he
  | cons a l ih =>
    have hd' : a.sym ∉ l.map Entry.sym ∧ DistinctSyms l := by simpa [DistinctSyms] using hd
    rcases List.mem_cons.1 he with rfl | hl
    · simp [findSym]
    · have : a.sym ≠ e.sym := fun h => hd'.1 (h ▸ List.mem_map_of_mem hl)
      simpa [findSym, List.find?_cons, this] using ih hd'.2 hl

theorem findCode_eq_none {c : Bits} {tab : List Entry} :
    findCode c tab = none ↔ ∀ e ∈ tab, e.code ≠ c := by
  simp [findCode]

theorem findCode_eq_some {c : Bits} {tab : List Entry} {e : Entry} (h : findCode c tab = some e) :
    e ∈ tab ∧ e.code = c :=
  ⟨List.mem_of_find?_eq_some h, by simpa using List.find?_some h⟩

theorem findCode_isSome {c : Bits} {tab : List Entry} :
    (findCode c tab).isSome = true ↔ ∃ e ∈ tab, e.code = c := by
  simp [findCode]

/-- Counting a symbol touches the first entry that has it and no other. -/
theorem bumpCount_append {v : Sym} {pre post : List Entry} {e : Entry} (hv : e.sym = v)
    (hp : ∀ x ∈ pre, x.sym ≠ v) :
    bumpCount v (pre ++ e :: post) = pre ++ { e with cnt := e.cnt + 1 } :: post := by
  induction pre with
  | nil => simp [bumpCount, hv]
  | cons a l ih =>
    have ha : a.sym ≠ v := hp a (by simp)
    simp [bumpCount, ha, ih fun x hx => hp x (by simp [hx])]

/-- Counting a symbol keeps every entry's symbol and code. -/
theorem bumpCount_map_sym (v : Sym) (tab : List Entry) : (bumpCount v tab).map Entry.sym = tab.map Entry.sym := by
  induction tab with
  | nil => rfl
  | cons a l ih => by_cases h : a.sym = v <;> simp [bumpCount, h, ih]

@[simp] theorem bumpCount_length (v : Sym) (tab : List Entry) : (bumpCount v tab).length = tab.length := by
  simpa using congrArg List.length (bumpCount_map_sym v tab)

/-- Counting a symbol of the table adds one to the sum of the counts. -/
theorem bumpCount_sum {v : Sym} {tab : List Entry} (h : ∃ e ∈ tab, e.sym = v) :
    sumCounts (bumpCount v tab) = sumCounts tab + 1 := by
  induction tab with
  | nil => simp at h
  | cons a l ih =>
    by_cases ha : a.sym = v
    · simp [bumpCount, ha, sumCounts]; omega
    · have hl : ∃ e ∈ l, e.sym = v := by simpa [ha] using h
      have := ih hl
      simp [bumpCount, ha, sumCounts] at this ⊢
      omega

/-- An entry after counting is an entry before, its count the same or one more. -/
theorem mem_bumpCount {v : Sym} {tab : List Entry} {e : Entry} (h : e ∈ bumpCount v tab) :
    ∃ a ∈ tab, e.sym = a.sym ∧ e.code = a.code ∧ (e.cnt = a.cnt ∨ e.cnt = a.cnt + 1) := by
  induction tab with
  | nil => simp [bumpCount] at h
  | cons a l ih =>
    by_cases ha : a.sym = v
    · simp only [bumpCount, ha, if_true, List.mem_cons] at h
      rcases h with rfl | hl
      · exact ⟨a, by simp, by simp [ha]⟩
      · exact ⟨e, by simp [hl], by simp⟩
    · simp only [bumpCount, ha, if_false, List.mem_cons] at h
      rcases h with rfl | hl
      · exact ⟨e, by simp, by simp⟩
      · obtain ⟨b, hb, h'⟩ := ih hl
        exact ⟨b, by simp [hb], h'⟩

theorem tabPush_cases (e : Entry) (s : State) :
    (s.nent < s.params.maxEntries ∧ tabPush e s = .cont { s with tab := s.tab ++ [e] }) ∨
    (s.params.maxEntries ≤ s.nent ∧ tabPush e s = .fault .tableIndex) := by
  unfold tabPush
  split
  · exact .inl ⟨‹_›, rfl⟩
  · exact .inr ⟨by omega, rfl⟩

end Sys2Proof.Machine
end

