-- ==== Sys2Proof/Laws/Arbiter.lean ====
section
/-! SUPPORT. The arena of the priority_queue_arbiter as trees: what an extraction takes, what a merge makes, and that BuildTree
and GenCodes on the arena are the merging of trees and the paths to their leaves (40_tree_construction.md R154 to R161). -/

namespace Sys2Proof.Machine

/-! ### Extraction -/

theorem argmin_mem (ar : Arena) (b : Nat) (js : List Nat) : argmin ar b js ∈ b :: js := by
  induction js generalizing b with
  | nil => simp [argmin]
  | cons j js ih =>
    unfold argmin
    split
    · exact List.mem_cons_of_mem _ (ih j)
    · rcases List.mem_cons.1 (ih b) with h | h
      · rw [h]; simp
      · simp [h]

theorem keyLt_iff (a b : Nat × Nat) : keyLt a b = true ↔ a.1 < b.1 ∨ (a.1 = b.1 ∧ a.2 < b.2) := by
  simp [keyLt]

/-- No key is below the argmin's. -/
theorem argmin_le (ar : Arena) (b : Nat) (js : List Nat) :
    ∀ x ∈ b :: js, keyLt (keyAt ar x) (keyAt ar (argmin ar b js)) = false := by
  induction js generalizing b with
  | nil => simp [argmin, keyLt]
  | cons j js ih =>
    intro x hx
    unfold argmin
    by_cases hlt : keyLt (keyAt ar j) (keyAt ar b) = true
    · rw [if_pos hlt]
      rcases List.mem_cons.1 hx with rfl | hx
      · have hj := ih j j (by simp)
        rw [Bool.eq_false_iff, ne_eq, keyLt_iff] at hj ⊢
        rw [keyLt_iff] at hlt
        omega
      · exact ih j x hx
    · rw [if_neg hlt]
      rcases List.mem_cons.1 hx with rfl | hx
      · exact ih x x (by simp)
      · rcases List.mem_cons.1 hx with rfl | hx
        · have hb := ih b b (by simp)
          rw [Bool.eq_false_iff, ne_eq, keyLt_iff] at hb ⊢
          rw [keyLt_iff] at hlt
          omega
        · exact ih b x (by simp [hx])

/-- An extraction takes one live index, no other's key is below its key, and the others remain. -/
theorem extractMin_spec {ar : Arena} {live : List Nat} (h : live ≠ []) :
    ∃ a rest, extractMin ar live = some (a, rest) ∧ live.Perm (a :: rest) ∧
      ∀ x ∈ live, keyLt (keyAt ar x) (keyAt ar a) = false := by
  cases live with
  | nil => exact absurd rfl h
  | cons j js =>
    exact ⟨_, _, rfl, (List.perm_cons_erase (argmin_mem ar j js)), argmin_le ar j js⟩

theorem joinNode_some {ar : Arena} {a b : Nat} {na nb : Node} (ha : ar[a]? = some na) (hb : ar[b]? = some nb) :
    joinNode ar a b = some ⟨na.weight + nb.weight, minSym na.minsym nb.minsym, .internal a b⟩ := by
  simp [joinNode, ha, hb]

/-- With two or more trees live, a merge extracts twice and joins (R155). -/
theorem mergeStep_spec {ar : Arena} {live : List Nat} (hl : 2 ≤ live.length) (hv : ∀ i ∈ live, i < ar.length) :
    ∃ a b na nb rest, ar[a]? = some na ∧ ar[b]? = some nb ∧ live.Perm (a :: b :: rest) ∧
      (∀ x ∈ live, keyLt (keyAt ar x) (keyAt ar a) = false) ∧
      (∀ x ∈ b :: rest, keyLt (keyAt ar x) (keyAt ar b) = false) ∧
      mergeStep ar live = some
        (ar ++ [⟨na.weight + nb.weight, minSym na.minsym nb.minsym, .internal a b⟩], rest ++ [ar.length]) := by
  obtain ⟨a, l₁, h₁, p₁, k₁⟩ := extractMin_spec (ar := ar) (live := live) (by rintro rfl; simp at hl)
  have hl₁ : l₁ ≠ [] := by
    rintro rfl
    have := p₁.length_eq
    simp at this; omega
  obtain ⟨b, rest, h₂, p₂, k₂⟩ := extractMin_spec (ar := ar) hl₁
  have pall : live.Perm (a :: b :: rest) := p₁.trans (p₂.cons a)
  have ha : a < ar.length := hv a (pall.mem_iff.2 (by simp))
  have hb : b < ar.length := hv b (pall.mem_iff.2 (by simp))
  refine ⟨a, b, ar[a], ar[b], rest, List.getElem?_eq_getElem ha, List.getElem?_eq_getElem hb, pall, k₁, ?_, ?_⟩
  · intro x hx; exact k₂ x (p₂.mem_iff.2 hx)
  · simp [mergeStep, h₁, h₂, joinNode_some (List.getElem?_eq_getElem ha) (List.getElem?_eq_getElem hb)]

/-- With at most one tree live there is nothing to merge. -/
theorem mergeStep_none {ar : Arena} {live : List Nat} (hl : live.length ≤ 1) : mergeStep ar live = none := by
  match live, hl with
  | [], _ => rfl
  | [j], _ => simp [mergeStep, extractMin, argmin]

/-! ### Trees -/

/-- A code tree (00_scope.md R16). -/
inductive Tree where
  | leaf (weight : Nat) (sym : Sym)
  | node (left right : Tree)

namespace Tree

/-- `weight(t)` (R16). -/
def weight : Tree → Nat
  | leaf w _ => w
  | node l r => l.weight + r.weight

/-- `minsym(t)` (R16). -/
def minsym : Tree → Sym
  | leaf _ v => v
  | node l r => minSym l.minsym r.minsym

/-- The symbols of the leaves. -/
def leaves : Tree → List Sym
  | leaf _ v => [v]
  | node l r => l.leaves ++ r.leaves

/-- The codes of the leaves below a path (R161). -/
def codes : Tree → Bits → List (Sym × Bits)
  | leaf _ v, p => [(v, p)]
  | node l r, p => l.codes (p ++ [false]) ++ r.codes (p ++ [true])

theorem codes_fst (t : Tree) (p : Bits) : (t.codes p).map Prod.fst = t.leaves := by
  induction t generalizing p with
  | leaf w v => rfl
  | node l r ihl ihr => simp [codes, leaves, ihl, ihr]

theorem leaves_length_pos (t : Tree) : 1 ≤ t.leaves.length := by
  induction t with
  | leaf w v => simp [leaves]
  | node l r ihl ihr => simp [leaves]; omega

/-- minsym is one of the leaves and none is smaller. -/
theorem minsym_spec (t : Tree) : t.minsym ∈ t.leaves ∧ ∀ v ∈ t.leaves, t.minsym.toNat ≤ v.toNat := by
  induction t with
  | leaf w v => simp [minsym, leaves]
  | node l r ihl ihr =>
    by_cases h : l.minsym.toNat ≤ r.minsym.toNat
    · refine ⟨by simp [minsym, minSym, leaves, h, ihl.1], ?_⟩
      intro v hv
      rcases List.mem_append.1 hv with hv | hv
      · simpa [minsym, minSym, h] using ihl.2 v hv
      · have := ihr.2 v hv
        simp [minsym, minSym, h]; omega
    · refine ⟨by simp [minsym, minSym, leaves, h, ihr.1], ?_⟩
      intro v hv
      rcases List.mem_append.1 hv with hv | hv
      · have := ihl.2 v hv
        simp [minsym, minSym, h]; omega
      · simpa [minsym, minSym, h] using ihr.2 v hv

end Tree

/-- Node i of the arena is the root of the tree: its fields are the tree's, and children stand below their parent
(R42, R156). -/
inductive IsTree (ar : Arena) : Nat → Tree → Prop where
  | leaf {i w v} (h : ar[i]? = some ⟨w, v, .leaf v⟩) : IsTree ar i (.leaf w v)
  | node {i l r tl tr} (h : ar[i]? = some ⟨tl.weight + tr.weight, minSym tl.minsym tr.minsym, .internal l r⟩)
      (hl : l < i) (hr : r < i) (tl' : IsTree ar l tl) (tr' : IsTree ar r tr) : IsTree ar i (.node tl tr)

/-- The node of a tree's root. -/
theorem IsTree.root {ar : Arena} {i : Nat} {t : Tree} (h : IsTree ar i t) :
    ∃ b, ar[i]? = some ⟨t.weight, t.minsym, b⟩ := by
  cases h with
  | leaf h => exact ⟨_, h⟩
  | node h => exact ⟨_, h⟩

theorem IsTree.lt {ar : Arena} {i : Nat} {t : Tree} (h : IsTree ar i t) : i < ar.length := by
  obtain ⟨b, hb⟩ := h.root
  exact (List.getElem?_eq_some_iff.1 hb).1

/-- New nodes do not change old trees. -/
theorem IsTree.append {ar : Arena} {i : Nat} {t : Tree} (h : IsTree ar i t) (ns : Arena) :
    IsTree (ar ++ ns) i t := by
  induction h with
  | leaf h => exact .leaf (by rw [List.getElem?_append_left (List.getElem?_eq_some_iff.1 h).1, h])
  | node h hl hr _ _ ihl ihr =>
    exact .node (by rw [List.getElem?_append_left (List.getElem?_eq_some_iff.1 h).1, h]) hl hr ihl ihr

/-- GenCodes' traversal of a tree gives each leaf its path (R161). -/
theorem visit_eq_codes {ar : Arena} {i : Nat} {t : Tree} (h : IsTree ar i t) :
    ∀ (fuel : Nat) (p : Bits), i < fuel → visit ar fuel i p = t.codes p := by
  induction h with
  | leaf h =>
    intro fuel p hf
    obtain ⟨k, rfl⟩ : ∃ k, fuel = k + 1 := ⟨fuel - 1, by omega⟩
    simp [visit, h, Tree.codes]
  | node h hl hr _ _ ihl ihr =>
    intro fuel p hf
    obtain ⟨k, rfl⟩ : ∃ k, fuel = k + 1 := ⟨fuel - 1, by omega⟩
    simp [visit, h, Tree.codes, ihl k _ (by omega), ihr k _ (by omega)]

/-! ### Forests -/

/-- One tree is not below another in the order of R154. -/
def Tree.notBelow (a b : Tree) : Prop := ¬ (a.weight < b.weight ∨ (a.weight = b.weight ∧ a.minsym.toNat < b.minsym.toNat))

/-- A merge of a forest: the two trees that no other is below become one (R155). -/
inductive Merge : List Tree → List Tree → Prop where
  | mk {ts rest : List Tree} {a b : Tree} (h : ts.Perm (a :: b :: rest)) (ha : ∀ x ∈ ts, x.notBelow a)
      (hb : ∀ x ∈ b :: rest, x.notBelow b) : Merge ts (rest ++ [.node a b])

/-- The live indices are the roots of the forest's trees, in the same order. -/
abbrev Forest (ar : Arena) (live : List Nat) (ts : List Tree) : Prop := List.Forall₂ (IsTree ar) live ts

theorem keyAt_of_isTree {ar : Arena} {i : Nat} {t : Tree} (h : IsTree ar i t) :
    keyAt ar i = (t.weight, t.minsym.toNat) := by
  obtain ⟨b, hb⟩ := h.root
  simp [keyAt, hb]

/-- A forest follows a permutation of its roots. -/
theorem Forest.perm {ar : Arena} {live live' : List Nat} {ts : List Tree} (h : Forest ar live ts)
    (p : live.Perm live') : ∃ ts', ts.Perm ts' ∧ Forest ar live' ts' := by
  induction p generalizing ts with
  | nil => exact ⟨ts, .refl _, h⟩
  | cons x _ ih =>
    cases h with
    | cons h₁ h₂ =>
      obtain ⟨ts', p', h'⟩ := ih h₂
      exact ⟨_, p'.cons _, .cons h₁ h'⟩
  | swap x y l =>
    cases h with
    | cons h₁ h₂ =>
      cases h₂ with
      | cons h₂ h₃ => exact ⟨_, .swap _ _ _, .cons h₂ (.cons h₁ h₃)⟩
  | trans _ _ ih₁ ih₂ =>
    obtain ⟨t₁, p₁, h₁⟩ := ih₁ h
    obtain ⟨t₂, p₂, h₂⟩ := ih₂ h₁
    exact ⟨t₂, p₁.trans p₂, h₂⟩

theorem Forest.mem {ar : Arena} {live : List Nat} {ts : List Tree} (h : Forest ar live ts) :
    ∀ t ∈ ts, ∃ i ∈ live, IsTree ar i t := by
  induction h with
  | nil => simp
  | cons h₁ _ ih =>
    intro t ht
    rcases List.mem_cons.1 ht with rfl | ht
    · exact ⟨_, by simp, h₁⟩
    · obtain ⟨i, hi, hit⟩ := ih t ht
      exact ⟨i, by simp [hi], hit⟩

theorem Forest.bound {ar : Arena} {live : List Nat} {ts : List Tree} (h : Forest ar live ts) :
    ∀ i ∈ live, i < ar.length := by
  induction h with
  | nil => simp
  | cons h₁ _ ih =>
    intro i hi
    rcases List.mem_cons.1 hi with rfl | hi
    · exact h₁.lt
    · exact ih i hi

theorem Forest.append {ar : Arena} {live : List Nat} {ts : List Tree} (h : Forest ar live ts) (ns : Arena) :
    Forest (ar ++ ns) live ts := h.imp fun _ _ h => h.append ns

/-- A turn of BuildTree's loop is a merge of the forest. -/
theorem mergeStep_forest {ar : Arena} {live : List Nat} {ts : List Tree} (h : Forest ar live ts)
    (hl : 2 ≤ live.length) : ∃ ar' live' ts', mergeStep ar live = some (ar', live') ∧ Forest ar' live' ts' ∧
      Merge ts ts' := by
  obtain ⟨a, b, na, nb, rest, ha, hb, p, ka, kb, hm⟩ := mergeStep_spec hl h.bound
  obtain ⟨ts', p', f'⟩ := h.perm p
  cases f' with
  | cons fa f' =>
    cases f' with
    | @cons _ tb _ tr fb fr =>
      rename_i ta
      obtain ⟨ba, hra⟩ := fa.root
      obtain ⟨bb, hrb⟩ := fb.root
      have ea : na = ⟨ta.weight, ta.minsym, ba⟩ := by simpa using ha.symm.trans hra
      have eb : nb = ⟨tb.weight, tb.minsym, bb⟩ := by simpa using hb.symm.trans hrb
      subst ea eb
      refine ⟨_, _, tr ++ [.node ta tb], hm, ?_, .mk p' ?_ ?_⟩
      · refine List.rel_append (Forest.append fr _) (.cons (.node ?_ fa.lt fb.lt (fa.append _) (fb.append _)) .nil)
        rw [List.getElem?_append_right (Nat.le_refl _), Nat.sub_self]
        rfl
      · intro x hx
        obtain ⟨i, hi, hit⟩ := h.mem x hx
        have := ka i hi
        rw [keyAt_of_isTree hit, keyAt_of_isTree fa, Bool.eq_false_iff, ne_eq, keyLt_iff] at this
        exact this
      · intro x hx
        obtain ⟨i, hi, hit⟩ := Forest.mem (.cons fb fr) x hx
        have := kb i hi
        rw [keyAt_of_isTree hit, keyAt_of_isTree fb, Bool.eq_false_iff, ne_eq, keyLt_iff] at this
        exact this

/-- Merging a forest down to one tree. -/
inductive MergesTo : List Tree → Tree → Prop where
  | one (t : Tree) : MergesTo [t] t
  | step {ts ts' : List Tree} {t : Tree} (h : Merge ts ts') (h' : MergesTo ts' t) : MergesTo ts t

theorem Merge.length {ts ts' : List Tree} (h : Merge ts ts') : ts.length = ts'.length + 1 := by
  cases h with
  | mk p => have := p.length_eq; simp at this ⊢; omega

/-- BuildTree's loop merges the forest down to one tree (R156). -/
theorem mergeLoop_forest (n : Nat) : ∀ {ar : Arena} {live : List Nat} {ts : List Tree}, Forest ar live ts →
    1 ≤ live.length → live.length ≤ n + 1 → ∃ ar' root t, mergeLoop n ar live = (ar', [root]) ∧
      IsTree ar' root t ∧ MergesTo ts t := by
  induction n with
  | zero =>
    intro ar live ts h h₁ h₂
    obtain ⟨i, rfl⟩ := List.length_eq_one_iff.1 (show live.length = 1 by omega)
    cases h with
    | cons h hn => cases hn; exact ⟨ar, i, _, rfl, h, .one _⟩
  | succ n ih =>
    intro ar live ts h h₁ h₂
    by_cases h1 : live.length = 1
    · obtain ⟨i, rfl⟩ := List.length_eq_one_iff.1 h1
      cases h with
      | cons h hn =>
        cases hn
        exact ⟨ar, i, _, by simp [mergeLoop, mergeStep_none (ar := ar) (live := [i]) (by simp)], h, .one _⟩
    · obtain ⟨ar', live', ts', hm, hf, hg⟩ := mergeStep_forest h (by omega)
      have hlen : live'.length + 1 = live.length := by
        rw [hf.length_eq, h.length_eq, hg.length]
      obtain ⟨ar₂, root, t, h₃, h₄, h₅⟩ := ih hf (by omega) (by omega)
      exact ⟨ar₂, root, t, by simp [mergeLoop, hm, h₃], h₄, .step hg h₅⟩

/-- The leaves a table starts from (R156). -/
def leafTrees (tab : List Entry) : List Tree := tab.map fun e => .leaf e.cnt e.sym

theorem initial_forest (tab : List Entry) :
    Forest (tab.map leafNode) (List.range tab.length) (leafTrees tab) := by
  rw [Forest, List.forall₂_iff_get]
  refine ⟨by simp [leafTrees], ?_⟩
  intro i h₁ h₂
  have hi : i < tab.length := by simpa using h₁
  simp only [List.get_eq_getElem, List.getElem_range, leafTrees, List.getElem_map]
  exact .leaf (by simp [leafNode, hi])

/-- BuildTree on the arena is the merging of the table's leaves down to one tree. -/
theorem buildTree_spec {tab : List Entry} (h : tab ≠ []) : ∃ ar root t, buildTree tab = (ar, [root]) ∧
    IsTree ar root t ∧ MergesTo (leafTrees tab) t := by
  have hp : 1 ≤ tab.length := List.length_pos_iff.2 h
  exact mergeLoop_forest tab.length (initial_forest tab) (by simpa using hp) (by simp)

/-- The codes of a table of two or more entries are the paths to the leaves of its tree. -/
theorem codesOf_spec {tab : List Entry} (h : 2 ≤ tab.length) : ∃ t, MergesTo (leafTrees tab) t ∧
    codesOf tab = t.codes [] := by
  obtain ⟨ar, root, t, h₁, h₂, h₃⟩ := buildTree_spec (tab := tab) (by rintro rfl; simp at h)
  refine ⟨t, h₃, ?_⟩
  match tab, h with
  | a :: b :: l, _ =>
    simp only [codesOf, h₁, genCodes]
    exact visit_eq_codes h₂ _ _ h₂.lt

theorem Merge.leaves {ts ts' : List Tree} (h : Merge ts ts') :
    (ts'.flatMap Tree.leaves).Perm (ts.flatMap Tree.leaves) := by
  cases h with
  | @mk rest a b p _ _ =>
    have e : (rest ++ [Tree.node a b]).flatMap Tree.leaves =
        rest.flatMap Tree.leaves ++ (a.leaves ++ b.leaves) := by simp [Tree.leaves]
    rw [e]
    refine .trans ?_ (p.flatMap_right _).symm
    simpa using (List.perm_append_comm (l₁ := rest.flatMap Tree.leaves) (l₂ := a.leaves ++ b.leaves))

theorem Merge.weight {ts ts' : List Tree} (h : Merge ts ts') :
    (ts'.map Tree.weight).sum = (ts.map Tree.weight).sum := by
  cases h with
  | @mk rest a b p _ _ =>
    rw [(p.map Tree.weight).sum_eq]
    simp [Tree.weight]; omega

/-- Merging keeps the leaves. -/
theorem MergesTo.leaves {ts : List Tree} {t : Tree} (h : MergesTo ts t) :
    t.leaves.Perm (ts.flatMap Tree.leaves) := by
  induction h with
  | one t => simp
  | step h _ ih => exact ih.trans h.leaves

/-- Merging keeps the sum of the weights. -/
theorem MergesTo.weight {ts : List Tree} {t : Tree} (h : MergesTo ts t) :
    t.weight = (ts.map Tree.weight).sum := by
  induction h with
  | one t => simp
  | step h _ ih => exact ih.trans h.weight

theorem leafTrees_leaves (tab : List Entry) : (leafTrees tab).flatMap Tree.leaves = tab.map Entry.sym := by
  induction tab with
  | nil => rfl
  | cons e l ih => simp [leafTrees, Tree.leaves] at ih ⊢; exact ih

theorem leafTrees_weight (tab : List Entry) : ((leafTrees tab).map Tree.weight).sum = sumCounts tab := by
  simp [leafTrees, sumCounts, Function.comp_def, Tree.weight]

end Sys2Proof.Machine
end

