-- ==== Sys2Proof/Laws/Bits.lean ====
section
/-! SUPPORT. The bitstream_writer and bitstream_reader: what a written bit, a written code and a flush do, in terms of the bits
the writer holds and the bits the emitted bytes give the reader (41_bitstream.md R190 to R198). -/

namespace Sys2Proof.Machine

/-- Setting or clearing one bit leaves every other bit. -/
theorem setBit_getLsbD (acc : Byte) {k : Nat} (hk : k < 8) (b : Bool) (i : Nat) (hi : i < 8) :
    (setBit acc k b).getLsbD i = if i = k then b else acc.getLsbD i := by
  cases b <;> by_cases hik : i = k
  · subst hik; simp [setBit, hi]
  · simp [setBit, hi, hik]; omega
  · subst hik; simp [setBit, hi]
  · simp [setBit, hi, hik]; omega

/-- The eight bits of a byte, read from the top. -/
theorem readBits_getElem (b : Byte) (k : Nat) (hk : k < 8) : (readBits b)[k]? = some (b.getLsbD (7 - k)) := by
  have : k = 0 ∨ k = 1 ∨ k = 2 ∨ k = 3 ∨ k = 4 ∨ k = 5 ∨ k = 6 ∨ k = 7 := by omega
  rcases this with h | h | h | h | h | h | h | h <;> subst h <;> rfl

@[simp] theorem readBits_length (b : Byte) : (readBits b).length = 8 := rfl

/-- A byte is determined by the bits it gives the reader. -/
theorem readBits_injective : Function.Injective readBits := by
  intro a b h
  apply BitVec.eq_of_getLsbD_eq
  intro i hi
  have := congrArg (fun l : Bits => l[7 - i]?) h
  simp only [readBits_getElem _ (7 - i) (by omega)] at this
  simpa [show 7 - (7 - i) = i by omega] using this

@[simp] theorem bitsOf_nil : bitsOf [] = [] := rfl

@[simp] theorem bitsOf_cons (b : Byte) (bs : List Byte) : bitsOf (b :: bs) = readBits b ++ bitsOf bs := rfl

@[simp] theorem bitsOf_append (as bs : List Byte) : bitsOf (as ++ bs) = bitsOf as ++ bitsOf bs := by
  simp [bitsOf]

@[simp] theorem bitsOf_length (bs : List Byte) : (bitsOf bs).length = 8 * bs.length := by
  induction bs with
  | nil => rfl
  | cons b bs ih => simp [ih]; omega

@[simp] theorem pending_length (s : State) : (pending s).length = s.bwCnt.val := by
  simp [pending]

/-- The writer's state after a bit that does not fill the byte. -/
theorem writeBit_of_ne {s : State} (b : Bool) (h : s.bwCnt ≠ 7) :
    writeBit b s = { s with bwAcc := setBit s.bwAcc (7 - s.bwCnt.val) b, bwCnt := s.bwCnt + 1 } := by
  simp [writeBit, h]

/-- The writer's state after the bit that fills the byte. -/
theorem writeBit_of_eq {s : State} (b : Bool) (h : s.bwCnt = 7) :
    writeBit b s = { s with
      bwAcc := 0, bwCnt := 0, rsp := s.rsp ++ [byteWord (setBit s.bwAcc (7 - s.bwCnt.val) b)] } := by
  rw [← byte_word]
  simp [writeBit, h, clearWriter, emit, emitAll]

theorem fin8_succ {n : Fin 8} (h : n ≠ 7) : (n + 1).val = n.val + 1 := by
  revert h; revert n; decide

/-- The bits of a byte whose bit after the first n is set to b. -/
theorem take_setBit (acc : Byte) (n : Nat) (hn : n < 8) (b : Bool) :
    (readBits (setBit acc (7 - n) b)).take (n + 1) = (readBits acc).take n ++ [b] := by
  apply List.ext_getElem?
  intro i
  by_cases hi : i < n
  · rw [List.getElem?_take_of_lt (by omega), List.getElem?_append_left (by simp; omega),
      List.getElem?_take_of_lt hi, readBits_getElem _ _ (by omega), readBits_getElem _ _ (by omega),
      setBit_getLsbD _ (by omega) _ _ (by omega), if_neg (by omega)]
  · by_cases he : i = n
    · subst he
      rw [List.getElem?_take_of_lt (by omega), List.getElem?_append_right (by simp),
        readBits_getElem _ _ hn, setBit_getLsbD _ (by omega) _ _ (by omega), if_pos rfl]
      simp [Nat.min_eq_left (show i ≤ 8 by omega)]
    · rw [List.getElem?_eq_none (by simp; omega), List.getElem?_eq_none (by simp; omega)]

/-- Below the written bits nothing of the accumulator is set, also after the next bit (R39). -/
theorem setBit_low {acc : Byte} {n : Nat} (hn : n < 8) (b : Bool)
    (h : ∀ k : Fin 8, k.val < 8 - n → acc.getLsbD k.val = false) (k : Fin 8) (hk : k.val < 8 - (n + 1)) :
    (setBit acc (7 - n) b).getLsbD k.val = false := by
  rw [setBit_getLsbD _ (by omega) _ _ k.isLt, if_neg (by omega)]
  exact h k (by omega)

/-- A written code: the bytes it emits and the bits it leaves in the writer are, together, the bits the writer
held and the code (R191). -/
theorem writeCode_spec (c : Bits) (s : State) (hs : WriterInv s) : ∃ (bytes : List Byte) (acc : Byte) (n : Fin 8),
    writeCode c s = { s with rsp := s.rsp ++ bytes.map byteWord, bwAcc := acc, bwCnt := n } ∧
    bitsOf bytes ++ (readBits acc).take n.val = pending s ++ c ∧
    ∀ k : Fin 8, k.val < 8 - n.val → acc.getLsbD k.val = false := by
  induction c generalizing s with
  | nil => exact ⟨[], s.bwAcc, s.bwCnt, by simp [writeCode], by simp [pending], hs⟩
  | cons b c ih =>
    have hstep : writeCode (b :: c) s = writeCode c (writeBit b s) := rfl
    by_cases h7 : s.bwCnt = 7
    · have hw := writeBit_of_eq b h7
      have hinv : WriterInv (writeBit b s) := by rw [hw]; intro k _; simp
      obtain ⟨bytes, acc, n, h1, h2, h3⟩ := ih (writeBit b s) hinv
      refine ⟨setBit s.bwAcc (7 - s.bwCnt.val) b :: bytes, acc, n, ?_, ?_, h3⟩
      · rw [hstep, h1, hw]; simp
      · have hp : pending (writeBit b s) = [] := by rw [hw]; rfl
        have ht := take_setBit s.bwAcc 7 (by omega) b
        rw [List.take_of_length_le (by simp)] at ht
        rw [hp] at h2
        have hv : s.bwCnt.val = 7 := by rw [h7]; rfl
        rw [bitsOf_cons, List.append_assoc, h2, pending, hv, ht]
        simp
    · have hw := writeBit_of_ne b h7
      have hlt : s.bwCnt.val < 7 := by
        have := s.bwCnt.isLt
        have : s.bwCnt.val ≠ 7 := fun h => h7 (Fin.ext h)
        omega
      have hinv : WriterInv (writeBit b s) := by
        rw [hw]; intro k hk
        simp only [fin8_succ h7] at hk
        exact setBit_low (by omega) b hs k hk
      obtain ⟨bytes, acc, n, h1, h2, h3⟩ := ih (writeBit b s) hinv
      refine ⟨bytes, acc, n, ?_, ?_, h3⟩
      · rw [hstep, h1, hw]
      · have hp : pending (writeBit b s) = pending s ++ [b] := by
          rw [hw]; simp only [pending, fin8_succ h7]
          exact take_setBit _ _ (by omega) _
        rw [h2, hp]; simp

/-- Reading the accumulator whole gives the bits held and zeros (R39, R192). -/
theorem readBits_acc {s : State} (hs : WriterInv s) :
    readBits s.bwAcc = pending s ++ List.replicate (8 - s.bwCnt.val) false := by
  have hn := s.bwCnt.isLt
  apply List.ext_getElem?
  intro i
  by_cases hi : i < s.bwCnt.val
  · rw [List.getElem?_append_left (by simpa using hi), pending, List.getElem?_take_of_lt hi]
  · by_cases h8 : i < 8
    · rw [List.getElem?_append_right (by simp; omega), readBits_getElem _ _ h8, pending_length,
        List.getElem?_replicate, if_pos (by omega), hs ⟨7 - i, by omega⟩ (by simp; omega)]
    · rw [List.getElem?_eq_none (by simp; omega), List.getElem?_eq_none (by simp; omega)]

/-- Flushing with bits held emits the accumulator; with none it does nothing (R192). -/
theorem flush_cases (s : State) :
    (s.bwCnt = 0 ∧ flush s = s) ∨
    (s.bwCnt ≠ 0 ∧ flush s = { s with bwAcc := 0, bwCnt := 0, rsp := s.rsp ++ [byteWord s.bwAcc] }) := by
  by_cases h : s.bwCnt = 0
  · exact .inl ⟨h, by simp [flush, h]⟩
  · have hp : 0 < s.bwCnt.val := Nat.pos_of_ne_zero fun h0 => h (Fin.ext h0)
    exact .inr ⟨h, by rw [← byte_word]; simp [flush, hp, clearWriter, emit, emitAll]⟩

end Sys2Proof.Machine
end

