-- ==== Sys2Proof/Laws/PerInstr.lean ====
section
/-! SUPPORT. Statements made for every command as syntax, one lemma for each constructor of Instr. -/

/-- A command's word carries its opcode and its operand and is not illegal, and its operand fits its field: VAL is any 28-bit
value, BYTE any 8-bit value, and a command without an operand has an all-zero payload (30_encoding.md R111 to R114, R116). -/
def Sys2Proof.Laws.EncodesLegal.Statement (i : Sys2Proof.Instr) : Prop :=
  Sys2Proof.illegal (Sys2Proof.encode i) = false ∧
    (Sys2Proof.encode i).toNat = (Sys2Proof.opcode i).toNat * 2 ^ 28 + (Sys2Proof.operand i).toNat ∧
    match i with
    | .encSym _ => True
    | .decByte _ => (Sys2Proof.operand i).toNat < 256
    | .nop | .encBegin | .encBuild | .encEnd | .decBegin | .decEnd | .getStatus | .abort =>
      Sys2Proof.operand i = 0

namespace Sys2Proof.Laws.EncodesLegal

open Sys2Proof

theorem nop : Statement .nop := by unfold Statement; decide

theorem encBegin : Statement .encBegin := by unfold Statement; decide

theorem encSym (val : Val) : Statement (.encSym val) :=
  ⟨by simp [illegal, opcode], encode_toNat _, trivial⟩

theorem encBuild : Statement .encBuild := by unfold Statement; decide

theorem encEnd : Statement .encEnd := by unfold Statement; decide

theorem decBegin : Statement .decBegin := by unfold Statement; decide

theorem decByte (byte : Byte) : Statement (.decByte byte) := by
  have hb := byte.isLt
  have hr : byteReserved (encode (.decByte byte)) = 0#20 := by
    apply BitVec.eq_of_toNat_eq
    rw [byteReserved_toNat, encode_toNat]
    simp [opcode, operand]
    omega
  refine ⟨by simp [illegal, opcode, hr], encode_toNat _, ?_⟩
  show (operand (.decByte byte)).toNat < 256
  simp [operand]
  omega

theorem decEnd : Statement .decEnd := by unfold Statement; decide

theorem getStatus : Statement .getStatus := by unfold Statement; decide

theorem abort : Statement .abort := by unfold Statement; decide

end Sys2Proof.Laws.EncodesLegal
end

