-- ==== Sys2Proof/Laws/Ports.lean ====
section
/-! SUPPORT. What a step and its pieces can do: the edges of the ports, an accepted word, a sequence of accepted words, and the
words the block emits (70_reset_and_hazards.md R360 to R366, R371, 30_encoding.md R115). -/

namespace Sys2Proof.Machine

/-! ### Accepted words -/

theorem acceptWord_ok {w : Word} {i : Instr} (h : decode w = .ok i) (s : State) :
    acceptWord w s = exec i { s with ci := s.ci + 1 } := by
  simp [acceptWord, h]

theorem acceptWord_error {w : Word} {e : DecodeError} (h : decode w = .error e) (s : State) :
    acceptWord w s = execIllegal { s with ci := s.ci + 1 } := by
  simp [acceptWord, h]

/-- Everything an illegal word can do. -/
theorem execIllegal_cases (s : State) :
    (s.state = .error ∧ execIllegal s = .next s) ∨
    (s.state ≠ .error ∧ execIllegal s = .next (raise .illegalCmd s)) := by
  by_cases h : s.state = .error <;> simp [execIllegal, h]

@[simp] theorem feed_nil (s : State) : feed [] s = .next s := rfl

theorem feed_cons_next {w : Word} {ws : List Word} {s t : State} (h : acceptWord w s = .next t) :
    feed (w :: ws) s = feed ws t := by
  simp [feed, h]

/-- Words accepted one sequence after the other. -/
theorem feed_append_next {as bs : List Word} {s t : State} (h : feed as s = .next t) :
    feed (as ++ bs) s = feed bs t := by
  induction as generalizing s with
  | nil => cases h; rfl
  | cons a as ih =>
    simp only [List.cons_append, feed] at h ⊢
    cases ha : acceptWord a s with
    | next u => rw [ha] at h; exact ih h
    | fault r => rw [ha] at h; cases h
    | refused r => rw [ha] at h; cases h

/-- A whole sequence accepted is its first part accepted, then the rest. -/
theorem feed_append_cases {as bs : List Word} {s t : State} (h : feed (as ++ bs) s = .next t) :
    ∃ u, feed as s = .next u ∧ feed bs u = .next t := by
  induction as generalizing s with
  | nil => exact ⟨s, rfl, h⟩
  | cons a as ih =>
    simp only [List.cons_append, feed] at h ⊢
    cases ha : acceptWord a s with
    | next u => rw [ha] at h; exact ih h
    | fault r => rw [ha] at h; cases h
    | refused r => rw [ha] at h; cases h

/-- Everything an accepted word can do in ERROR: ABORT clears it, and any other leaves it, with at most one response more
(60_exceptions.md R325). -/
theorem acceptWord_inError {w : Word} {s t : State} (hs : s.state = .error) (h : acceptWord w s = .next t) :
    (decode w = .ok .abort ∧ t = clearAll { s with ci := s.ci + 1 }) ∨
    (t.state = .error ∧ t.err = s.err ∧ t.params = s.params ∧ t.rsp.length ≤ s.rsp.length + 1) := by
  cases hd : decode w with
  | error e =>
    rw [acceptWord_error hd] at h
    simp [execIllegal, hs] at h
    subst h
    simp [hs]
  | ok i =>
    rw [acceptWord_ok hd] at h
    cases i <;>
      simp [exec, execNop, execEncBegin, execEncSym, execEncBuild, execEncEnd, execDecBegin, execDecByte, execDecEnd,
        execGetStatus, execAbort, commonChecks, hs, runsInError, getStatusBody, abortBody] at h <;>
      subst h
    case abort => exact .inl ⟨rfl, rfl⟩
    all_goals exact .inr (by simp [emit, emitAll])

/-! ### Output levels -/

theorem errO_eq_true {s : State} :
    errO s = true ↔ s.state = .error ∧ s.rsp.length ≤ s.params.rspFifoDepth + 1 := by
  simp [errO, reachedRaise]

/-- Of an engine that is not stalled `err_o` is just S.state = ERROR (R45). -/
theorem errO_of_not_stalled {s : State} (h : stalled s = false) : errO s = decide (s.state = .error) := by
  have : s.rsp.length ≤ s.params.rspFifoDepth + 1 := by simp [stalled] at h; omega
  simp [errO, reachedRaise, this]

/-! ### Edges -/

/-- Everything an edge with a command offered can do (R365). -/
theorem commandEdge_cases (s : State) :
    (s.cmds = [] ∧ commandEdge s = .next s) ∨
    (s.params.rspFifoDepth < s.rsp.length ∧ commandEdge s = .next s) ∨
    ∃ w ws, s.cmds = w :: ws ∧ s.rsp.length ≤ s.params.rspFifoDepth ∧
      commandEdge s = acceptWord w { s with cmds := ws } := by
  cases hc : s.cmds with
  | nil => exact .inl ⟨rfl, by simp [commandEdge, hc]⟩
  | cons w ws =>
    by_cases hl : s.params.rspFifoDepth < s.rsp.length
    · exact .inr (.inl ⟨hl, by simp [commandEdge, hc, cmdReady, stalled, hl]⟩)
    · exact .inr (.inr ⟨w, ws, rfl, by omega, by simp [commandEdge, hc, cmdReady, stalled, hl]⟩)

/-- Everything an edge with a response taken can do (R366). -/
theorem takeEdge_cases (s : State) :
    (s.rsp = [] ∧ takeEdge s = s) ∨
    ∃ w ws, s.rsp = w :: ws ∧ takeEdge s = { s with rsp := ws, received := s.received ++ [w] } := by
  cases h : s.rsp with
  | nil => exact .inl ⟨rfl, by simp [takeEdge, h]⟩
  | cons w ws => exact .inr ⟨w, ws, rfl, by simp [takeEdge, h]⟩

/-- Everything a step can be: an edge with the host's next act, or with a command offered when no act is left. -/
theorem step_cases (s : State) :
    (s.acts = [] ∧ step s = commandEdge s) ∨
    (∃ as, s.acts = .command :: as ∧ step s = commandEdge { s with acts := as }) ∨
    (∃ as, s.acts = .take :: as ∧ step s = .next (takeEdge { s with acts := as })) ∨
    ∃ as, s.acts = .reset :: as ∧ step s = .next (resetEdge { s with acts := as }) := by
  cases h : s.acts with
  | nil => exact .inl ⟨rfl, by simp [step, nextAct, h, edge]⟩
  | cons a as =>
    cases a with
    | command => exact .inr (.inl ⟨as, rfl, by simp [step, nextAct, h, edge]⟩)
    | take => exact .inr (.inr (.inl ⟨as, rfl, by simp [step, nextAct, h, edge]⟩))
    | reset => exact .inr (.inr (.inr ⟨as, rfl, by simp [step, nextAct, h, edge]⟩))

@[simp] theorem core_step (s : State) : Sys2Proof.core.step s = step s := rfl

/-! ### Response words -/

theorem isResponse_byteWord (b : Byte) : isResponse (byteWord b) = true := by
  have h := byteWord_toNat b
  have hb := b.isLt
  have h₁ : (byteWord b).extractLsb' 28 4 = 0x1#4 := by
    apply BitVec.eq_of_toNat_eq
    simp only [BitVec.extractLsb'_toNat, h, Nat.shiftRight_eq_div_pow]; simp; omega
  have h₂ : (byteWord b).extractLsb' 8 20 = 0#20 := by
    apply BitVec.eq_of_toNat_eq
    simp only [BitVec.extractLsb'_toNat, h, Nat.shiftRight_eq_div_pow]; simp; omega
  simp [isResponse, h₁, h₂]

theorem symWord_toNat (v : Sym) : (symWord v).toNat = 0x20000000 + v.toNat := by
  have hv := v.isLt
  rw [symWord, BitVec.toNat_or, BitVec.toNat_setWidth, Nat.mod_eq_of_lt (by omega)]
  exact tag_or 0x100 hv

theorem isResponse_symWord (v : Sym) : isResponse (symWord v) = true := by
  have h := symWord_toNat v
  have hv := v.isLt
  have h₁ : (symWord v).extractLsb' 28 4 = 0x2#4 := by
    apply BitVec.eq_of_toNat_eq
    simp only [BitVec.extractLsb'_toNat, h, Nat.shiftRight_eq_div_pow]; simp; omega
  have h₂ : (symWord v).extractLsb' 21 7 = 0#7 := by
    apply BitVec.eq_of_toNat_eq
    simp only [BitVec.extractLsb'_toNat, h, Nat.shiftRight_eq_div_pow]; simp; omega
  simp [isResponse, h₁, h₂]

theorem isResponse_errWord {e : Err} (h : e ≠ .none) : isResponse (errWord e.code) = true := by
  cases e <;> first | exact absurd rfl h | decide

theorem isResponse_status (p : Phase) (e : Err) : isResponse (Response.status p e).word = true := by
  cases p <;> cases e <;> decide

/-! ### The table and the parser -/

/-- The one operation that lengthens the table keeps it within MAX_ENTRIES (20_memory.md R80). -/
theorem tabPush_bound {e : Entry} {s t : State} (h : tabPush e s = .cont t) : t.nent ≤ t.params.maxEntries := by
  rcases tabPush_cases e s with ⟨hn, hp⟩ | ⟨_, hp⟩
  · rw [hp] at h; cases h
    simpa [State.nent] using hn
  · rw [hp] at h; cases h

/-- The bits of a body byte are matched one part after the other. -/
theorem bodyBits_append (as bs : Bits) (s : State) :
    bodyBits (as ++ bs) s = (bodyBits as s).andThen (bodyBits bs) := by
  induction as generalizing s with
  | nil => rfl
  | cons a as ih =>
    simp only [List.cons_append, bodyBits]
    cases bodyBit a s with
    | cont t => simpa using ih t
    | ended t => rfl
    | fault r => rfl

/-- Bits that reach no stored code and leave the candidate below MAX_CODE_LEN only lengthen it (43_decoder.md R259). -/
theorem bodyBits_grow (u : Bits) (s : State) (hl : s.cand.length + u.length < s.params.maxCodeLen)
    (hn : ∀ e ∈ s.tab, ∀ k, 1 ≤ k → k ≤ u.length → e.code ≠ s.cand ++ u.take k) :
    bodyBits u s = .cont { s with cand := s.cand ++ u } := by
  induction u generalizing s with
  | nil => simp [bodyBits]
  | cons x xs ih =>
    have hf : findCode (s.cand ++ [x]) s.tab = none :=
      findCode_eq_none.2 fun e he => by simpa using hn e he 1 (by simp) (by simp)
    have hb : bodyBit x s = .cont { s with cand := s.cand ++ [x] } := by
      simp at hl
      simp [bodyBit, hf, show s.cand.length + 1 ≠ s.params.maxCodeLen by omega]
    simp only [bodyBits, hb, Flow.andThen_cont]
    rw [ih]
    · simp
    · simp at hl ⊢; omega
    · intro e he k h1 h2
      have := hn e he (k + 1) (by omega) (by simpa using h2)
      simpa using this

end Sys2Proof.Machine
end

