-- ==== Sys2Proof/Tests/Slice0.lean ====
section
/-! SUPPORT. Small tests, their expected results taken from the spec's encodings, examples and vectors, and for every statement
with hypotheses a witness that meets them. -/

open Sys2Proof Sys2Proof.Machine Sys2Proof.Claims

namespace Sys2Proof.Tests

/-! ### Helpers -/

/-- Small parameters. -/
def small : Params := ⟨4, 4, 8, 2⟩

/-- The reset state with small parameters, in a given phase. -/
def inPhase (p : Phase) : State := { State.resetWith small with state := p }

/-- The ERROR state after SEQUENCE. -/
def inError : State := { inPhase .error with err := .sequence }

/-- The table of R227's example: A=`0`, B=`10`, sentinel=`11`. -/
def abTable : List Entry :=
  [⟨65, 2, [false]⟩, ⟨66, 1, [true, false]⟩, ⟨0x110000#21, 1, [true, true]⟩]

/-- ENC_BODY with that table. -/
def encoding : State := { inPhase .encBody with tab := abTable, total := 3 }

/-- DEC_BODY with that table. -/
def decoding : State := { inPhase .decBody with tab := abTable.map fun e => { e with cnt := 0 } }

/-- DEC_HEADER in a given parser phase. -/
def parsing (p : HpPhase) : State := { inPhase .decHeader with hpPhase := p }

/-- The next state, if there is one. -/
def after (r : Result) : Option State :=
  match r with
  | .next s => some s
  | .fault _ => none
  | .refused _ => none

/-- The words of the responses in the next state. -/
def emitted (r : Result) : Option (List Word) := (after r).map State.rsp

/-- The phase of the next state. -/
def phaseAfter (r : Result) : Option Phase := (after r).map State.state

/-- Whether there is a next state. -/
def goesOn (r : Result) : Bool := (after r).isSome

theorem exists_next {r : Result} (h : goesOn r = true) : ∃ t, r = .next t := by
  cases r with
  | next t => exact ⟨t, rfl⟩
  | fault f => cases h
  | refused f => cases h

/-- A next state of which a property holds. -/
theorem exists_next_with {r : Result} {p : State → Prop} [DecidablePred p]
    (h : ((after r).any fun t => decide (p t)) = true) : ∃ t, r = .next t ∧ p t := by
  cases r with
  | next t => exact ⟨t, rfl, by simpa [after] using h⟩
  | fault f => cases h
  | refused f => cases h

/-! ### Decoding: words written out from R111 to R114, bit by bit -/

theorem test_decode_nop : decode 0b0000_0000000000000000000000000000#32 = .ok .nop := by decide

theorem test_decode_encBegin : decode 0b0001_0000000000000000000000000000#32 = .ok .encBegin := by decide

theorem test_decode_encSym : decode 0b0010_1000000000000000000001000001#32 = .ok (.encSym 0x8000041#28) := by
  decide

theorem test_decode_encBuild : decode 0b0011_0000000000000000000000000000#32 = .ok .encBuild := by decide

theorem test_decode_encEnd : decode 0b0100_0000000000000000000000000000#32 = .ok .encEnd := by decide

theorem test_decode_decBegin : decode 0b0101_0000000000000000000000000000#32 = .ok .decBegin := by decide

theorem test_decode_decByte : decode 0b0110_00000000000000000000_10001010#32 = .ok (.decByte 0x8A#8) := by
  decide

theorem test_decode_decEnd : decode 0b0111_0000000000000000000000000000#32 = .ok .decEnd := by decide

theorem test_decode_getStatus : decode 0b1000_0000000000000000000000000000#32 = .ok .getStatus := by decide

theorem test_decode_abort : decode 0b1110_0000000000000000000000000000#32 = .ok .abort := by decide

/-- R116, R113: the reserved bit next to BYTE. -/
theorem test_decode_decByte_reserved : decode 0b0110_00000000000000000001_00001010#32 = .error .reservedBits := by
  decide

theorem test_decode_reserved_opcode : decode 0b1101_0000000000000000000000000000#32 = .error .reservedOpcode := by
  decide

theorem test_table_word : decodeTableWord 32 0x6000000A = some (.decByte 0x0A#8) := by decide

/-- R120's examples. -/
theorem test_assemble_char : assembleLine "ENC_SYM 'A'".toList = .ok [0x20000041#32] := by decide

theorem test_assemble_hex : assembleLine "DEC_BYTE 0x0A ; the newline".toList = .ok [0x6000000A#32] := by decide

/-- The word of vector K9, written as there. -/
theorem test_assemble_rawWord : assembleLine ".word 0x60000100".toList = .ok [0x60000100#32] := by decide

/-- R121. -/
theorem test_assemble_encode : assembleLine "ENCODE \"A\"".toList =
    .ok [0x10000000#32, 0x20000041#32, 0x30000000#32, 0x20000041#32, 0x40000000#32] := by decide

/-- R122 with R34 and R320. -/
theorem test_listing_status : (Response.status .error .fmtDupCode).listing = "STATUS ERROR, FMT_DUP_CODE".toList := by
  decide

/-! ### Well-formedness: an ill-formed term for each check -/

theorem test_wf_defaults : Params.defaults.wf = true := by decide

theorem test_wf_maxEntries : (⟨1, 1, 2, 1⟩ : Params).wf = false := by decide

theorem test_wf_maxCodeLen : (⟨2, 0, 2, 1⟩ : Params).wf = false := by decide

theorem test_wf_countWidth : (⟨2, 1, 1, 1⟩ : Params).wf = false := by decide

theorem test_wf_fifoDepth : (⟨2, 1, 2, 0⟩ : Params).wf = false := by decide

theorem test_wf_val : (RawCommand.encSym 0x10000000).wf = false ∧ (RawCommand.encSym 0x0FFFFFFF).wf = true := by
  decide

theorem test_wf_byte : (RawCommand.decByte 0x100).wf = false ∧ (RawCommand.decByte 0xFF).wf = true := by decide

/-! ### Commands -/

/-- R301's example. -/
theorem test_nop : after (exec .nop encoding) = some encoding := by decide

/-- R221's example. -/
theorem test_encBegin : phaseAfter (exec .encBegin (inPhase .idle)) = some .encCount := by decide

/-- R222's example. -/
theorem test_encSym_count : (after (exec (.encSym 0x41) (inPhase .encCount))).map (fun s => (s.tab, s.total)) =
    some ([⟨65, 1, []⟩], 1) := by decide

/-- R225's example, its fourth ENC_SYM: the bits 0101111 are held and A=`0` fills the byte. -/
theorem test_encSym_code : emitted (exec (.encSym 0x41) { encoding with bwAcc := 0b01011110#8, bwCnt := 7 }) =
    some [0x1000005E#32] := by decide

/-- R226's and R227's example, the table of AAB. -/
theorem test_encBuild : emitted (exec .encBuild
    { inPhase .encCount with tab := [⟨65, 2, []⟩, ⟨66, 1, []⟩], total := 3 }) =
    some (([0x36, 0x35, 0x20, 0x30, 0x20, 0x36, 0x36, 0x20, 0x31, 0x30, 0x20, 0x31, 0x31, 0x31, 0x34, 0x31,
      0x31, 0x32, 0x20, 0x31, 0x31, 0x20, 0x0A] : List Byte).map fun b => (Response.byte b).word) := by decide

/-- R228's example: after A, A, B the bits 0010 are held. -/
theorem test_encEnd : emitted (exec .encEnd { encoding with bwAcc := 0b00100000#8, bwCnt := 4 }) =
    some [0x1000002C#32, 0x30000000#32] := by decide

/-- R251's example. -/
theorem test_decBegin : phaseAfter (exec .decBegin (inPhase .decTail)) = some .decHeader := by decide

/-- R252's example. -/
theorem test_decByte_header : (after (exec (.decByte 0x36) (parsing .symWait))).map (fun s => (s.hpVal, s.hpPhase)) =
    some (6, .symIn) := by decide

/-- R259's example. -/
theorem test_decByte_body : emitted (exec (.decByte 0x2C) decoding) =
    some [0x20000041#32, 0x20000041#32, 0x20000042#32, 0x30000001#32] := by decide

/-- R263. -/
theorem test_decEnd_header : emitted (exec .decEnd (parsing .symWait)) = some [0xF0000017#32] := by decide

theorem test_decEnd_body : emitted (exec .decEnd decoding) = some [0xF0000020#32] := by decide

/-- R302's corner case. -/
theorem test_getStatus_error : emitted (exec .getStatus inError) = some [0x4F020000#32] := by decide

theorem test_getStatus_count : emitted (exec .getStatus (inPhase .encCount)) = some [0x41000000#32] := by decide

/-- R303's example. -/
theorem test_abort : (after (exec .abort { inPhase .error with err := .fmtDupCode })).map (fun s => (s.state, s.err)) =
    some (.idle, .none) := by decide

/-! ### The pieces -/

/-- R166's codes of the table of R153. -/
theorem test_codes_abracadabra :
    let codes := codesOf [⟨65, 5, []⟩, ⟨66, 2, []⟩, ⟨82, 2, []⟩, ⟨67, 1, []⟩, ⟨68, 1, []⟩, ⟨10, 1, []⟩, sentinelEntry]
    ([65, 10, 67, 66, 68, 0x110000, 82] : List Sym).map (codeFor codes) =
      [[false], [true, false, false, false], [true, false, false, true], [true, false, true],
        [true, true, false, false], [true, true, false, true], [true, true, true]] := by decide

/-- R191's example. -/
theorem test_writeCode : (writeCode [true, false] { inPhase .encBody with bwAcc := 0b01011100#8, bwCnt := 6 }).rsp =
    [0x1000005E#32] := by decide

/-- R192's example. -/
theorem test_flush : (flush (writeCode [true, false] (inPhase .encBody))).rsp = [0x10000080#32] := by decide

/-- R195's example. -/
theorem test_readBits : readBits 0x5E = [false, true, false, true, true, true, true, false] := by decide

/-- The next step runs the word placed for it. -/
theorem test_withFetchWord : phaseAfter (step (State.reset.withFetchWord 32 0x10000000)) = some .encCount := by
  decide

/-- With words that stall the engine the placed word still runs next. -/
theorem test_withFetchWord_stalled :
    emitted (step ({ inPhase .idle with rsp := [1, 2, 3, 4] }.withFetchWord 32 0x80000000)) =
      some [3, 4, 0x40000000#32] := by decide

/-! ### Witnesses -/

theorem witness_DecodeAndEncodeAgree : decode 0x6000000A#32 = .ok (.decByte 0x0A#8) := by decide

theorem witness_DecodeByOpcodeAndPayload :
    (0x2FFFFFFF / 2 ^ 28 = 2) ∧ (0x600000FF / 2 ^ 28 = 6 ∧ 0x600000FF % 2 ^ 28 < 256) ∧
    (0x60000100 / 2 ^ 28 = 6 ∧ 256 ≤ 0x60000100 % 2 ^ 28) ∧ (0xE0000000 / 2 ^ 28 = 14 ∧ 0xE0000000 % 2 ^ 28 = 0) ∧
    (0x00000001 / 2 ^ 28 = 0 ∧ 0x00000001 % 2 ^ 28 ≠ 0) ∧ 0xF0000000 / 2 ^ 28 ∈ [9, 10, 11, 12, 13, 15] := by decide

theorem witness_ListingAssembles :
    (RawCommand.encSym 0x0FFFFFFF).toInstr? = some (.encSym 0xFFFFFFF#28) ∧
    (RawCommand.encSym 0x10000000).toInstr? = none ∧
    (RawCommand.decByte 0xFF).toInstr? = some (.decByte 0xFF#8) ∧ (RawCommand.decByte 0x100).toInstr? = none ∧
    (RawCommand.plain .abort).toInstr? = some .abort ∧ (∀ c ∈ [0, 0x0FFFFFFF], c ≤ 0x0FFFFFFF) ∧
    ∀ b ∈ [0, 0xFF], b ≤ 0xFF := by decide

theorem witness_ErrorCodesOfTheTable : Err.code .bodyNoMatch = Err.code .bodyNoMatch := rfl

theorem witness_IllegalWordRaisesIllegalCmd :
    illegal 0x60000100#32 = true ∧ illegal 0x00000001#32 = true ∧ illegal 0xF0000000#32 = true ∧
    (inPhase .encBody).state ≠ .error ∧ inError.state = .error := by decide

theorem witness_SequenceOutsideLegalStates :
    (inPhase .encCount).state ≠ .error ∧ (inPhase .encCount).state ∉ legalPhases .encEnd ∧
    (inPhase .decBody).state ∉ legalPhases .encBegin ∧ (inPhase .decTail).state ∉ legalPhases (.encSym 65) ∧
    (inPhase .encBody).state ∉ legalPhases .encBuild ∧ (inPhase .encBody).state ∉ legalPhases .decBegin ∧
    (inPhase .idle).state ∉ legalPhases (.decByte 0) ∧ (inPhase .idle).state ∉ legalPhases .decEnd ∧
    encoding.state ∈ legalPhases (.encSym 67) ∧ ∃ t, exec (.encSym 67) encoding = .next t ∧ t.state = .error := by
  refine ⟨by decide, by decide, by decide, by decide, by decide, by decide, by decide, by decide, by decide, ?_⟩
  exact exists_next_with (by decide)

theorem witness_ErrorStateIsSticky :
    inError.state = .error ∧ (0x10000000#32 : Word) ≠ 0x00000000#32 ∧ (0x10000000#32 : Word) ≠ 0x80000000#32 ∧
      (0x10000000#32 : Word) ≠ 0xE0000000#32 := by decide

theorem witness_ErrorLeftOnlyByAbortOrReset :
    inError.state = .error ∧
    (∃ t, step { inError with cmds := [0xE0000000#32] } = .next t ∧ t.state ≠ .error) ∧
    ∃ t, step { inError with acts := [.reset] } = .next t ∧ t.state ≠ .error :=
  ⟨by decide, exists_next_with (by decide), exists_next_with (by decide)⟩

theorem witness_NopDoesNothing : (1 : Val) ≠ 0 ∧ (0xFFFFFFF : Val) ≠ 0 ∧ (inPhase .encBody).state ≠ .error := by
  decide

theorem witness_GetStatusReports : (0x8000000 : Val) ≠ 0 ∧ (inPhase .decTail).state ≠ .error := by decide

theorem witness_AbortClears : (1 : Val) ≠ 0 ∧ (inPhase .idle).state ≠ .error := by decide

theorem witness_WriteBitFillsFromTheTop :
    ({ encoding with bwCnt := 7 } : State).bwCnt = 7 ∧ ({ encoding with bwCnt := 6 } : State).bwCnt ≠ 7 := by decide

theorem witness_FlushEmitsPartialByte :
    encoding.bwCnt = 0 ∧ ({ encoding with bwAcc := 0xFE, bwCnt := 7 } : State).bwCnt ≠ 0 ∧
    WriterInv { encoding with bwAcc := 0xFE, bwCnt := 7 } := by decide

theorem witness_WrittenBitsReadBack : encoding.bwAcc = 0 ∧ encoding.bwCnt = 0 := by decide

theorem witness_MergeTakesTheTwoLeastTrees :
    let ar : Arena := abTable.map leafNode
    let live := [0, 1, 2]
    live.Nodup ∧ (∀ i ∈ live, i < ar.length) ∧
    (∀ i ∈ live, ∀ j ∈ live, i ≠ j → (ar[i]?).map Node.minsym ≠ (ar[j]?).map Node.minsym) ∧ 2 ≤ live.length := by
  decide

theorem witness_BuildLeavesOneTree : abTable ≠ [] ∧ [sentinelEntry] ≠ [] := by decide

/-- The largest total, at which the next symbol overflows. -/
def full : State :=
  { inPhase .encCount with tab := [⟨65, 253, []⟩, ⟨66, 1, []⟩], total := 254 }

theorem witness_WeightsNeverWrap : Inv full ∧ full.state = .encCount ∧ Inv (inPhase .encCount) := by
  and_intros <;> decide

theorem witness_CodeLengthBounds : 2 ≤ (abTable.take 2).length ∧ codesOf (abTable.take 2) ≠ [] := by decide

theorem witness_OutputIgnoresTableOrder :
    DistinctSyms abTable ∧
    (abTable.map fun e => (e.sym, e.cnt)).Perm (abTable.reverse.map fun e => (e.sym, e.cnt)) := by decide

theorem witness_OneSymbolCodes :
    (0x10FFFF#21 : Sym).toNat < 0x110000 ∧ (0#21 : Sym).toNat < 0x110000 ∧ 1 ≤ 1 ∧ 1 < 2 := by decide

theorem witness_EncBeginStartsCounting :
    (inPhase .idle).state = .idle ∧ (inPhase .decTail).state = .decTail := by decide

theorem witness_EncSymRejectsNonScalars :
    (inPhase .encCount).state = .encCount ∧ encoding.state = .encBody ∧ notScalar (0xD800 : Val).toNat ∧
    notScalar (0xDFFF : Val).toNat ∧ notScalar (0x110000 : Val).toNat ∧ notScalar (0xFFFFFFF : Val).toNat ∧
    ¬ notScalar (0xD7FF : Val).toNat ∧ ¬ notScalar (0xE000 : Val).toNat ∧ ¬ notScalar (0x10FFFF : Val).toNat := by
  unfold notScalar; decide

/-- A table with one slot left, the sentinel's. -/
def threeSymbols : State :=
  { inPhase .encCount with tab := [⟨65, 1, []⟩, ⟨66, 1, []⟩, ⟨67, 1, []⟩], total := 3 }

theorem witness_EncSymCountsInFirstPass :
    ¬ notScalar (68 : Val).toNat ∧ full.state = .encCount ∧ full.total = 2 ^ full.params.countWidth - 2 ∧
    threeSymbols.state = .encCount ∧ threeSymbols.total ≠ 2 ^ threeSymbols.params.countWidth - 2 ∧
    (threeSymbols.tab = [⟨65, 1, []⟩] ++ ⟨66, 1, []⟩ :: [⟨67, 1, []⟩] ∧ ∀ x ∈ [(⟨65, 1, []⟩ : Entry)], x.sym ≠ 66) ∧
    (∀ x ∈ threeSymbols.tab, x.sym ≠ 68) ∧ threeSymbols.nent = threeSymbols.params.maxEntries - 1 ∧
    (∀ x ∈ (inPhase .encCount).tab, x.sym ≠ 68) ∧ (inPhase .encCount).nent < (inPhase .encCount).params.maxEntries - 1 := by
  unfold notScalar; decide

theorem witness_EncSymWritesCodeInSecondPass :
    encoding.state = .encBody ∧ ¬ notScalar (65 : Val).toNat ∧ (∀ x ∈ encoding.tab, x.sym ≠ 67) ∧
    (∃ e ∈ encoding.tab, e.sym = 65) ∧ DistinctSyms encoding.tab ∧ WriterInv encoding := by
  unfold notScalar; decide

theorem witness_EncBuildMakesCodesAndHeader :
    threeSymbols.state = .encCount ∧ threeSymbols.nent < threeSymbols.params.maxEntries ∧
    (∀ c ∈ codesOf (threeSymbols.tab ++ [sentinelEntry]), c.2.length ≤ threeSymbols.params.maxCodeLen) ∧
    let s := { threeSymbols with params := ⟨4, 1, 8, 2⟩ }
    s.nent < s.params.maxEntries ∧ ∃ c ∈ codesOf (s.tab ++ [sentinelEntry]), s.params.maxCodeLen < c.2.length := by
  decide

theorem witness_HeaderLayout : abTable ≠ [] := by decide

theorem witness_DecimalNumeral : (0x110000 : Nat) ≠ 0 := by decide

theorem witness_EncEndTerminatesStream :
    encoding.state = .encBody ∧ (∃ e ∈ encoding.tab, e.sym = 0x110000#21) ∧ DistinctSyms encoding.tab ∧
    WriterInv encoding := by decide

theorem idle_inv : Inv (inPhase .idle) := by and_intros <;> decide

theorem witness_EncodeStreamIsHeaderThenBody :
    Inv (inPhase .idle) ∧ (inPhase .idle).state = .idle ∧
    ∃ t, feed (encodeWords [65] [65, 65]) (inPhase .idle) = .next t ∧ t.state = .idle :=
  ⟨idle_inv, by decide, exists_next_with (by decide)⟩

theorem witness_FirstPassIsTheFrequencyTable :
    (inPhase .decTail).state = .decTail ∧
    ∃ t, feed (0x10000000#32 :: ([65, 66, 65] : List Val).map (fun x => encode (.encSym x))) (inPhase .decTail) =
      .next t ∧ t.state = .encCount :=
  ⟨by decide, exists_next_with (by decide)⟩

theorem witness_EmptyInputEncodes :
    (inPhase .idle).state = .idle ∧ (inPhase .idle).params.wf = true ∧
    (⟨2, 1, 2, 1⟩ : Params).wf = true := by decide

theorem witness_DecBeginStartsHeader :
    (inPhase .idle).state = .idle ∧ (inPhase .decTail).state = .decTail := by decide

theorem witness_HeaderBytesInsideTokens :
    (∀ p, (parsing p).state = .decHeader) ∧ 0x0D#8 ∈ sepBytes ∧ 0x20#8 ∈ sepBytes ∧ 0x0A#8 ∉ sepBytes ∧
    isDigitByte 0x30#8 ∧ isDigitByte 0x39#8 ∧
    (¬ isDigitByte 0x2F#8 ∧ (0x2F#8 : Byte) ≠ 0x0A#8 ∧ 0x2F#8 ∉ sepBytes) ∧
    (¬ isDigitByte 0x3A#8 ∧ (0x3A#8 : Byte) ≠ 0x0A#8 ∧ 0x3A#8 ∉ sepBytes) ∧
    (1 ≤ small.maxCodeLen ∧ (0x30#8 : Byte) = 0x30#8) ∧
    ((0x32#8 : Byte) ≠ 0x30#8 ∧ (0x32#8 : Byte) ≠ 0x31#8 ∧ (0x32#8 : Byte) ≠ 0x0A#8 ∧ 0x32#8 ∉ sepBytes) := by
  refine ⟨fun p => rfl, ?_⟩
  unfold isDigitByte; decide

theorem witness_SymbolTokenVerdict :
    (parsing .symIn).state = .decHeader ∧ (parsing .symIn).hpPhase = .symIn ∧ 0x20#8 ∈ sepBytes ∧
    ({ parsing .symIn with hpNd := true } : State).hpNd = true ∧ (parsing .symIn).hpNd = false ∧
    ¬ (¬ notScalar 0x110001 ∨ (0x110001 : Nat) = 0x110000) ∧ ¬ (¬ notScalar 0xD800 ∨ (0xD800 : Nat) = 0x110000) ∧
    (¬ notScalar 0x10FFFF ∨ (0x10FFFF : Nat) = 0x110000) ∧ (¬ notScalar 0x110000 ∨ (0x110000 : Nat) = 0x110000) := by
  unfold notScalar; decide

/-- A code token read to its end. -/
def codeRead : State :=
  { parsing .codeIn with hpSym := 65, hpCode := [false, true], hpLen := 2, tab := [⟨66, 0, [true]⟩] }

theorem witness_CodeTokenVerdict :
    codeRead.state = .decHeader ∧ codeRead.hpPhase = .codeIn ∧
    ({ codeRead with hpBad := true } : State).hpBad = true ∧ codeRead.hpBad = false ∧
    codeRead.params.maxCodeLen < ({ codeRead with hpLen := 5 } : State).hpLen ∧
    codeRead.hpLen ≤ codeRead.params.maxCodeLen ∧ (¬ ∃ e ∈ codeRead.tab, e.code = codeRead.hpCode) ∧
    codeRead.nent < codeRead.params.maxEntries ∧
    (∃ e ∈ codeRead.tab, e.code = ({ codeRead with hpCode := [true], hpLen := 1 } : State).hpCode) ∧
    let s := { codeRead with params := ⟨1, 4, 8, 2⟩ }
    s.nent = s.params.maxEntries := by decide

theorem witness_NewlineBetweenTokens :
    (parsing .symWait).state = .decHeader ∧ (parsing .symWait).hpPhase = .symWait ∧
    (parsing .codeWait).hpPhase = .codeWait := by decide

theorem witness_SymbolNumeralSaturates :
    let ds : List Byte := [0x30, 0x39]
    ds ≠ [] ∧ (∀ d ∈ ds, isDigitByte d) ∧ (parsing .symWait).state = .decHeader ∧
    (parsing .symWait).hpPhase = .symWait := by
  unfold isDigitByte; decide

theorem witness_HeaderParsesBack :
    let s := parsing .symWait
    s.state = .decHeader ∧ s.hpPhase = .symWait ∧ s.tab = [] ∧ abTable.length ≤ s.params.maxEntries ∧
    DistinctCodes abTable ∧
    ∀ e ∈ abTable, isHeaderSymbol e.sym.toNat = true ∧ 1 ≤ e.code.length ∧ e.code.length ≤ s.params.maxCodeLen := by
  decide

/-- DEC_BODY with the table of header H17, `65 0 66 01 1114112 1`, which is not prefix-free: 66 is never matched. -/
def overlapping : State :=
  { inPhase .decBody with tab := [⟨65, 0, [false]⟩, ⟨66, 0, [false, true]⟩, ⟨0x110000#21, 0, [true]⟩] }

/-- DEC_BODY with the one code `0` and MAX_CODE_LEN = 4. -/
def oneCode : State := { inPhase .decBody with tab := [⟨65, 0, [false]⟩] }

/-- The byte leaves a candidate, after one carried over from the byte before. -/
theorem witness_BodyByteMatchesGreedily :
    let a : Entry := ⟨65, 0, [false]⟩
    let es : List Entry := ⟨66, 0, [true, false]⟩ :: List.replicate 6 a
    let s : State := { decoding with cand := [true] }
    s.state = .decBody ∧ matchedInOrder s es ∧ s.cand ++ readBits 0x01 = es.flatMap Entry.code ++ [true] ∧
    noMatch s (candAfter s es) [true] ∧ [true].length < s.params.maxCodeLen := by decide

/-- The byte reaches the sentinel, with a table that is not prefix-free (vector B13). -/
theorem witness_BodyByteMatchesGreedily_sentinel :
    let es : List Entry := [⟨65, 0, [false]⟩]
    let e : Entry := ⟨0x110000#21, 0, [true]⟩
    overlapping.state = .decBody ∧ ¬ PrefixFree (overlapping.tab.map Entry.code) ∧ matchedInOrder overlapping es ∧
    e.sym = 0x110000#21 ∧ firstMatch overlapping (candAfter overlapping es) e ∧
    overlapping.cand ++ readBits 0x60 =
      es.flatMap Entry.code ++ e.code ++ [true, false, false, false, false, false] := by decide

/-- The candidate fills at once, and after a symbol of the same byte. -/
theorem witness_BodyNoMatchAtTheLimit :
    let a : Entry := ⟨65, 0, [false]⟩
    let u := [true, false, false, true]
    (oneCode.state = .decBody ∧ matchedInOrder oneCode [] ∧
      oneCode.cand ++ readBits 0x9F = [].flatMap Entry.code ++ u ++ [true, true, true, true] ∧
      u.length = oneCode.params.maxCodeLen ∧ (candAfter oneCode []).length < u.length ∧
      noMatch oneCode (candAfter oneCode []) u) ∧
    (matchedInOrder oneCode [a, a] ∧
      oneCode.cand ++ readBits 0x27 = [a, a].flatMap Entry.code ++ u ++ [true, true] ∧
      (candAfter oneCode [a, a]).length < u.length ∧ noMatch oneCode (candAfter oneCode [a, a]) u) := by decide

/-- Symbols of a byte whose last bits raise: err_o stays low while a symbol waits for room and is high when only RSP_ERR does. -/
theorem test_errO_at_the_raise :
    let s := { oneCode with params := { small with rspFifoDepth := 1 } }
    (after (exec (.decByte 0x27) s)).map (fun t => (t.state, errO t, errO (takeEdge t), errO (takeEdge (takeEdge t)))) =
      some (.error, false, true, true) := by decide

theorem witness_EndOfDecode :
    (inPhase .decTail).state = .decTail ∧ (parsing .symWait).state = .decHeader ∧ decoding.state = .decBody := by decide

theorem witness_DecodeOfEncodeIsTheInput :
    Inv (inPhase .idle) ∧ (inPhase .idle).state = .idle ∧
    ∃ t, feed (encodeWords [] []) (inPhase .idle) = .next t ∧ t.state = .idle ∧
      t.rsp = (inPhase .idle).rsp ++ (([0x31, 0x31, 0x31, 0x34, 0x31, 0x31, 0x32, 0x20, 0x30, 0x20, 0x0A, 0x00] :
        List Byte).map byteWord) ++ [0x30000000#32] :=
  ⟨idle_inv, by decide, exists_next_with (by decide)⟩

theorem witness_FamilyFrames :
    (∃ t, exec .nop encoding = .next t) ∧ (∃ t, exec .encBegin (inPhase .idle) = .next t) ∧
    (∃ t, exec (.encSym 65) (inPhase .encCount) = .next t) ∧ (∃ t, exec .encBuild threeSymbols = .next t) ∧
    ((∃ t, exec (.encSym 65) encoding = .next t) ∧ encoding.state ≠ .encCount) ∧
    (∃ t, exec .encEnd encoding = .next t) ∧ (∃ t, exec .decBegin (inPhase .idle) = .next t) ∧
    (∃ t, exec (.decByte 0x36) (parsing .symWait) = .next t) ∧
    ((∃ t, exec (.decByte 0x2C) decoding = .next t) ∧ decoding.state ≠ .decHeader) ∧
    (∃ t, exec .decEnd (inPhase .decTail) = .next t) ∧ (∃ t, exec .getStatus encoding = .next t) ∧
    ∃ t, exec .abort encoding = .next t := by
  refine ⟨?_, ?_, ?_, ?_, ⟨?_, by decide⟩, ?_, ?_, ?_, ⟨?_, by decide⟩, ?_, ?_, ?_⟩ <;> exact exists_next (by decide)

theorem witness_ResponsesOnlyAppended : ∃ t, acceptWord 0x80000000#32 encoding = .next t := exists_next (by decide)

theorem witness_EveryAcceptedWordAdvancesCi :
    (∃ t, acceptWord 0x10000000#32 encoding = .next t) ∧ ∃ t, acceptWord 0xF0000000#32 inError = .next t :=
  ⟨exists_next (by decide), exists_next (by decide)⟩

theorem witness_ResetEdgeFromAnyState : ({ inError with acts := [.reset, .take] } : State).acts = .reset :: [.take] := by
  decide

theorem witness_ResponseHandshake :
    let s : State := { encoding with acts := [.take], rsp := [1, 2, 3] }
    s.acts = .take :: [] ∧ s.rsp = 1 :: [2, 3] ∧ encoding.rsp = [] := by decide

theorem witness_StepRunsTheDecodedCommand :
    let s : State := { inPhase .idle with cmds := [0x10000000#32, 0xF0000000#32], rsp := [1, 2] }
    s.cmds = 0x10000000#32 :: [0xF0000000#32] ∧ s.rsp.length ≤ s.params.rspFifoDepth ∧
    decode 0x10000000#32 = .ok .encBegin ∧ decode 0xF0000000#32 = .error .reservedOpcode ∧ s.acts = [] ∧
    ({ s with acts := [.command] } : State).acts = .command :: [] := by decide

theorem witness_StalledEngineWaits :
    let s : State := { inPhase .idle with cmds := [0x10000000#32], rsp := [1, 2, 3] }
    s.params.rspFifoDepth < s.rsp.length ∧ s.acts = [] ∧
    ({ s with acts := [.command] } : State).acts = .command :: [] ∧ (inPhase .idle).cmds = [] := by decide

theorem witness_FetchWordRunsNext :
    decode 0x2FFFFFFF#32 = .ok (.encSym 0xFFFFFFF#28) ∧
    ({ inPhase .idle with rsp := [1, 2] } : State).rsp.length ≤ (inPhase .idle).params.rspFifoDepth := by decide

theorem witness_ResetBetweenResponses :
    let s : State := { encoding with acts := [.take, .reset], rsp := [1, 2] }
    1 ≤ s.rsp.length ∧ s.acts = List.replicate 1 .take ++ .reset :: [] := by decide

theorem witness_ScheduleDoesNotChangeResponses :
    let s : State := { inPhase .idle with cmds := [0x80000000#32, 0x10000000#32] }
    HostAct.reset ∉ [HostAct.command, .command, .take] ∧ HostAct.reset ∉ [HostAct.take, .command, .take, .command] ∧
    (∃ t, Sys2Proof.core.run 3 { s with
        acts := [.command, .command, .take], params := { s.params with rspFifoDepth := 16 } } = .next t ∧ t.cmds = []) ∧
    ∃ u, Sys2Proof.core.run 4 { s with
        acts := [.take, .command, .take, .command], params := { s.params with rspFifoDepth := 1 } } = .next u ∧
      u.cmds = [] := by
  refine ⟨by decide, by decide, ?_, ?_⟩
  · exact exists_next_with (r := Sys2Proof.core.run 3 _) (by decide)
  · exact exists_next_with (r := Sys2Proof.core.run 4 _) (by decide)

theorem witness_OutputLevels :
    oneCode.state ≠ .error ∧
    (∃ t, acceptWord 0x60000027#32 oneCode = .next t ∧ t.state = .error) ∧
    errO inError = true ∧
    (∃ t, step { inError with acts := [.reset] } = .next t ∧ errO t = false) ∧
    ∃ t, step { inError with cmds := [0xE0000000#32], rsp := [1, 2] } = .next t ∧ errO t = false :=
  ⟨by decide, exists_next_with (by decide), by decide, exists_next_with (by decide), exists_next_with (by decide)⟩

theorem witness_StepKeepsTheInvariant :
    Inv State.reset ∧ Inv encoding ∧ Inv decoding ∧ Inv codeRead ∧ Inv inError ∧ Inv threeSymbols := by
  and_intros <;> decide

theorem witness_ResetMeetsTheInvariant : Params.defaults.wf = true ∧ (⟨2, 1, 2, 1⟩ : Params).wf = true := by decide

end Sys2Proof.Tests
end

section
/-! PROOFS. The invariant in IDLE, and after reset (10_state.md R46). -/

open Sys2Proof Sys2Proof.Machine

namespace Sys2Proof.Proofs

/-- An empty table meets its bounds as soon as `S.total` does (R36 to R38). -/
theorem tableInv_of_tab_nil {s : State} (htab : s.tab = []) (htotal : s.total ≤ s.params.totalMax) : TableInv s := by
  refine ⟨?_, htotal, ?_⟩
  · simp [State.nent, htab]
  · simp [htab]

/-- A zero accumulator leaves no stray bit, however many bits it holds (R39). -/
theorem writerInv_of_bwAcc_zero {s : State} (h : s.bwAcc = 0) : WriterInv s := by
  intro k _
  simp [h]

/-- In IDLE the invariant is its clauses that hold in every phase: those of the other phases have nothing to say. -/
theorem inv_of_idle {s : State} (hp : s.params.wf = true) (hstate : s.state = .idle) (herr : s.err = .none)
    (htab : TableInv s) (hwriter : WriterInv s) (hparser : ParserInv s) (hrsp : ResponsesInv s) : Inv s := by
  have hstatus : StatusInv s := iff_of_true herr (by simp [hstate])
  refine ⟨hp, hstatus, htab, hwriter, hparser, hrsp, ?_⟩
  simp [hstate]

/-- The parser's fields and the candidate are zero or empty after reset (R46), below every bound of R33. -/
theorem resetWith_parserInv (p : Params) : ParserInv (State.resetWith p) :=
  ⟨Nat.zero_le _, Nat.zero_le _, Nat.zero_le _, Nat.zero_le _⟩

/-- Settles O60: the reset state is in IDLE with an empty table, a zero accumulator and nothing to respond, so that every
clause of the invariant but the constraints on the parameters (R9) holds for any parameters. -/
theorem resetMeetsTheInvariant : Obligations.ResetMeetsTheInvariant := by
  intro p hp
  have htab : TableInv (State.resetWith p) := tableInv_of_tab_nil rfl (Nat.zero_le _)
  have hrsp : ResponsesInv (State.resetWith p) := rfl
  exact inv_of_idle hp rfl rfl htab (writerInv_of_bwAcc_zero rfl) (resetWith_parserInv p) hrsp

end Sys2Proof.Proofs
end

section
/-! PROOFS. What a piece of a command's pseudocode may answer, and when a command's pseudocode runs at all
(10_state.md R14, 60_exceptions.md R324 to R328). -/

open Sys2Proof Sys2Proof.Machine

namespace Sys2Proof.Proofs

/-- A triple's postcondition for a piece of pseudocode: `C` of the state it goes on from, `E` of the state it ends the command
in, and `F` where it faults (`False`: it does not; `True`: nothing is said). -/
def Yields (F : Prop) (C E : State → Prop) : Flow → Prop
  | .cont t => C t
  | .ended t => E t
  | .fault _ => F

/-- The rule of sequencing. -/
theorem Yields.andThen {F : Prop} {C D E : State → Prop} {f : Flow} {g : State → Flow} (hf : Yields F C E f)
    (hg : ∀ t, C t → Yields F D E (g t)) : Yields F D E (f.andThen g) := by
  cases f with
  | cont t => exact hg t hf
  | ended t => exact hf
  | fault r => exact hf

/-- The rule of consequence. -/
theorem Yields.mono {F : Prop} {C C' E E' : State → Prop} {f : Flow} (hf : Yields F C E f) (hC : ∀ t, C t → C' t)
    (hE : ∀ t, E t → E' t) : Yields F C' E' f := by
  cases f with
  | cont t => exact hC t hf
  | ended t => exact hE t hf
  | fault r => exact hf

/-- A command whose pseudocode does not fault answers a next state. -/
theorem Yields.exists_next {P : State → Prop} {f : Flow} (h : Yields False P P f) : ∃ t, f.result = .next t ∧ P t := by
  cases f with
  | cont t => exact ⟨t, rfl, h⟩
  | ended t => exact ⟨t, rfl, h⟩
  | fault r => exact h.elim

/-- Where a command answers a next state, its pseudocode's postcondition holds there. -/
theorem Yields.of_next {F : Prop} {P : State → Prop} {f : Flow} {t : State} (h : Yields F P P f)
    (ht : f.result = .next t) : P t := by
  cases f with
  | cont u => cases ht; exact h
  | ended u => cases ht; exact h
  | fault r => cases ht

/-- A command that runs in ERROR is legal in every state, so what runs is legal in either case (R325, R327). -/
theorem legalIn_of_runsInError {i : Instr} (h : runsInError i = true) (p : Phase) : legalIn i p = true := by
  cases i with
  | nop | getStatus | abort => rfl
  | encBegin | encSym | encBuild | encEnd | decBegin | decByte | decEnd => cases h

/-- The common checks drop the word, raise SEQUENCE, or run the pseudocode of a command that is legal here (R325, R327). -/
theorem commonChecks_legal_cases (i : Instr) (body : State → Flow) (s : State) :
    commonChecks i body s = .next s ∨
    (s.state ≠ .error ∧ commonChecks i body s = .next (raise .sequence s)) ∨
    (legalIn i s.state = true ∧ commonChecks i body s = (body s).result) := by
  rcases commonChecks_cases i body s with ⟨-, -, h⟩ | ⟨he, -, h⟩ | ⟨⟨-, hr⟩ | ⟨-, hl⟩, h⟩
  · exact .inl h
  · exact .inr (.inl ⟨he, h⟩)
  · exact .inr (.inr ⟨legalIn_of_runsInError hr _, h⟩)
  · exact .inr (.inr ⟨hl, h⟩)

/-! ### The rows of R327 -/

theorem legalIn_encBegin {p : Phase} (h : legalIn .encBegin p = true) : p = .idle ∨ p = .decTail := by
  cases p <;> simp [legalIn] at h ⊢

theorem legalIn_decBegin {p : Phase} (h : legalIn .decBegin p = true) : p = .idle ∨ p = .decTail := by
  cases p <;> simp [legalIn] at h ⊢

theorem legalIn_encSym {v : Val} {p : Phase} (h : legalIn (.encSym v) p = true) : p = .encCount ∨ p = .encBody := by
  cases p <;> simp [legalIn] at h ⊢

theorem legalIn_encBuild {p : Phase} (h : legalIn .encBuild p = true) : p = .encCount := by
  cases p <;> simp [legalIn] at h ⊢

theorem legalIn_encEnd {p : Phase} (h : legalIn .encEnd p = true) : p = .encBody := by
  cases p <;> simp [legalIn] at h ⊢

theorem legalIn_decByte {b : Byte} {p : Phase} (h : legalIn (.decByte b) p = true) :
    p = .decHeader ∨ p = .decBody ∨ p = .decTail := by
  cases p <;> simp [legalIn] at h ⊢

theorem legalIn_decEnd {p : Phase} (h : legalIn .decEnd p = true) : p = .decHeader ∨ p = .decBody ∨ p = .decTail := by
  cases p <;> simp [legalIn] at h ⊢

end Sys2Proof.Proofs
end

section
/-! PROOFS. The codes of a table with distinct symbols are nonempty, none begins with another, and each symbol has one
(40_tree_construction.md R161 to R164). -/

open Sys2Proof Sys2Proof.Machine

namespace Sys2Proof.Proofs

/-- Neither of two bitstrings begins with the other. -/
def Apart (a b : Bits) : Prop := ¬ a <+: b ∧ ¬ b <+: a

theorem Apart.symm {a b : Bits} (h : Apart a b) : Apart b a := ⟨h.2, h.1⟩

/-- Bitstrings that extend a common path by different bits are apart. -/
theorem apart_of_branch {p a b : Bits} (ha : p ++ [false] <+: a) (hb : p ++ [true] <+: b) : Apart a b := by
  have key : ∀ c : Bits, p ++ [false] <+: c → p ++ [true] <+: c → False := by
    intro c h₀ h₁
    have := (List.prefix_of_prefix_length_le h₀ h₁ (by simp)).eq_of_length (by simp)
    simp at this
  exact ⟨fun h => key b (ha.trans h) hb, fun h => key a ha (hb.trans h)⟩

/-- Every code below a path extends the path (R161). -/
theorem codes_extend_path {t : Tree} {p : Bits} : ∀ c ∈ t.codes p, p <+: c.2 := by
  induction t generalizing p with
  | leaf w v => simp [Tree.codes]
  | node l r ihl ihr =>
    intro c hc
    rcases List.mem_append.1 hc with hc | hc
    · exact (List.prefix_append p [false]).trans (ihl c hc)
    · exact (List.prefix_append p [true]).trans (ihr c hc)

/-- The codes of a tree's leaves are pairwise apart (R164). -/
theorem codes_pairwise_apart (t : Tree) (p : Bits) : (t.codes p).Pairwise fun c d => Apart c.2 d.2 := by
  induction t generalizing p with
  | leaf w v => simp [Tree.codes]
  | node l r ihl ihr =>
    refine List.pairwise_append.2 ⟨ihl _, ihr _, fun c hc d hd => ?_⟩
    exact apart_of_branch (codes_extend_path c hc) (codes_extend_path d hd)

/-- In a tree of two or more leaves no code is empty. -/
theorem codes_ne_nil {t : Tree} (h : 2 ≤ t.leaves.length) {p : Bits} : ∀ c ∈ t.codes p, c.2 ≠ [] := by
  cases t with
  | leaf w v => simp [Tree.leaves] at h
  | node l r =>
    intro c hc hnil
    rcases List.mem_append.1 hc with hc | hc
    · simpa [hnil] using codes_extend_path c hc
    · simpa [hnil] using codes_extend_path c hc

/-- The codes of a table: one for each entry's symbol, pairwise apart, none empty (R162, R164). -/
theorem codesOf_prefixCode {tab : List Entry} (h : tab ≠ []) :
    ((codesOf tab).map Prod.fst).Perm (tab.map Entry.sym) ∧
    ((codesOf tab).Pairwise fun c d => Apart c.2 d.2) ∧ ∀ c ∈ codesOf tab, c.2 ≠ [] := by
  by_cases h2 : 2 ≤ tab.length
  · obtain ⟨t, hm, hc⟩ := codesOf_spec h2
    have hperm : t.leaves.Perm (tab.map Entry.sym) := leafTrees_leaves tab ▸ hm.leaves
    have hlen : 2 ≤ t.leaves.length := by rw [hperm.length_eq, List.length_map]; exact h2
    rw [hc, Tree.codes_fst]
    exact ⟨hperm, codes_pairwise_apart t [], codes_ne_nil hlen⟩
  · have : 0 < tab.length := List.length_pos_iff.2 h
    obtain ⟨e, rfl⟩ := List.length_eq_one_iff.1 (show tab.length = 1 by omega)
    simp [codesOf]

/-- A symbol that has a code is looked up to one of its codes. -/
theorem codeFor_mem {codes : List (Sym × Bits)} {v : Sym} (h : v ∈ codes.map Prod.fst) :
    (v, codeFor codes v) ∈ codes := by
  obtain ⟨c, hc, rfl⟩ := List.mem_map.1 h
  unfold codeFor
  split
  next d hd =>
    have hv : d.1 = c.1 := by simpa using List.find?_some hd
    exact hv ▸ List.mem_of_find?_eq_some hd
  next hnone => simpa using List.find?_eq_none.1 hnone c hc

/-- Every entry's symbol is looked up to a code of the table's. -/
theorem codeFor_codesOf_mem {tab : List Entry} (h : tab ≠ []) {e : Entry} (he : e ∈ tab) :
    (e.sym, codeFor (codesOf tab) e.sym) ∈ codesOf tab := by
  obtain ⟨hperm, -, -⟩ := codesOf_prefixCode h
  exact codeFor_mem (hperm.mem_iff.2 (List.mem_map_of_mem he))

@[simp] theorem assignCodes_length (codes : List (Sym × Bits)) (tab : List Entry) :
    (assignCodes codes tab).length = tab.length := by
  simp [assignCodes]

@[simp] theorem assignCodes_map_sym (codes : List (Sym × Bits)) (tab : List Entry) :
    (assignCodes codes tab).map Entry.sym = tab.map Entry.sym := by
  simp [assignCodes, Function.comp_def]

@[simp] theorem sumCounts_assignCodes (codes : List (Sym × Bits)) (tab : List Entry) :
    sumCounts (assignCodes codes tab) = sumCounts tab := by
  simp [sumCounts, assignCodes, Function.comp_def]

@[simp] theorem sumCounts_append (as bs : List Entry) : sumCounts (as ++ bs) = sumCounts as + sumCounts bs := by
  simp [sumCounts]

@[simp] theorem sumCounts_singleton (e : Entry) : sumCounts [e] = e.cnt := by
  simp [sumCounts]

/-- The codes ENC_BUILD writes into a table of distinct symbols are pairwise apart (R164, R226). -/
theorem prefixFree_assignCodes {tab : List Entry} (hd : DistinctSyms tab) :
    PrefixFree ((assignCodes (codesOf tab) tab).map Entry.code) := by
  rcases eq_or_ne tab [] with rfl | hne
  · simp [assignCodes]
  obtain ⟨-, hapart, -⟩ := codesOf_prefixCode hne
  have hsymm : Std.Symm fun c d : Sym × Bits => Apart c.2 d.2 := ⟨fun _ _ => Apart.symm⟩
  have hall := hapart.forall
  simp only [PrefixFree, assignCodes, List.map_map, List.pairwise_map]
  refine (List.pairwise_map.1 hd).imp_of_mem fun {a b} ha hb hab => ?_
  exact hall (codeFor_codesOf_mem hne ha) (codeFor_codesOf_mem hne hb) fun heq => hab (congrArg Prod.fst heq)

end Sys2Proof.Proofs
end

section
/-! PROOFS. The invariant by phase: what holds in every phase, and what the phase adds (10_state.md R35 to R41). -/

open Sys2Proof Sys2Proof.Machine

namespace Sys2Proof.Proofs

/-- The constraints of R9 as numbers. -/
theorem params_wf_iff {p : Params} :
    p.wf = true ↔ 2 ≤ p.maxEntries ∧ 1 ≤ p.maxCodeLen ∧ 2 ≤ p.countWidth ∧ 1 ≤ p.rspFifoDepth := by
  simp [Params.wf, and_assoc]

/-- The largest total is one below the largest weight, which leaves room for the sentinel (R10, R157). -/
theorem totalMax_succ {p : Params} (h : p.wf = true) : p.totalMax + 1 = p.countMax := by
  obtain ⟨-, -, hwidth, -⟩ := params_wf_iff.1 h
  have hpow : 2 ^ 2 ≤ 2 ^ p.countWidth := Nat.pow_le_pow_right (by decide) hwidth
  simp only [Params.totalMax, Params.countMax]
  omega

/-- The clauses of the invariant that hold in every phase, but for S.err's. -/
structure CoreInv (s : State) : Prop where
  params : s.params.wf = true
  table : TableInv s
  writer : WriterInv s
  parser : ParserInv s
  responses : ResponsesInv s

namespace CoreInv

variable {s : State} (h : CoreInv s)
include h

theorem two_le_maxEntries : 2 ≤ s.params.maxEntries := (params_wf_iff.1 h.params).1

theorem one_le_maxCodeLen : 1 ≤ s.params.maxCodeLen := by
  obtain ⟨-, hlen, -, -⟩ := params_wf_iff.1 h.params
  exact hlen

theorem total_le : s.total ≤ s.params.totalMax := by
  obtain ⟨-, htotal, -⟩ := h.table
  exact htotal

theorem cand_length_le : s.cand.length ≤ s.params.maxCodeLen := by
  obtain ⟨-, -, -, hcand⟩ := h.parser
  exact hcand

/-- The clauses of every phase speak of no phase. -/
theorem setState (p : Phase) : CoreInv { s with state := p } :=
  ⟨h.params, h.table, h.writer, h.parser, h.responses⟩

end CoreInv

/-- The clause of the invariant for a phase (R37, R38, R254, R259). -/
def PhaseInv : Phase → State → Prop
  | .encCount, s => EncCountInv s
  | .encBody, s => EncBodyInv s
  | .decHeader, s => DecodeInv s ∧ HeaderInv s
  | .decBody, s => DecodeInv s ∧ s.cand.length < s.params.maxCodeLen
  | .decTail, s => DecodeInv s
  | .idle, _ | .error, _ => True

/-- The invariant, its clauses grouped by when they hold. -/
theorem inv_iff (s : State) : Inv s ↔ CoreInv s ∧ StatusInv s ∧ PhaseInv s.state s := by
  constructor
  · intro ⟨hp, hs, ht, hw, hr, hresp, hcount, hbody, hdec, hheader, hcand⟩
    refine ⟨⟨hp, ht, hw, hr, hresp⟩, hs, ?_⟩
    cases h : s.state with
    | idle | error => trivial
    | encCount => exact hcount h
    | encBody => exact hbody h
    | decHeader => exact ⟨hdec (.inl h), hheader h⟩
    | decBody => exact ⟨hdec (.inr (.inl h)), hcand h⟩
    | decTail => exact hdec (.inr (.inr h))
  · intro ⟨⟨hp, ht, hw, hr, hresp⟩, hs, hphase⟩
    refine ⟨hp, hs, ht, hw, hr, hresp, ?_⟩
    cases h : s.state with
    | idle | error => simp
    | encCount | encBody | decHeader | decBody | decTail => simpa [h, PhaseInv] using hphase

/-- The invariant in a given phase that is not ERROR. -/
structure InPhase (p : Phase) (s : State) : Prop where
  core : CoreInv s
  state : s.state = p
  err : s.err = .none
  phase : PhaseInv p s

theorem InPhase.inv {p : Phase} {s : State} (h : InPhase p s) (hp : p ≠ .error) : Inv s :=
  (inv_iff s).2 ⟨h.core, iff_of_true h.err (h.state ▸ hp), h.state ▸ h.phase⟩

theorem coreInv_of_inv {s : State} (h : Inv s) : CoreInv s := ((inv_iff s).1 h).1

theorem inPhase_of_inv {p : Phase} {s : State} (h : Inv s) (hs : s.state = p) (hp : p ≠ .error) : InPhase p s := by
  obtain ⟨hcore, hstatus, hphase⟩ := (inv_iff s).1 h
  exact ⟨hcore, hs, hstatus.2 (hs ▸ hp), hs ▸ hphase⟩

/-- IDLE asks nothing more than the clauses of every phase. -/
theorem CoreInv.toIdle {s : State} (h : CoreInv s) (hs : s.state = .idle) (he : s.err = .none) : Inv s :=
  InPhase.inv ⟨h, hs, he, trivial⟩ (by decide)

/-! ### The clauses of every phase under the shared operations -/

theorem isResponse_word {r : Response} (h : r ≠ .err .none) : isResponse r.word = true := by
  cases r with
  | byte b => exact byte_word b ▸ isResponse_byteWord b
  | sym v => exact sym_word v ▸ isResponse_symWord v
  | done d => cases d <;> decide
  | status p e => exact isResponse_status p e
  | err e => exact err_word e ▸ isResponse_errWord fun he => h (he ▸ rfl)

theorem CoreInv.emitAll {s : State} (h : CoreInv s) {ws : List Word} (hws : ∀ w ∈ ws, isResponse w = true) :
    CoreInv (emitAll ws s) := by
  have hall : (s.rsp ++ ws).all isResponse = true := by
    rw [List.all_append, h.responses, List.all_eq_true.2 hws]; rfl
  exact ⟨h.params, h.table, h.writer, h.parser, hall⟩

theorem CoreInv.emit {s : State} (h : CoreInv s) {r : Response} (hr : r ≠ .err .none) : CoreInv (emit r s) :=
  h.emitAll (by simpa using isResponse_word hr)

theorem CoreInv.emitBytes {s : State} (h : CoreInv s) (bs : List Byte) :
    CoreInv (Machine.emitAll (bs.map fun b => (Response.byte b).word) s) :=
  h.emitAll (by simp [byte_word, isResponse_byteWord])

theorem CoreInv.clearWriter {s : State} (h : CoreInv s) : CoreInv (clearWriter s) :=
  ⟨h.params, h.table, writerInv_of_bwAcc_zero rfl, h.parser, h.responses⟩

/-- The writer's own bytes are responses, and it keeps R39. -/
theorem CoreInv.writeCode {s : State} (h : CoreInv s) (c : Bits) : CoreInv (writeCode c s) := by
  obtain ⟨bytes, acc, n, heq, -, hlow⟩ := writeCode_spec c s h.writer
  have hbytes : CoreInv (Machine.emitAll (bytes.map byteWord) s) := h.emitAll (by simp [isResponse_byteWord])
  rw [heq]
  exact ⟨h.params, h.table, hlow, h.parser, hbytes.responses⟩

theorem CoreInv.flush {s : State} (h : CoreInv s) : CoreInv (flush s) := by
  rcases flush_cases s with ⟨-, heq⟩ | ⟨-, heq⟩
  · rw [heq]
    exact h
  · have hbyte : CoreInv (Machine.emitAll [byteWord s.bwAcc] s) := h.emitAll (by simp [isResponse_byteWord])
    rw [heq]
    exact hbyte.clearWriter

/-- The error entry leads to a state that meets the invariant, whatever phase it leaves (R324, R35). -/
theorem CoreInv.raise {s : State} (h : CoreInv s) {e : Err} (he : e ≠ .none) : Inv (raise e s) := by
  have hcore : CoreInv (Machine.emit (.err e) s) := h.emit (by simpa using he)
  exact (inv_iff _).2 ⟨⟨hcore.params, hcore.table, hcore.writer, hcore.parser, hcore.responses⟩,
    iff_of_false he (by simp), trivial⟩

/-- A command that ends with an error ends where the invariant holds. -/
theorem CoreInv.raiseEnd {s : State} (h : CoreInv s) {e : Err} (he : e ≠ .none) {C : State → Prop} :
    Yields False C Inv (raiseEnd e s) :=
  h.raise he

/-- The clauses of every phase for a state with another table: only the table's own bounds are in question. -/
theorem CoreInv.setTab {s : State} (h : CoreInv s) {tab : List Entry} {total : Nat}
    (ht : TableInv { s with tab := tab, total := total }) : CoreInv { s with tab := tab, total := total } :=
  ⟨h.params, ht, h.writer, h.parser, h.responses⟩

end Sys2Proof.Proofs
end

section
/-! PROOFS. The invariant through the encode commands (42_encoder.md R221 to R228). -/

open Sys2Proof Sys2Proof.Machine

namespace Sys2Proof.Proofs

theorem encBegin_keeps_inv {s : State} (h : Inv s) (hl : legalIn .encBegin s.state = true) :
    Yields False Inv Inv (encBeginBody s) := by
  have hp : s.state ≠ .error := by rcases legalIn_encBegin hl with hs | hs <;> simp [hs]
  have hin := inPhase_of_inv h rfl hp
  have htab : TableInv { s with tab := [], total := 0 } := tableInv_of_tab_nil rfl (Nat.zero_le _)
  have hcore := (hin.core.setTab htab).clearWriter
  have hfree : 0 < s.params.maxEntries := by have := hin.core.two_le_maxEntries; omega
  refine InPhase.inv (p := .encCount) ⟨hcore.setState _, rfl, hin.err, hfree, ?_⟩ (by decide)
  simp [DistinctSyms, sumCounts]

/-- A count is at most the sum of the counts. -/
theorem cnt_le_sumCounts {tab : List Entry} {e : Entry} (he : e ∈ tab) : e.cnt ≤ sumCounts tab :=
  List.le_sum_of_mem (List.mem_map_of_mem he)

/-- In ENC_COUNT a slot is free for the sentinel (R36). -/
theorem InPhase.slot_free {s : State} (h : InPhase .encCount s) : s.nent < s.params.maxEntries := h.phase.1

/-- `Count(VAL)` of a symbol the table has (R223). -/
theorem bump_keeps_encCount {s : State} (h : InPhase .encCount s) {v : Sym} (ht : s.total ≠ s.params.totalMax)
    (hv : (findSym v s.tab).isSome = true) :
    InPhase .encCount { s with tab := bumpCount v s.tab, total := s.total + 1 } := by
  obtain ⟨hfree, hdistinct, hentries, hsum⟩ := h.phase
  obtain ⟨hnent, htotal, hbounds⟩ := h.core.table
  have hcm := totalMax_succ h.core.params
  refine ⟨h.core.setTab ⟨by simpa using hnent, ?_, ?_⟩, h.state, h.err, by simpa using hfree, ?_, ?_, ?_⟩
  · show s.total + 1 ≤ s.params.totalMax
    omega
  · intro e he
    obtain ⟨a, ha, -, hcode, hcnt⟩ := mem_bumpCount he
    have := cnt_le_sumCounts ha
    exact ⟨by show e.cnt ≤ s.params.countMax; omega, hcode ▸ (hbounds a ha).2⟩
  · rw [DistinctSyms, bumpCount_map_sym]
    exact hdistinct
  · intro e he
    obtain ⟨a, ha, hsym, -, hcnt⟩ := mem_bumpCount he
    have := (hentries a ha).2
    exact ⟨hsym ▸ (hentries a ha).1, by omega⟩
  · show sumCounts (bumpCount v s.tab) = s.total + 1
    rw [bumpCount_sum (findSym_isSome.1 hv), hsum]

/-- A symbol that no entry has can be added to the table. -/
theorem distinctSyms_append {tab : List Entry} (h : DistinctSyms tab) {e : Entry} (he : ∀ a ∈ tab, a.sym ≠ e.sym) :
    DistinctSyms (tab ++ [e]) := by
  simp only [DistinctSyms, List.map_append, List.map_cons, List.map_nil]
  refine List.Nodup.append h (List.nodup_singleton _) ?_
  simpa [List.disjoint_singleton] using he

/-- Lengthening the table within its capacity keeps its bounds (R36). -/
theorem tableInv_append {s : State} (h : TableInv s) {e : Entry} {total : Nat} (hfree : s.tab.length < s.params.maxEntries)
    (ht : total ≤ s.params.totalMax) (hcnt : e.cnt ≤ s.params.countMax) (hcode : e.code.length ≤ s.params.maxCodeLen) :
    TableInv { s with tab := s.tab ++ [e], total := total } := by
  obtain ⟨-, -, hbounds⟩ := h
  refine ⟨by simpa using hfree, ht, fun a ha => ?_⟩
  rcases List.mem_append.1 ha with ha | ha
  · exact hbounds a ha
  · rw [List.mem_singleton.1 ha]
    exact ⟨hcnt, hcode⟩

/-- `Count(VAL)` of a symbol that is new (R223). -/
theorem push_keeps_encCount {s : State} (h : InPhase .encCount s) {v : Sym} (hscalar : isScalar v.toNat = true)
    (ht : s.total ≠ s.params.totalMax) (hv : findSym v s.tab = none) (hroom : s.nent ≠ s.params.maxEntries - 1) :
    InPhase .encCount { s with tab := s.tab ++ [⟨v, 1, []⟩], total := s.total + 1 } := by
  obtain ⟨hfree, hdistinct, hentries, hsum⟩ := h.phase
  have htotal := h.core.total_le
  have hcm := totalMax_succ h.core.params
  simp only [nent_eq] at hfree hroom
  refine ⟨h.core.setTab (tableInv_append h.core.table hfree (by omega) ?_ (Nat.zero_le _)), h.state, h.err, ?_,
    distinctSyms_append hdistinct (findSym_eq_none.1 hv), ?_, ?_⟩
  · show 1 ≤ s.params.countMax
    omega
  · show (s.tab ++ [_]).length < s.params.maxEntries
    simp; omega
  · intro e he
    rcases List.mem_append.1 he with he | he
    · exact hentries e he
    · exact List.mem_singleton.1 he ▸ ⟨hscalar, Nat.le_refl 1⟩
  · simp [hsum]

theorem count_keeps_inv {s : State} (h : InPhase .encCount s) {v : Sym} (hv : isScalar v.toNat = true) :
    Yields False Inv Inv (count v s) := by
  unfold count
  split_ifs with ht hknown hfull
  · exact h.core.raiseEnd (by decide)
  · exact (bump_keeps_encCount h ht hknown).inv (by decide)
  · exact h.core.raiseEnd (by decide)
  · have hnone : findSym v s.tab = none := by simpa using hknown
    rcases tabPush_cases ⟨v, 1, []⟩ s with ⟨-, hpush⟩ | ⟨hge, -⟩
    · rw [hpush]
      exact (push_keeps_encCount h hv ht hnone hfull).inv (by decide)
    · have := h.slot_free
      omega

/-- Written bits leave the table and the phase alone. -/
theorem InPhase.writeCode {s : State} (h : InPhase .encBody s) (c : Bits) : InPhase .encBody (writeCode c s) := by
  refine ⟨h.core.writeCode c, by simpa using h.state, by simpa using h.err, ?_⟩
  simp only [PhaseInv, EncBodyInv, writeCode_tab, writeCode_total]
  exact h.phase

theorem code_keeps_inv {s : State} (h : InPhase .encBody s) (v : Sym) : Yields False Inv Inv (code v s) := by
  unfold code
  cases findSym v s.tab with
  | some e => exact (h.writeCode e.code).inv (by decide)
  | none => exact h.core.raiseEnd (by decide)

/-- Narrowing an accepted VAL to a symbol loses nothing (R11). -/
theorem symOfVal_toNat {val : Val} (h : isScalar val.toNat = true) : (symOfVal val).toNat = val.toNat := by
  simp [isScalar] at h
  simp [symOfVal]
  omega

theorem encSym_keeps_inv {s : State} (h : Inv s) {val : Val} (hl : legalIn (.encSym val) s.state = true) :
    Yields False Inv Inv (encSymBody val s) := by
  unfold encSymBody
  split_ifs with hval hcount
  · exact count_keeps_inv (inPhase_of_inv h hcount (by decide)) (by rwa [symOfVal_toNat hval])
  · have hbody : s.state = .encBody := (legalIn_encSym hl).resolve_left hcount
    exact code_keeps_inv (inPhase_of_inv h hbody (by decide)) _
  · exact (coreInv_of_inv h).raiseEnd (by decide)

/-- The table ENC_BUILD makes codes for: ENC_COUNT's, with the sentinel counted once (R226). -/
def withSentinel (s : State) : State := { s with tab := s.tab ++ [⟨sentinel, 1, []⟩] }

theorem sym_ne_sentinel_of_isScalar {v : Sym} (h : isScalar v.toNat = true) : v ≠ sentinel := by
  rintro rfl
  exact absurd h (by decide)

/-- The clauses of every phase with the sentinel's entry added. -/
theorem withSentinel_core {s : State} (h : InPhase .encCount s) : CoreInv (withSentinel s) := by
  have htotal := h.core.total_le
  have hcm := totalMax_succ h.core.params
  have hcnt : 1 ≤ s.params.countMax := by omega
  exact h.core.setTab (tableInv_append h.core.table h.slot_free htotal hcnt (Nat.zero_le _))

theorem withSentinel_distinctSyms {s : State} (h : InPhase .encCount s) : DistinctSyms (withSentinel s).tab := by
  obtain ⟨-, hdistinct, hentries, -⟩ := h.phase
  exact distinctSyms_append hdistinct fun a ha => sym_ne_sentinel_of_isScalar (hentries a ha).1

/-- The entries of the table with its codes: the old ones, each with its symbol's code. -/
theorem mem_assignCodes {codes : List (Sym × Bits)} {tab : List Entry} {e : Entry} (he : e ∈ assignCodes codes tab) :
    ∃ a ∈ tab, e.sym = a.sym ∧ e.cnt = a.cnt ∧ e.code = codeFor codes a.sym := by
  obtain ⟨a, ha, rfl⟩ := List.mem_map.1 he
  exact ⟨a, ha, rfl, rfl, rfl⟩

/-- The table after ENC_BUILD is ENC_BODY's (R37, R226). -/
theorem assignCodes_encBodyInv {s : State} (h : InPhase .encCount s) :
    EncBodyInv { withSentinel s with tab := assignCodes (codesOf (withSentinel s).tab) (withSentinel s).tab } := by
  obtain ⟨-, -, hentries, hsum⟩ := h.phase
  have hd := withSentinel_distinctSyms h
  have hne : (withSentinel s).tab ≠ [] := by simp [withSentinel]
  obtain ⟨-, -, hnonempty⟩ := codesOf_prefixCode hne
  refine ⟨by rw [DistinctSyms, assignCodes_map_sym]; exact hd, ?_, ?_, prefixFree_assignCodes hd, ?_⟩
  · have hold : s.tab.countP (fun e => decide (e.sym = sentinel)) = 0 :=
      List.countP_eq_zero.2 fun e he => by simpa using sym_ne_sentinel_of_isScalar (hentries e he).1
    rw [assignCodes, List.countP_map]
    show (withSentinel s).tab.countP (fun e => decide (e.sym = sentinel)) = 1
    simp [withSentinel, hold]
  · intro e he
    obtain ⟨a, ha, hsym, hcnt, hcode⟩ := mem_assignCodes he
    have hcode' : e.code ≠ [] := hcode ▸ hnonempty _ (codeFor_codesOf_mem hne ha)
    rw [hsym, hcnt]
    rcases List.mem_append.1 ha with ha | ha
    · exact ⟨by simp [isHeaderSymbol, (hentries a ha).1], (hentries a ha).2, hcode'⟩
    · rw [List.mem_singleton.1 ha]
      exact ⟨by decide, Nat.le_refl 1, hcode'⟩
  · show sumCounts (assignCodes _ _) = s.total + 1
    simp [withSentinel, hsum]

/-- The rest of ENC_BUILD: with every code within MAX_CODE_LEN the header goes out and pass 2 begins (R226). -/
theorem buildCodes_keeps_inv {s : State} (h : InPhase .encCount s) :
    Yields False Inv Inv (buildCodes (withSentinel s)) := by
  have hcore := withSentinel_core h
  obtain ⟨hnent, htotal, hbounds⟩ := hcore.table
  have hne : (withSentinel s).tab ≠ [] := by simp [withSentinel]
  simp only [buildCodes]
  split_ifs with hlong
  · exact hcore.raiseEnd (by decide)
  · have hshort : ∀ c ∈ codesOf (withSentinel s).tab, c.2.length ≤ s.params.maxCodeLen := by
      intro c hc
      by_contra hlt
      exact hlong (List.any_eq_true.2 ⟨c, hc, decide_eq_true (Nat.lt_of_not_le hlt)⟩)
    have htable : TableInv
        { withSentinel s with tab := assignCodes (codesOf (withSentinel s).tab) (withSentinel s).tab } := by
      refine ⟨by simpa using hnent, htotal, fun e he => ?_⟩
      obtain ⟨a, ha, -, hcnt, hcode⟩ := mem_assignCodes he
      exact ⟨hcnt ▸ (hbounds a ha).1, hcode ▸ hshort _ (codeFor_codesOf_mem hne ha)⟩
    have hemitted := (hcore.setTab htable).emitBytes
      (headerBytes (assignCodes (codesOf (withSentinel s).tab) (withSentinel s).tab))
    exact InPhase.inv (p := .encBody)
      ⟨hemitted.clearWriter.setState _, rfl, h.err, assignCodes_encBodyInv h⟩ (by decide)

theorem encBuild_keeps_inv {s : State} (h : Inv s) (hl : legalIn .encBuild s.state = true) :
    Yields False Inv Inv (encBuildBody s) := by
  have hcount := inPhase_of_inv h (legalIn_encBuild hl) (by decide)
  rcases tabPush_cases ⟨sentinel, 1, []⟩ s with ⟨-, hpush⟩ | ⟨hge, -⟩
  · rw [encBuildBody, hpush]
    exact buildCodes_keeps_inv hcount
  · have := hcount.slot_free
    omega

/-- In ENC_BODY some entry holds the sentinel (R37), so ENC_END finds it. -/
theorem exists_sentinelEntry {s : State} (h : InPhase .encBody s) : ∃ e, findSym sentinel s.tab = some e := by
  obtain ⟨-, hone, -⟩ := h.phase
  obtain ⟨e, he, hsym⟩ := List.countP_pos_iff.1 (hone ▸ Nat.one_pos)
  exact Option.isSome_iff_exists.1 (findSym_isSome.2 ⟨e, he, by simpa using hsym⟩)

theorem encEnd_keeps_inv {s : State} (h : Inv s) (hl : legalIn .encEnd s.state = true) :
    Yields False Inv Inv (encEndBody s) := by
  have hbody := inPhase_of_inv h (legalIn_encEnd hl) (by decide)
  obtain ⟨e, he⟩ := exists_sentinelEntry hbody
  have hdone := ((hbody.core.writeCode e.code).flush).emit (r := .done .enc) (by decide)
  simp only [encEndBody, he]
  exact CoreInv.toIdle (hdone.setState _) rfl (by simpa using hbody.err)

end Sys2Proof.Proofs
end

section
/-! PROOFS. The invariant through the header parser (43_decoder.md R251 to R257). -/

open Sys2Proof Sys2Proof.Machine

namespace Sys2Proof.Proofs

theorem decBegin_keeps_inv {s : State} (h : Inv s) (hl : legalIn .decBegin s.state = true) :
    Yields False Inv Inv (decBeginBody s) := by
  have hp : s.state ≠ .error := by rcases legalIn_decBegin hl with hs | hs <;> simp [hs]
  obtain ⟨hcore, -, herr, -⟩ := inPhase_of_inv h rfl hp
  have htab : TableInv { s with tab := [] } := tableInv_of_tab_nil rfl hcore.total_le
  have hparser : ParserInv (clearAll s) := ⟨Nat.zero_le _, Nat.zero_le _, Nat.zero_le _, Nat.zero_le _⟩
  refine InPhase.inv (p := .decHeader)
    ⟨⟨hcore.params, htab, hcore.writer, hparser, hcore.responses⟩, rfl, herr, ?_⟩ (by decide)
  simp [PhaseInv, DecodeInv, HeaderInv, DistinctCodes]

/-- DEC_HEADER with all of its invariant but what the parser's token asks (`HeaderInv`). -/
structure Parsing (s : State) : Prop where
  core : CoreInv s
  state : s.state = .decHeader
  err : s.err = .none
  table : DecodeInv s

theorem InPhase.parsing {s : State} (h : InPhase .decHeader s) : Parsing s := ⟨h.core, h.state, h.err, h.phase.1⟩

theorem Parsing.inPhase {s : State} (h : Parsing s) (ht : HeaderInv s) : InPhase .decHeader s :=
  ⟨h.core, h.state, h.err, h.table, ht⟩

/-- A move of the parser: only the bounds of its own fields are in question. -/
theorem Parsing.move {s : State} (h : Parsing s) {ph : HpPhase} {v : Nat} {nd : Bool} {y : Sym} {c : Bits} {n : Nat}
    {bad : Bool} (hv : v ≤ sentinelVal + 1) (hc : c.length ≤ s.params.maxCodeLen) (hn : n ≤ s.params.maxCodeLen + 1) :
    Parsing { s with hpPhase := ph, hpVal := v, hpNd := nd, hpSym := y, hpCode := c, hpLen := n, hpBad := bad } :=
  ⟨⟨h.core.params, h.core.table, h.core.writer, ⟨hv, hc, hn, h.core.cand_length_le⟩, h.core.responses⟩, h.state,
    h.err, h.table⟩

/-- Outside a code token, with no symbol waiting for its code, the parser's token asks nothing. -/
theorem headerInv_of_symPhase {s : State} (h : s.hpPhase = .symWait ∨ s.hpPhase = .symIn) : HeaderInv s := by
  rcases h with h | h <;> simp [HeaderInv, h]

/-- A move of the parser to or inside a symbol token (R254). -/
theorem Parsing.symToken {s : State} (h : Parsing s) {ph : HpPhase} {v : Nat} {nd : Bool}
    (hph : ph = .symWait ∨ ph = .symIn) (hv : v ≤ sentinelVal + 1) :
    InPhase .decHeader { s with hpPhase := ph, hpVal := v, hpNd := nd } := by
  obtain ⟨-, hc, hn, -⟩ := h.core.parser
  exact (h.move hv hc hn).inPhase (headerInv_of_symPhase hph)

/-- A digit is at most 9. -/
theorem digitVal_le {c : Byte} (h : classify c = .digit) : digitVal c ≤ 9 := by
  unfold classify at h
  split_ifs at h with hd
  simp only [digitVal]
  omega

/-- A header symbol's value fits a symbol's 21 bits (R10, R11). -/
theorem symOfNat_toNat {v : Nat} (h : isHeaderSymbol v = true) : (symOfNat v).toNat = v := by
  have hlt : v < 2 ^ 21 := by
    simp only [isHeaderSymbol, isScalar, Bool.or_eq_true, Bool.and_eq_true, decide_eq_true_eq] at h
    have hsent : sentinelVal = 0x110000 := rfl
    omega
  exact BitVec.toNat_ofNat v 21 ▸ Nat.mod_eq_of_lt hlt

/-- The end of a symbol token leaves a header symbol waiting for its code, or raises (R255). -/
theorem finishSym_yields {s : State} (h : Parsing s) : Yields False (InPhase .decHeader) Inv (finishSym s) := by
  obtain ⟨hv, hc, hn, -⟩ := h.core.parser
  unfold finishSym
  split_ifs with hnd hsym
  · exact h.core.raiseEnd (by decide)
  · have hheader : isHeaderSymbol (symOfNat s.hpVal).toNat = true := by rwa [symOfNat_toNat hsym]
    exact (h.move hv hc hn).inPhase ⟨fun _ => hheader, fun hin => by cases hin⟩
  · exact h.core.raiseEnd (by decide)

/-- Inside a code token, which may still be empty: of its characters no more than its length is held, and all of them unless
it is bad or too long (R254). -/
structure InCodeToken (s : State) : Prop where
  parsing : Parsing s
  phase : s.hpPhase = .codeIn
  sym : isHeaderSymbol s.hpSym.toNat = true
  held : s.hpCode.length ≤ s.hpLen
  whole : s.hpBad = false → s.hpLen ≤ s.params.maxCodeLen → s.hpCode.length = s.hpLen

/-- Everything a character of a code token can do (R254). -/
theorem codeChar_cases (c : Byte) (s : State) :
    codeChar c s = { s with hpBad := true, hpLen := min (s.hpLen + 1) (s.params.maxCodeLen + 1) } ∨
    (s.hpLen < s.params.maxCodeLen ∧ ∃ b, codeChar c s =
      { s with hpCode := s.hpCode ++ [b], hpLen := min (s.hpLen + 1) (s.params.maxCodeLen + 1) }) ∨
    (s.params.maxCodeLen ≤ s.hpLen ∧
      codeChar c s = { s with hpLen := min (s.hpLen + 1) (s.params.maxCodeLen + 1) }) := by
  by_cases hbit : c = 0x30#8 ∨ c = 0x31#8
  · by_cases hlen : s.hpLen < s.params.maxCodeLen
    · exact .inr (.inl ⟨hlen, decide (c = 0x31#8), by simp only [codeChar, hbit, hlen, if_true]⟩)
    · exact .inr (.inr ⟨by omega, by simp only [codeChar, hbit, hlen, if_true, if_false]⟩)
  · exact .inl (by simp only [codeChar, hbit, if_false])

/-- After one more character the code token is nonempty and meets the parser's clauses (R254). -/
theorem codeChar_keeps {s : State} (h : InCodeToken s) (c : Byte) : InPhase .decHeader (codeChar c s) := by
  obtain ⟨hparsing, hphase, hsym, hheld, hwhole⟩ := h
  obtain ⟨hv, hc, -, -⟩ := hparsing.core.parser
  have hn : min (s.hpLen + 1) (s.params.maxCodeLen + 1) ≤ s.params.maxCodeLen + 1 := Nat.min_le_right _ _
  rcases codeChar_cases c s with heq | ⟨hlt, b, heq⟩ | ⟨hge, heq⟩ <;> rw [heq]
  · refine (hparsing.move hv hc hn).inPhase ⟨fun _ => hsym, fun _ => ⟨?_, ?_, ?_⟩⟩
    · show 1 ≤ min _ _
      omega
    · show s.hpCode.length ≤ min _ _
      omega
    · simp
  · have hlen : (s.hpCode ++ [b]).length = s.hpCode.length + 1 := by simp
    refine (hparsing.move hv (by omega) hn).inPhase ⟨fun _ => hsym, fun _ => ⟨?_, ?_, fun hbad _ => ?_⟩⟩
    · show 1 ≤ min _ _
      omega
    · show (s.hpCode ++ [b]).length ≤ min _ _
      omega
    · show (s.hpCode ++ [b]).length = min _ _
      have := hwhole hbad (by omega)
      omega
  · refine (hparsing.move hv hc hn).inPhase ⟨fun _ => hsym, fun _ => ⟨?_, ?_, fun _ hshort => ?_⟩⟩
    · show 1 ≤ min _ _
      omega
    · show s.hpCode.length ≤ min _ _
      omega
    · have : min (s.hpLen + 1) (s.params.maxCodeLen + 1) ≤ s.params.maxCodeLen := hshort
      omega

/-- A code that no entry has can be added to the table. -/
theorem distinctCodes_append {tab : List Entry} (h : DistinctCodes tab) {e : Entry} (he : findCode e.code tab = none) :
    DistinctCodes (tab ++ [e]) := by
  simp only [DistinctCodes, List.map_append, List.map_cons, List.map_nil]
  refine List.Nodup.append h (List.nodup_singleton _) ?_
  simpa [List.disjoint_singleton] using findCode_eq_none.1 he

/-- The end of a code token adds its entry to the table, or raises (R256, R257). -/
theorem finishCode_yields {s : State} (h : InPhase .decHeader s) (hin : s.hpPhase = .codeIn) :
    Yields False (InPhase .decHeader) Inv (finishCode s) := by
  obtain ⟨hsym, htoken⟩ := h.phase.2
  obtain ⟨hpos, -, hwhole⟩ := htoken hin
  obtain ⟨hdistinct, hentries⟩ := h.phase.1
  obtain ⟨hnent, htotal, -⟩ := h.core.table
  obtain ⟨hv, hc, hn, -⟩ := h.core.parser
  unfold finishCode
  split_ifs with hbad hlong hdup hfull
  · exact h.core.raiseEnd (by decide)
  · exact h.core.raiseEnd (by decide)
  · exact h.core.raiseEnd (by decide)
  · exact h.core.raiseEnd (by decide)
  · have hcode : s.hpCode ≠ [] := by
      intro hnil
      have := hwhole (by simpa using hbad) (by omega)
      rw [hnil, List.length_nil] at this
      omega
    have hfree : s.tab.length < s.params.maxEntries := by simp only [nent_eq] at hnent hfull; omega
    rcases tabPush_cases ⟨s.hpSym, 0, s.hpCode⟩ s with ⟨-, hpush⟩ | ⟨hge, -⟩
    · rw [hpush]
      have hcore : CoreInv { s with tab := s.tab ++ [⟨s.hpSym, 0, s.hpCode⟩] } :=
        h.core.setTab (tableInv_append h.core.table hfree htotal (Nat.zero_le _) hc)
      have htable : DecodeInv { s with tab := s.tab ++ [⟨s.hpSym, 0, s.hpCode⟩] } := by
        refine ⟨distinctCodes_append hdistinct (by simpa using hdup), fun e he => ?_⟩
        rcases List.mem_append.1 he with he | he
        · exact hentries e he
        · rw [List.mem_singleton.1 he]
          exact ⟨hsym (.inr hin), rfl, hcode⟩
      have hparsing : Parsing { s with tab := s.tab ++ [⟨s.hpSym, 0, s.hpCode⟩] } := ⟨hcore, h.state, h.err, htable⟩
      exact hparsing.symToken (.inl rfl) hv
    · simp only [nent_eq] at hge
      omega

/-- The end of the header leads to DEC_BODY with an empty candidate (R254). -/
theorem endHeader_inv {s : State} (h : Parsing s) : Inv (endHeader s) := by
  obtain ⟨hv, hc, hn, -⟩ := h.core.parser
  have hpos := h.core.one_le_maxCodeLen
  have hparser : ParserInv (endHeader s) := ⟨hv, hc, hn, Nat.zero_le _⟩
  exact InPhase.inv (p := .decBody)
    ⟨⟨h.core.params, h.core.table, h.core.writer, hparser, h.core.responses⟩, rfl, h.err, h.table, hpos⟩ (by decide)

/-- A byte of the header, by the parser's phase and the byte's class (R254). -/
theorem hdrByte_keeps_inv {s : State} (h : InPhase .decHeader s) (c : Byte) : Yields False Inv Inv (hdrByte c s) := by
  have hinv : ∀ t, InPhase .decHeader t → Inv t := fun t ht => ht.inv (by decide)
  have hv := h.core.parser.1
  cases hp : s.hpPhase with
  | symWait =>
    cases hc : classify c <;> simp only [hdrByte, hp, hc]
    case sep => exact hinv _ h
    case nl => exact endHeader_inv h.parsing
    case digit => exact hinv _ (h.parsing.symToken (.inr rfl) ((digitVal_le hc).trans (by decide)))
    case other => exact hinv _ (h.parsing.symToken (.inr rfl) (Nat.zero_le _))
  | symIn =>
    cases hc : classify c <;> simp only [hdrByte, hp, hc]
    case digit => exact hinv _ (h.parsing.symToken (.inr rfl) (Nat.min_le_right _ _))
    case other => exact hinv _ (h.parsing.symToken (.inr rfl) hv)
    case sep => exact (finishSym_yields h.parsing).mono hinv fun _ => id
    case nl => exact (finishSym_yields h.parsing).andThen fun t ht => ht.core.raiseEnd (by decide)
  | codeWait =>
    obtain ⟨hsym, -⟩ := h.phase.2
    have hstart : InCodeToken { s with hpCode := [], hpLen := 0, hpBad := false, hpPhase := .codeIn } :=
      ⟨h.parsing.move hv (Nat.zero_le _) (Nat.zero_le _), rfl, hsym (.inl hp), Nat.zero_le _, fun _ _ => rfl⟩
    cases hc : classify c <;> simp only [hdrByte, hp, hc]
    case sep => exact hinv _ h
    case nl => exact h.core.raiseEnd (by decide)
    case digit => exact hinv _ (codeChar_keeps hstart c)
    case other => exact hinv _ (codeChar_keeps hstart c)
  | codeIn =>
    obtain ⟨hsym, htoken⟩ := h.phase.2
    obtain ⟨-, hheld, hwhole⟩ := htoken hp
    have hmid : InCodeToken s := ⟨h.parsing, hp, hsym (.inr hp), hheld, hwhole⟩
    cases hc : classify c <;> simp only [hdrByte, hp, hc]
    case digit => exact hinv _ (codeChar_keeps hmid c)
    case other => exact hinv _ (codeChar_keeps hmid c)
    case sep => exact (finishCode_yields h hp).mono hinv fun _ => id
    case nl => exact (finishCode_yields h hp).andThen fun t ht => endHeader_inv ht.parsing

end Sys2Proof.Proofs
end

section
/-! PROOFS. The invariant through the body matcher, DEC_END and the whole step (43_decoder.md R259 to R263). -/

open Sys2Proof Sys2Proof.Machine

namespace Sys2Proof.Proofs

/-- The candidate can be any bitstring within MAX_CODE_LEN. -/
theorem CoreInv.setCand {s : State} (h : CoreInv s) {d : Bits} (hd : d.length ≤ s.params.maxCodeLen) :
    CoreInv { s with cand := d } := by
  obtain ⟨hv, hc, hn, -⟩ := h.parser
  exact ⟨h.params, h.table, h.writer, ⟨hv, hc, hn, hd⟩, h.responses⟩

/-- Everything one bit of the body can do, by the entry whose code the longer candidate is, if there is one (R259, R260). -/
theorem bodyBit_cases (b : Bool) (s : State) :
    (∃ e, e.sym = sentinel ∧ findCode (s.cand ++ [b]) s.tab = some e ∧
      bodyBit b s = .ended { emit (.done .dec) { s with cand := s.cand ++ [b] } with state := .decTail }) ∨
    (∃ e, e.sym ≠ sentinel ∧ findCode (s.cand ++ [b]) s.tab = some e ∧
      bodyBit b s = .cont { emit (.sym e.sym) { s with cand := s.cand ++ [b] } with cand := [] }) ∨
    bodyBit b s = raiseEnd .bodyNoMatch { s with cand := s.cand ++ [b] } ∨
    ((s.cand ++ [b]).length ≠ s.params.maxCodeLen ∧ bodyBit b s = .cont { s with cand := s.cand ++ [b] }) := by
  cases hf : findCode (s.cand ++ [b]) s.tab with
  | some e =>
    by_cases hsent : e.sym = sentinel
    · exact .inl ⟨e, hsent, rfl, by simp only [bodyBit, hf, hsent, if_true]⟩
    · exact .inr (.inl ⟨e, hsent, rfl, by simp only [bodyBit, hf, hsent, if_false]⟩)
  | none =>
    by_cases hmax : (s.cand ++ [b]).length = s.params.maxCodeLen
    · exact .inr (.inr (.inl (by simp only [bodyBit, hf, hmax, if_true])))
    · exact .inr (.inr (.inr ⟨hmax, by simp only [bodyBit, hf, hmax, if_false]⟩))

/-- One bit of the body: the candidate stays below MAX_CODE_LEN wherever the matcher goes on (R259, R260). -/
theorem bodyBit_yields {s : State} (h : InPhase .decBody s) (b : Bool) :
    Yields False (InPhase .decBody) Inv (bodyBit b s) := by
  obtain ⟨hdec, hlt⟩ := h.phase
  have hlen : (s.cand ++ [b]).length = s.cand.length + 1 := by simp
  have hle : (s.cand ++ [b]).length ≤ s.params.maxCodeLen := by omega
  have hcore : CoreInv { s with cand := s.cand ++ [b] } := h.core.setCand hle
  have hpos := h.core.one_le_maxCodeLen
  rcases bodyBit_cases b s with ⟨e, -, -, heq⟩ | ⟨e, -, -, heq⟩ | heq | ⟨hmax, heq⟩ <;> rw [heq]
  · have hdone := hcore.emit (r := .done .dec) (by decide)
    exact InPhase.inv (p := .decTail) ⟨hdone.setState _, rfl, h.err, hdec⟩ (by decide)
  · exact ⟨(hcore.emit (r := .sym e.sym) (by simp)).setCand (Nat.zero_le _), h.state, h.err, hdec, hpos⟩
  · exact hcore.raiseEnd (by decide)
  · exact ⟨hcore, h.state, h.err, hdec, lt_of_le_of_ne hle hmax⟩

theorem bodyBits_yields {s : State} (h : InPhase .decBody s) (bs : Bits) :
    Yields False (InPhase .decBody) Inv (bodyBits bs s) := by
  induction bs generalizing s with
  | nil => exact h
  | cons b bs ih => exact (bodyBit_yields h b).andThen fun t ht => ih ht

theorem decByte_keeps_inv {s : State} (h : Inv s) {b : Byte} (hl : legalIn (.decByte b) s.state = true) :
    Yields False Inv Inv (decByteBody b s) := by
  unfold decByteBody
  rcases legalIn_decByte hl with hs | hs | hs <;> rw [hs]
  · exact hdrByte_keeps_inv (inPhase_of_inv h hs (by decide)) b
  · exact (bodyBits_yields (inPhase_of_inv h hs (by decide)) _).mono (fun t ht => ht.inv (by decide)) fun _ => id
  · exact h

theorem decEnd_keeps_inv {s : State} (h : Inv s) (hl : legalIn .decEnd s.state = true) :
    Yields False Inv Inv (decEndBody s) := by
  have hcore := coreInv_of_inv h
  unfold decEndBody
  split_ifs with hheader hbody
  · exact hcore.raiseEnd (by decide)
  · exact hcore.raiseEnd (by decide)
  · have htail : s.state = .decTail := ((legalIn_decEnd hl).resolve_left hheader).resolve_left hbody
    obtain ⟨-, -, herr, -⟩ := inPhase_of_inv h htail (by decide)
    exact CoreInv.toIdle (hcore.setState _) rfl herr

/-- No phase's clause reads the words at the response port. -/
theorem PhaseInv.setPort {p : Phase} {s : State} (h : PhaseInv p s) (r g : List Word) :
    PhaseInv p { s with rsp := r, received := g } := by
  cases p <;> exact h

theorem getStatus_keeps_inv {s : State} (h : Inv s) : Inv (emit (.status s.state s.err) s) := by
  obtain ⟨hcore, hstatus, hphase⟩ := (inv_iff s).1 h
  exact (inv_iff _).2 ⟨hcore.emit (by simp), hstatus, hphase.setPort _ _⟩

theorem clearAll_inv {s : State} (h : CoreInv s) : Inv (clearAll s) := by
  have htable : TableInv (clearAll s) := tableInv_of_tab_nil rfl (Nat.zero_le _)
  have hparser : ParserInv (clearAll s) := ⟨Nat.zero_le _, Nat.zero_le _, Nat.zero_le _, Nat.zero_le _⟩
  exact CoreInv.toIdle ⟨h.params, htable, writerInv_of_bwAcc_zero rfl, hparser, h.responses⟩ rfl rfl

/-- The common checks keep the invariant around a command that keeps it where it is legal (R325 to R328). -/
theorem commonChecks_keeps_inv {i : Instr} {body : State → Flow} {s : State} (h : Inv s)
    (hbody : legalIn i s.state = true → Yields False Inv Inv (body s)) :
    ∃ t, commonChecks i body s = .next t ∧ Inv t := by
  rcases commonChecks_legal_cases i body s with heq | ⟨-, heq⟩ | ⟨hl, heq⟩ <;> rw [heq]
  · exact ⟨s, rfl, h⟩
  · exact ⟨_, rfl, (coreInv_of_inv h).raise (by decide)⟩
  · exact (hbody hl).exists_next

/-- Every command answers a next state from a state that meets the invariant, and keeps it. -/
theorem exec_keeps_inv (i : Instr) {s : State} (h : Inv s) : ∃ t, exec i s = .next t ∧ Inv t := by
  cases i with
  | nop => exact commonChecks_keeps_inv h fun _ => h
  | encBegin => exact commonChecks_keeps_inv h (encBegin_keeps_inv h)
  | encSym val => exact commonChecks_keeps_inv h (encSym_keeps_inv h)
  | encBuild => exact commonChecks_keeps_inv h (encBuild_keeps_inv h)
  | encEnd => exact commonChecks_keeps_inv h (encEnd_keeps_inv h)
  | decBegin => exact commonChecks_keeps_inv h (decBegin_keeps_inv h)
  | decByte b => exact commonChecks_keeps_inv h (decByte_keeps_inv h)
  | decEnd => exact commonChecks_keeps_inv h (decEnd_keeps_inv h)
  | getStatus => exact commonChecks_keeps_inv h fun _ => getStatus_keeps_inv h
  | abort => exact commonChecks_keeps_inv h fun _ => clearAll_inv (coreInv_of_inv h)

/-- Every word, legal or not, is accepted from a state that meets the invariant, and keeps it (R371). -/
theorem acceptWord_keeps_inv (w : Word) {s : State} (h : Inv s) : ∃ t, acceptWord w s = .next t ∧ Inv t := by
  have hci : Inv { s with ci := s.ci + 1 } := h
  cases hd : decode w with
  | ok i =>
    rw [acceptWord_ok hd]
    exact exec_keeps_inv i hci
  | error e =>
    rw [acceptWord_error hd]
    rcases execIllegal_cases { s with ci := s.ci + 1 } with ⟨-, heq⟩ | ⟨-, heq⟩ <;> rw [heq]
    · exact ⟨_, rfl, hci⟩
    · exact ⟨_, rfl, (coreInv_of_inv hci).raise (by decide)⟩

theorem commandEdge_keeps_inv {s : State} (h : Inv s) : ∃ t, commandEdge s = .next t ∧ Inv t := by
  rcases commandEdge_cases s with ⟨-, heq⟩ | ⟨-, heq⟩ | ⟨w, ws, -, -, heq⟩ <;> rw [heq]
  · exact ⟨s, rfl, h⟩
  · exact ⟨s, rfl, h⟩
  · exact acceptWord_keeps_inv w (s := { s with cmds := ws }) h

/-- Taking the front word leaves only words that were there (R366). -/
theorem takeEdge_keeps_inv {s : State} (h : Inv s) : Inv (takeEdge s) := by
  rcases takeEdge_cases s with ⟨-, heq⟩ | ⟨w, ws, hrsp, heq⟩ <;> rw [heq]
  · exact h
  · obtain ⟨⟨hp, ht, hw, hr, hresp⟩, hstatus, hphase⟩ := (inv_iff s).1 h
    have htail : ws.all isResponse = true := by
      rw [ResponsesInv, hrsp, List.all_cons, Bool.and_eq_true] at hresp
      exact hresp.2
    exact (inv_iff _).2 ⟨⟨hp, ht, hw, hr, htail⟩, hstatus, hphase.setPort _ _⟩

/-- Settles O59: the invariant is split into what every phase keeps and what each phase adds; every command that is legal in a
phase keeps both, an error entry needs only the first, and the two other edges are a reset and a shorter S.rsp. -/
theorem stepKeepsTheInvariant : Obligations.StepKeepsTheInvariant := by
  intro s h
  rcases step_cases s with ⟨-, heq⟩ | ⟨as, -, heq⟩ | ⟨as, -, heq⟩ | ⟨as, -, heq⟩ <;> rw [heq]
  · exact commandEdge_keeps_inv h
  · exact commandEdge_keeps_inv (s := { s with acts := as }) h
  · exact ⟨_, rfl, takeEdge_keeps_inv (s := { s with acts := as }) h⟩
  · exact ⟨_, rfl, resetMeetsTheInvariant s.params (coreInv_of_inv h).params⟩

end Sys2Proof.Proofs
end

section
/-! PROOFS. What every command keeps: the parameters, CI and the words that wait; and how a command comes to end in ERROR
(10_state.md R31, R44, 60_exceptions.md R324). -/

open Sys2Proof Sys2Proof.Machine

namespace Sys2Proof.Proofs

/-- From s to t the parameters and CI stay and S.rsp only grows. -/
structure Keeps (s t : State) : Prop where
  params : t.params = s.params
  ci : t.ci = s.ci
  rsp : s.rsp <+: t.rsp

theorem Keeps.refl (s : State) : Keeps s s := ⟨rfl, rfl, List.prefix_refl _⟩

theorem Keeps.trans {s t u : State} (h : Keeps s t) (h' : Keeps t u) : Keeps s u :=
  ⟨h'.params.trans h.params, h'.ci.trans h.ci, h.rsp.trans h'.rsp⟩

/-- What a piece of pseudocode that goes on has done: in particular it has not entered ERROR. -/
structure GoesOn (s t : State) : Prop where
  keeps : Keeps s t
  error : t.state = .error → s.state = .error

/-- What a command that has ended has done: if it has entered ERROR, its last act was a `raise`. -/
structure Ends (s t : State) : Prop where
  keeps : Keeps s t
  error : t.state = .error → s.state = .error ∨ ∃ e u, Keeps s u ∧ t = raise e u

theorem GoesOn.ends {s t : State} (h : GoesOn s t) : Ends s t := ⟨h.keeps, fun he => .inl (h.error he)⟩

theorem GoesOn.trans {s t u : State} (h : GoesOn s t) (h' : GoesOn t u) : GoesOn s u :=
  ⟨h.keeps.trans h'.keeps, h.error ∘ h'.error⟩

theorem GoesOn.trans_ends {s t u : State} (h : GoesOn s t) (h' : Ends t u) : Ends s u := by
  refine ⟨h.keeps.trans h'.keeps, fun he => ?_⟩
  rcases h'.error he with ht | ⟨e, v, hv, heq⟩
  · exact .inl (h.error ht)
  · exact .inr ⟨e, v, h.keeps.trans hv, heq⟩

/-- A piece of pseudocode started in s does to the shared fields what every command may do. -/
abbrev Tame (s : State) (f : Flow) : Prop := Yields True (GoesOn s) (Ends s) f

/-- Pieces of pseudocode one after the other. -/
theorem Tame.andThen {s : State} {f : Flow} {g : State → Flow} (hf : Tame s f) (hg : ∀ t, Tame t (g t)) :
    Tame s (f.andThen g) :=
  Yields.andThen hf fun t ht => (hg t).mono (fun _ => ht.trans) fun _ => ht.trans_ends

/-- An update of the other fields that stays in its phase or enters one that is not ERROR. -/
theorem GoesOn.of_silent {s t : State} (hp : t.params = s.params) (hci : t.ci = s.ci) (hrsp : t.rsp = s.rsp)
    (hs : t.state = s.state ∨ t.state ≠ .error) : GoesOn s t :=
  ⟨⟨hp, hci, hrsp ▸ List.prefix_refl _⟩, fun he => hs.elim (· ▸ he) fun hne => absurd he hne⟩

theorem goesOn_emitAll (ws : List Word) (s : State) : GoesOn s (emitAll ws s) :=
  ⟨⟨rfl, rfl, List.prefix_append _ _⟩, id⟩

theorem ends_raise {s u : State} (h : Keeps s u) (e : Err) : Ends s (raise e u) :=
  ⟨⟨h.params, h.ci, h.rsp.trans (List.prefix_append _ _)⟩, fun _ => .inr ⟨e, u, h, rfl⟩⟩

theorem tame_raiseEnd (e : Err) (s : State) : Tame s (raiseEnd e s) := ends_raise (.refl s) e

theorem goesOn_writeBit (b : Bool) (s : State) : GoesOn s (writeBit b s) := by
  by_cases h : s.bwCnt = 7
  · rw [writeBit_of_eq b h]
    exact (goesOn_emitAll [_] s).trans (.of_silent rfl rfl rfl (.inl rfl))
  · rw [writeBit_of_ne b h]
    exact .of_silent rfl rfl rfl (.inl rfl)

theorem goesOn_writeCode (c : Bits) (s : State) : GoesOn s (writeCode c s) := by
  induction c generalizing s with
  | nil => exact ⟨.refl s, id⟩
  | cons b c ih => exact (goesOn_writeBit b s).trans (ih _)

theorem goesOn_flush (s : State) : GoesOn s (flush s) := by
  rcases flush_cases s with ⟨-, heq⟩ | ⟨-, heq⟩ <;> rw [heq]
  · exact ⟨.refl s, id⟩
  · exact (goesOn_emitAll [_] s).trans (.of_silent rfl rfl rfl (.inl rfl))

theorem tame_tabPush (e : Entry) (s : State) : Tame s (tabPush e s) := by
  rcases tabPush_cases e s with ⟨-, heq⟩ | ⟨-, heq⟩ <;> rw [heq]
  · exact .of_silent rfl rfl rfl (.inl rfl)
  · trivial

/-! ### The encode commands -/

theorem tame_count (v : Sym) (s : State) : Tame s (count v s) := by
  unfold count
  split_ifs with htotal hknown hfull
  · exact tame_raiseEnd _ _
  · exact .of_silent rfl rfl rfl (.inl rfl)
  · exact tame_raiseEnd _ _
  · exact (tame_tabPush _ _).andThen fun t => .of_silent rfl rfl rfl (.inl rfl)

theorem tame_code (v : Sym) (s : State) : Tame s (code v s) := by
  unfold code
  cases findSym v s.tab with
  | some e => exact goesOn_writeCode _ _
  | none => exact tame_raiseEnd _ _

theorem tame_encSymBody (val : Val) (s : State) : Tame s (encSymBody val s) := by
  unfold encSymBody
  split_ifs with hval hcount
  · exact tame_count _ _
  · exact tame_code _ _
  · exact tame_raiseEnd _ _

theorem tame_buildCodes (s : State) : Tame s (buildCodes s) := by
  simp only [buildCodes]
  split_ifs with hlong
  · exact tame_raiseEnd _ _
  · have htab : GoesOn s { s with tab := assignCodes (codesOf s.tab) s.tab } := .of_silent rfl rfl rfl (.inl rfl)
    exact (htab.trans (goesOn_emitAll _ _)).trans (.of_silent rfl rfl rfl (.inr (by simp)))

theorem tame_encBuildBody (s : State) : Tame s (encBuildBody s) := (tame_tabPush _ _).andThen tame_buildCodes

theorem tame_encEndBody (s : State) : Tame s (encEndBody s) := by
  unfold encEndBody
  cases findSym sentinel s.tab with
  | some e =>
    have hdone := ((goesOn_writeCode e.code s).trans (goesOn_flush _)).trans (goesOn_emitAll [(Response.done .enc).word] _)
    exact hdone.trans (.of_silent rfl rfl rfl (.inr (by simp)))
  | none => trivial

/-! ### The decode commands -/

theorem tame_finishSym (s : State) : Tame s (finishSym s) := by
  unfold finishSym
  split_ifs with hnd hsym
  · exact tame_raiseEnd _ _
  · exact .of_silent rfl rfl rfl (.inl rfl)
  · exact tame_raiseEnd _ _

theorem tame_finishCode (s : State) : Tame s (finishCode s) := by
  unfold finishCode
  split_ifs with hbad hlong hdup hfull
  · exact tame_raiseEnd _ _
  · exact tame_raiseEnd _ _
  · exact tame_raiseEnd _ _
  · exact tame_raiseEnd _ _
  · exact (tame_tabPush _ _).andThen fun t => .of_silent rfl rfl rfl (.inl rfl)

theorem goesOn_codeChar (c : Byte) (s : State) : GoesOn s (codeChar c s) := by
  rcases codeChar_cases c s with heq | ⟨-, b, heq⟩ | ⟨-, heq⟩ <;> rw [heq] <;> exact .of_silent rfl rfl rfl (.inl rfl)

theorem goesOn_endHeader (s : State) : GoesOn s (endHeader s) := .of_silent rfl rfl rfl (.inr (by simp [endHeader]))

theorem tame_hdrByte (c : Byte) (s : State) : Tame s (hdrByte c s) := by
  have hstart : GoesOn s { s with hpCode := [], hpLen := 0, hpBad := false, hpPhase := .codeIn } :=
    .of_silent rfl rfl rfl (.inl rfl)
  cases hp : s.hpPhase <;> cases hc : classify c <;> simp only [hdrByte, hp, hc]
  case symWait.sep | codeWait.sep => exact ⟨.refl s, id⟩
  case symWait.nl => exact goesOn_endHeader s
  case symWait.digit | symWait.other | symIn.digit | symIn.other => exact .of_silent rfl rfl rfl (.inl rfl)
  case symIn.sep => exact tame_finishSym s
  case symIn.nl => exact (tame_finishSym s).andThen fun t => tame_raiseEnd _ t
  case codeWait.nl => exact tame_raiseEnd _ s
  case codeWait.digit | codeWait.other => exact hstart.trans (goesOn_codeChar c _)
  case codeIn.digit | codeIn.other => exact goesOn_codeChar c s
  case codeIn.sep => exact tame_finishCode s
  case codeIn.nl => exact (tame_finishCode s).andThen goesOn_endHeader

theorem tame_bodyBit (b : Bool) (s : State) : Tame s (bodyBit b s) := by
  have hgrow : GoesOn s { s with cand := s.cand ++ [b] } := .of_silent rfl rfl rfl (.inl rfl)
  rcases bodyBit_cases b s with ⟨e, -, -, heq⟩ | ⟨e, -, -, heq⟩ | heq | ⟨-, heq⟩ <;> rw [heq]
  · have hdone := hgrow.trans (goesOn_emitAll [(Response.done .dec).word] _)
    exact GoesOn.ends (hdone.trans (.of_silent rfl rfl rfl (.inr (by simp))))
  · exact (hgrow.trans (goesOn_emitAll [(Response.sym e.sym).word] _)).trans (.of_silent rfl rfl rfl (.inl rfl))
  · exact ends_raise hgrow.keeps _
  · exact hgrow

theorem tame_bodyBits (bs : Bits) (s : State) : Tame s (bodyBits bs s) := by
  induction bs generalizing s with
  | nil => exact ⟨.refl s, id⟩
  | cons b bs ih => exact (tame_bodyBit b s).andThen ih

theorem tame_decByteBody (b : Byte) (s : State) : Tame s (decByteBody b s) := by
  unfold decByteBody
  cases s.state with
  | decHeader => exact tame_hdrByte b s
  | decBody => exact tame_bodyBits _ s
  | decTail | idle | encCount | encBody | error => exact ⟨.refl s, id⟩

theorem tame_decEndBody (s : State) : Tame s (decEndBody s) := by
  unfold decEndBody
  split_ifs with hheader hbody
  · exact tame_raiseEnd _ s
  · exact tame_raiseEnd _ s
  · exact .of_silent rfl rfl rfl (.inr (by simp))

/-! ### Commands and accepted words -/

theorem commonChecks_ends {i : Instr} {body : State → Flow} {s t : State} (hbody : Tame s (body s))
    (h : commonChecks i body s = .next t) : Ends s t := by
  rcases commonChecks_legal_cases i body s with heq | ⟨-, heq⟩ | ⟨-, heq⟩ <;> rw [heq] at h
  · cases h
    exact ⟨.refl s, .inl⟩
  · cases h
    exact ends_raise (.refl s) _
  · exact Yields.of_next (hbody.mono (fun _ => GoesOn.ends) fun _ => id) h

theorem exec_ends {i : Instr} {s t : State} (h : exec i s = .next t) : Ends s t := by
  cases i with
  | nop => exact commonChecks_ends (body := Flow.cont) ⟨.refl s, id⟩ h
  | encBegin => exact commonChecks_ends (body := encBeginBody) (.of_silent rfl rfl rfl (.inr (by simp))) h
  | encSym val => exact commonChecks_ends (tame_encSymBody val s) h
  | encBuild => exact commonChecks_ends (tame_encBuildBody s) h
  | encEnd => exact commonChecks_ends (tame_encEndBody s) h
  | decBegin => exact commonChecks_ends (body := decBeginBody) (.of_silent rfl rfl rfl (.inr (by simp))) h
  | decByte b => exact commonChecks_ends (tame_decByteBody b s) h
  | decEnd => exact commonChecks_ends (tame_decEndBody s) h
  | getStatus => exact commonChecks_ends (body := getStatusBody) (goesOn_emitAll _ s) h
  | abort => exact commonChecks_ends (body := abortBody) (.of_silent rfl rfl rfl (.inr (by simp))) h

/-- Everything an accepted word can do to the shared fields, from the state in which CI has advanced (R31, R371). -/
theorem acceptWord_ends {w : Word} {s t : State} (h : acceptWord w s = .next t) : Ends { s with ci := s.ci + 1 } t := by
  cases hd : decode w with
  | ok i =>
    rw [acceptWord_ok hd] at h
    exact exec_ends h
  | error e =>
    rw [acceptWord_error hd] at h
    rcases execIllegal_cases { s with ci := s.ci + 1 } with ⟨-, heq⟩ | ⟨-, heq⟩ <;> rw [heq] at h <;> cases h
    · exact ⟨.refl _, .inl⟩
    · exact ends_raise (.refl _) _

/-- Settles O49: CI advances before the word is looked at, and no command touches it. -/
theorem everyAcceptedWordAdvancesCi : Obligations.EveryAcceptedWordAdvancesCi := by
  intro w s t h
  exact (acceptWord_ends h).keeps.ci

/-- Settles O50: each field of the reset state is the value R46 gives it. -/
theorem resetValues : Obligations.ResetValues := by
  unfold Obligations.ResetValues
  decide

end Sys2Proof.Proofs
end

section
/-! PROOFS. The output levels (10_state.md R45, 70_reset_and_hazards.md R364 to R366, 60_exceptions.md R331). -/

open Sys2Proof Sys2Proof.Machine

namespace Sys2Proof.Proofs

theorem idleO_eq_true {s : State} : idleO s = true ↔ s.state = .idle ∧ s.rsp = [] := by
  simp only [idleO, stalled, Bool.and_eq_true, decide_eq_true_eq, List.isEmpty_iff]
  constructor
  · rintro ⟨h, -⟩
    exact h
  · rintro ⟨hs, hr⟩
    exact ⟨⟨hs, hr⟩, by simp [hr]⟩

theorem rspValid_eq_true {s : State} : rspValid false s = true ↔ s.rsp ≠ [] := by
  simp [rspValid]

theorem cmdReady_eq_true {s : State} : cmdReady false s = true ↔ s.rsp.length ≤ s.params.rspFifoDepth := by
  simp [cmdReady, stalled]

theorem decodePlain_eq_ok {w : Word} {i j : Instr} : decodePlain w i = .ok j ↔ payloadField w = 0#28 ∧ i = j := by
  by_cases h : payloadField w = 0#28 <;> simp [decodePlain, h]

/-- The one word that decodes to ABORT (R111, R114). -/
theorem eq_of_decode_abort {w : Word} (h : decode w = .ok .abort) : w = 0xE0000000#32 := by
  unfold decode at h
  split at h
  case h_10 hop =>
    have hopcode : opField w = 0xE#4 := BitVec.eq_of_toNat_eq hop
    obtain ⟨hpayload, -⟩ := decodePlain_eq_ok.1 h
    rw [word_eq_fields w, hopcode, hpayload]
    rfl
  case h_7 => split at h <;> cases h
  all_goals simp [decodePlain_eq_ok] at h

/-- A word accepted outside ERROR that ends in ERROR ends with its RSP_ERR (R324). -/
theorem acceptWord_raises {w : Word} {s t : State} (hs : s.state ≠ .error) (h : acceptWord w s = .next t)
    (ht : t.state = .error) : ∃ out, t.rsp = s.rsp ++ out ++ [errWord t.err.code] := by
  rcases (acceptWord_ends h).error ht with he | ⟨e, u, hu, rfl⟩
  · exact absurd he hs
  · obtain ⟨out, hout⟩ := hu.rsp
    exact ⟨out, by rw [raise_eq, hout]⟩

/-- An edge with a command offered lowers `err_o` only by an accepted ABORT (R331): any other word accepted in ERROR finds room
for its response. -/
theorem commandEdge_lowers_errO {s t : State} (h : commandEdge s = .next t) (hs : errO s = true) (ht : errO t = false) :
    s.cmds.head? = some 0xE0000000#32 := by
  obtain ⟨herr, -⟩ := errO_eq_true.1 hs
  rcases commandEdge_cases s with ⟨-, heq⟩ | ⟨-, heq⟩ | ⟨w, ws, hcmds, hroom, heq⟩ <;> rw [heq] at h
  · cases h
    exact absurd (hs.symm.trans ht) (by decide)
  · cases h
    exact absurd (hs.symm.trans ht) (by decide)
  · rcases acceptWord_inError (s := { s with cmds := ws }) herr h with ⟨hd, -⟩ | ⟨hstate, -, hparams, hlen⟩
    · rw [hcmds, eq_of_decode_abort hd]
      rfl
    · have hhigh : errO t = true := errO_eq_true.2 ⟨hstate, by rw [hparams]; exact hlen.trans (Nat.succ_le_succ hroom)⟩
      exact absurd (hhigh.symm.trans ht) (by decide)

/-- Taking a response does not lower `err_o`. -/
theorem errO_takeEdge {s : State} (h : errO s = true) : errO (takeEdge s) = true := by
  rcases takeEdge_cases s with ⟨-, heq⟩ | ⟨w, ws, hrsp, heq⟩ <;> rw [heq]
  · exact h
  · obtain ⟨herr, hlen⟩ := errO_eq_true.1 h
    rw [hrsp, List.length_cons] at hlen
    exact errO_eq_true.2 ⟨herr, by show ws.length ≤ s.params.rspFifoDepth + 1; omega⟩

/-- A step lowers `err_o` only by a reset or an accepted ABORT (R331). -/
theorem step_lowers_errO {s t : State} (h : step s = .next t) (hs : errO s = true) (ht : errO t = false) :
    s.acts.head? = some .reset ∨ (s.acts.head? ≠ some .take ∧ s.cmds.head? = some 0xE0000000#32) := by
  rcases step_cases s with ⟨hacts, heq⟩ | ⟨as, hacts, heq⟩ | ⟨as, hacts, heq⟩ | ⟨as, hacts, -⟩
  · exact .inr ⟨by simp [hacts], commandEdge_lowers_errO (heq ▸ h) hs ht⟩
  · exact .inr ⟨by simp [hacts], commandEdge_lowers_errO (s := { s with acts := as }) (heq ▸ h) hs ht⟩
  · cases heq.symm.trans h
    have hhigh := errO_takeEdge (s := { s with acts := as }) hs
    exact absurd (hhigh.symm.trans ht) (by decide)
  · exact .inl (by simp [hacts])

/-- Settles O58: the levels by their definitions; the RSP_ERR comes last because `raise` ends its command; and `err_o` falls
neither by a take nor by any word but ABORT. -/
theorem outputLevels : Obligations.OutputLevels := by
  intro s
  exact ⟨errO_eq_true, idleO_eq_true, rspValid_eq_true, cmdReady_eq_true, List.take_append_drop _ _,
    fun _ _ => acceptWord_raises, fun _ => step_lowers_errO⟩

end Sys2Proof.Proofs
end

section
/-! PROOFS. No command reads what surrounds the engine: the words that wait, the FIFO's depth, the host's side
(10_state.md R44, 70_reset_and_hazards.md R371, R372). -/

open Sys2Proof Sys2Proof.Machine

namespace Sys2Proof.Proofs

/-- What surrounds the engine: the words that wait before its own, the depth of the response FIFO, and the host's fields. -/
structure Surroundings where
  before : List Word
  depth : Nat
  cmds : List Word
  acts : List HostAct
  received : List Word

/-- The engine of s in other surroundings. -/
def Surroundings.around (h : Surroundings) (s : State) : State :=
  { s with
    rsp := h.before ++ s.rsp, params := { s.params with rspFifoDepth := h.depth }, cmds := h.cmds, acts := h.acts,
    received := h.received }

/-- A flow with its state in other surroundings. -/
def Surroundings.flow (h : Surroundings) : Flow → Flow
  | .cont s => .cont (h.around s)
  | .ended s => .ended (h.around s)
  | .fault r => .fault r

/-- A result with its state in other surroundings. -/
def Surroundings.result (h : Surroundings) : Result → Result
  | .next s => .next (h.around s)
  | .fault r => .fault r
  | .refused r => .refused r

/-- A piece of pseudocode does the same in all surroundings. -/
def Blind (body : State → Flow) : Prop := ∀ (h : Surroundings) (s : State), body (h.around s) = h.flow (body s)

theorem Surroundings.flow_result (h : Surroundings) (f : Flow) : (h.flow f).result = h.result f.result := by
  cases f <;> rfl

theorem Blind.andThen {f g : State → Flow} (hf : Blind f) (hg : Blind g) : Blind fun s => (f s).andThen g := by
  intro h s
  simp only [hf h s]
  cases f s with
  | cont t => exact hg h t
  | ended t => rfl
  | fault r => rfl

/-- A branch on what the engine holds is taken alike in all surroundings. -/
theorem Blind.ite {p : State → Prop} [DecidablePred p] {f g : State → Flow}
    (hp : ∀ (h : Surroundings) s, p (h.around s) ↔ p s) (hf : Blind f) (hg : Blind g) :
    Blind fun s => if p s then f s else g s := by
  intro h s
  by_cases hs : p s
  · simp only [hp h s, hs, if_true, hf h s]
  · simp only [hp h s, hs, if_false, hg h s]

/-! ### The shared operations in other surroundings -/

theorem emitAll_around (ws : List Word) (h : Surroundings) (s : State) :
    emitAll ws (h.around s) = h.around (emitAll ws s) := by
  simp [emitAll, Surroundings.around]

theorem raise_around (e : Err) (h : Surroundings) (s : State) : raise e (h.around s) = h.around (raise e s) :=
  emitAll_around [(Response.err e).word] h { s with err := e, state := .error }

theorem writeBit_around (b : Bool) (h : Surroundings) (s : State) :
    writeBit b (h.around s) = h.around (writeBit b s) := by
  by_cases hfull : s.bwCnt = 7
  · rw [writeBit_of_eq b hfull, writeBit_of_eq b (s := h.around s) hfull]
    simp [Surroundings.around]
  · rw [writeBit_of_ne b hfull, writeBit_of_ne b (s := h.around s) hfull]
    rfl

theorem writeCode_around (c : Bits) (h : Surroundings) (s : State) :
    writeCode c (h.around s) = h.around (writeCode c s) := by
  induction c generalizing s with
  | nil => rfl
  | cons b c ih =>
    show writeCode c (writeBit b (h.around s)) = h.around (writeCode c (writeBit b s))
    rw [writeBit_around, ih]

theorem flush_around (h : Surroundings) (s : State) : flush (h.around s) = h.around (flush s) := by
  unfold flush
  show (if 0 < s.bwCnt.val then _ else _) = _
  split_ifs with hheld
  · exact congrArg clearWriter (emitAll_around [(Response.byte s.bwAcc).word] h s)
  · rfl

theorem blind_raiseEnd (e : Err) : Blind (raiseEnd e) := fun h s => congrArg Flow.ended (raise_around e h s)

theorem blind_tabPush (e : Entry) : Blind (tabPush e) :=
  .ite (fun _ _ => .rfl) (fun _ _ => rfl) fun _ _ => rfl

/-! ### The encode commands -/

theorem blind_count (v : Sym) : Blind (count v) :=
  .ite (fun _ _ => .rfl) (blind_raiseEnd _) <|
  .ite (fun _ _ => .rfl) (fun _ _ => rfl) <|
  .ite (fun _ _ => .rfl) (blind_raiseEnd _) <|
  (blind_tabPush _).andThen fun _ _ => rfl

theorem blind_code (v : Sym) : Blind (code v) := by
  intro h s
  have htab : (h.around s).tab = s.tab := rfl
  simp only [code, htab]
  cases findSym v s.tab with
  | some e => exact congrArg Flow.cont (writeCode_around e.code h s)
  | none => exact blind_raiseEnd _ h s

theorem blind_encSymBody (val : Val) : Blind (encSymBody val) :=
  .ite (fun _ _ => .rfl) (.ite (fun _ _ => .rfl) (blind_count _) (blind_code _)) (blind_raiseEnd _)

theorem blind_buildCodes : Blind buildCodes := by
  refine .ite (fun _ _ => .rfl) (blind_raiseEnd _) fun h s => ?_
  have hemit := emitAll_around ((headerBytes (assignCodes (codesOf s.tab) s.tab)).map fun b => (Response.byte b).word) h
    { s with tab := assignCodes (codesOf s.tab) s.tab }
  exact congrArg (fun t => Flow.cont { clearWriter t with state := .encBody }) hemit

theorem blind_encBuildBody : Blind encBuildBody := (blind_tabPush _).andThen blind_buildCodes

theorem blind_encEndBody : Blind encEndBody := by
  intro h s
  have htab : (h.around s).tab = s.tab := rfl
  simp only [encEndBody, htab]
  cases findSym sentinel s.tab with
  | some e =>
    have hdone : emit (.done .enc) (flush (writeCode e.code (h.around s))) =
        h.around (emit (.done .enc) (flush (writeCode e.code s))) := by
      rw [writeCode_around, flush_around]
      exact emitAll_around _ h _
    exact congrArg (fun t => Flow.cont { t with state := .idle }) hdone
  | none => rfl

/-! ### The decode commands -/

theorem blind_finishSym : Blind finishSym :=
  .ite (fun _ _ => .rfl) (blind_raiseEnd _) <|
  .ite (fun _ _ => .rfl) (fun _ _ => rfl) (blind_raiseEnd _)

theorem blind_finishCode : Blind finishCode :=
  .ite (fun _ _ => .rfl) (blind_raiseEnd _) <|
  .ite (fun _ _ => .rfl) (blind_raiseEnd _) <|
  .ite (fun _ _ => .rfl) (blind_raiseEnd _) <|
  .ite (fun _ _ => .rfl) (blind_raiseEnd _) <|
  fun h s => (blind_tabPush ⟨s.hpSym, 0, s.hpCode⟩).andThen (fun _ _ => rfl) h s

theorem codeChar_around (c : Byte) (h : Surroundings) (s : State) :
    codeChar c (h.around s) = h.around (codeChar c s) := by
  unfold codeChar
  by_cases hbit : c = 0x30#8 ∨ c = 0x31#8
  · by_cases hlen : s.hpLen < s.params.maxCodeLen
    · have hlen' : (h.around s).hpLen < (h.around s).params.maxCodeLen := hlen
      simp only [hbit, hlen, hlen', if_true]
      rfl
    · have hlen' : ¬ (h.around s).hpLen < (h.around s).params.maxCodeLen := hlen
      simp only [hbit, hlen, hlen', if_true, if_false]
      rfl
  · simp only [hbit, if_false]
    rfl

theorem blind_hdrByte (c : Byte) : Blind (hdrByte c) := by
  intro h s
  have hphase : (h.around s).hpPhase = s.hpPhase := rfl
  cases hp : s.hpPhase <;> cases hc : classify c <;> simp only [hdrByte, hphase, hp, hc]
  case symWait.sep | symWait.nl | symWait.digit | symWait.other | symIn.digit | symIn.other | codeWait.sep => rfl
  case symIn.sep => exact blind_finishSym h s
  case symIn.nl => exact blind_finishSym.andThen (blind_raiseEnd _) h s
  case codeWait.nl => exact blind_raiseEnd _ h s
  case codeWait.digit | codeWait.other =>
    exact congrArg Flow.cont (codeChar_around c h { s with hpCode := [], hpLen := 0, hpBad := false, hpPhase := .codeIn })
  case codeIn.digit | codeIn.other => exact congrArg Flow.cont (codeChar_around c h s)
  case codeIn.sep => exact blind_finishCode h s
  case codeIn.nl => exact blind_finishCode.andThen (fun _ _ => rfl) h s

theorem blind_bodyBit (b : Bool) : Blind (bodyBit b) := by
  intro h s
  have hfind : findCode ((h.around s).cand ++ [b]) (h.around s).tab = findCode (s.cand ++ [b]) s.tab := rfl
  have hmax : (((h.around s).cand ++ [b]).length = (h.around s).params.maxCodeLen) =
    ((s.cand ++ [b]).length = s.params.maxCodeLen) := rfl
  cases hf : findCode (s.cand ++ [b]) s.tab with
  | some e =>
    simp only [bodyBit, hfind, hf]
    split_ifs
    · exact congrArg (fun u => Flow.ended { u with state := .decTail })
        (emitAll_around [(Response.done .dec).word] h { s with cand := s.cand ++ [b] })
    · exact congrArg (fun u => Flow.cont { u with cand := [] })
        (emitAll_around [(Response.sym e.sym).word] h { s with cand := s.cand ++ [b] })
  | none =>
    simp only [bodyBit, hfind, hf, hmax]
    split_ifs
    · exact blind_raiseEnd .bodyNoMatch h { s with cand := s.cand ++ [b] }
    · rfl

theorem blind_bodyBits (bs : Bits) : Blind (bodyBits bs) := by
  induction bs with
  | nil => exact fun _ _ => rfl
  | cons b bs ih => exact (blind_bodyBit b).andThen ih

theorem blind_decByteBody (b : Byte) : Blind (decByteBody b) := by
  intro h s
  have hstate : (h.around s).state = s.state := rfl
  simp only [decByteBody, hstate]
  cases s.state with
  | decHeader => exact blind_hdrByte b h s
  | decBody => exact blind_bodyBits _ h s
  | decTail | idle | encCount | encBody | error => rfl

theorem blind_decEndBody : Blind decEndBody :=
  .ite (fun _ _ => .rfl) (blind_raiseEnd _) <|
  .ite (fun _ _ => .rfl) (blind_raiseEnd _) fun _ _ => rfl

theorem blind_getStatusBody : Blind getStatusBody := fun h s => congrArg Flow.cont (emitAll_around _ h s)

/-! ### Commands and accepted words -/

theorem commonChecks_around {body : State → Flow} (hbody : Blind body) (i : Instr) (h : Surroundings) (s : State) :
    commonChecks i body (h.around s) = h.result (commonChecks i body s) := by
  have hstate : (h.around s).state = s.state := rfl
  simp only [commonChecks, hstate]
  split_ifs
  · rw [hbody h s, h.flow_result]
  · rfl
  · rw [hbody h s, h.flow_result]
  · exact congrArg Host.Outcome.next (raise_around _ h s)

theorem exec_around (i : Instr) (h : Surroundings) (s : State) : exec i (h.around s) = h.result (exec i s) := by
  cases i with
  | nop => exact commonChecks_around (body := Flow.cont) (fun _ _ => rfl) _ h s
  | encBegin => exact commonChecks_around (body := encBeginBody) (fun _ _ => rfl) _ h s
  | encSym val => exact commonChecks_around (blind_encSymBody val) _ h s
  | encBuild => exact commonChecks_around blind_encBuildBody _ h s
  | encEnd => exact commonChecks_around blind_encEndBody _ h s
  | decBegin => exact commonChecks_around (body := decBeginBody) (fun _ _ => rfl) _ h s
  | decByte b => exact commonChecks_around (blind_decByteBody b) _ h s
  | decEnd => exact commonChecks_around blind_decEndBody _ h s
  | getStatus => exact commonChecks_around blind_getStatusBody _ h s
  | abort => exact commonChecks_around (body := abortBody) (fun _ _ => rfl) _ h s

theorem execIllegal_around (h : Surroundings) (s : State) : execIllegal (h.around s) = h.result (execIllegal s) := by
  have hstate : (h.around s).state = s.state := rfl
  simp only [execIllegal, hstate]
  split_ifs
  · rfl
  · exact congrArg Host.Outcome.next (raise_around _ h s)

/-- An accepted word does the same in all surroundings (R371, R372). -/
theorem acceptWord_around (w : Word) (h : Surroundings) (s : State) :
    acceptWord w (h.around s) = h.result (acceptWord w s) := by
  cases hd : decode w with
  | ok i =>
    rw [acceptWord_ok hd, acceptWord_ok hd]
    exact exec_around i h { s with ci := s.ci + 1 }
  | error e =>
    rw [acceptWord_error hd, acceptWord_error hd]
    exact execIllegal_around h { s with ci := s.ci + 1 }

/-- A result in other surroundings is a next state only from a next state. -/
theorem result_eq_next {h : Surroundings} {r : Result} {t : State} (hr : h.result r = .next t) :
    ∃ u, r = .next u ∧ t = h.around u := by
  cases r with
  | next u => cases hr; exact ⟨u, rfl, rfl⟩
  | fault r => cases hr
  | refused r => cases hr

/-- The surroundings of a state's engine. -/
def surroundingsOf (s : State) : Surroundings := ⟨s.rsp, s.params.rspFifoDepth, s.cmds, s.acts, s.received⟩

/-- A state is its engine with nothing of its own waiting, in the state's surroundings. -/
theorem around_surroundingsOf (s : State) : (surroundingsOf s).around { s with rsp := [] } = s := by
  simp [Surroundings.around, surroundingsOf]

/-- Settles O48: what the command emits is what it emits from the engine with an empty S.rsp, and the same in all
surroundings. -/
theorem responsesOnlyAppended : Obligations.ResponsesOnlyAppended := by
  intro w s t h
  have halone := acceptWord_around w (surroundingsOf s) { s with rsp := [] }
  rw [around_surroundingsOf, h] at halone
  obtain ⟨u, hu, rfl⟩ := result_eq_next halone.symm
  have hparams : u.params = s.params := (acceptWord_ends hu).keeps.params
  refine ⟨u.rsp, rfl, fun r d cs as g => ?_⟩
  have hother := acceptWord_around w ⟨r, d, cs, as, g⟩ { s with rsp := [] }
  rw [hu] at hother
  simpa [Surroundings.around, Surroundings.result, hparams] using hother

end Sys2Proof.Proofs
end

section
/-! PROOFS. The decoder and the encoder are each other's inverse, and what each of the 2^32 words is (30_encoding.md R110 to
R117). -/

open Sys2Proof Sys2Proof.Machine

namespace Sys2Proof.Proofs

/-- The payload of DEC_BYTE: the byte, and above it nothing (R113). -/
theorem payloadField_eq_setWidth {w : Word} {b : Byte} :
    payloadField w = b.setWidth 28 ↔ byteReserved w = 0#20 ∧ byteField w = b := by
  have hb := b.isLt
  simp only [← BitVec.toNat_inj, payloadField_toNat, byteReserved_toNat, byteField_toNat, BitVec.toNat_setWidth,
    BitVec.toNat_ofNat]
  omega

/-- A word decodes to a command exactly when its two fields are the command's opcode and payload (R110 to R114, R117). -/
theorem decode_eq_ok_iff {w : Word} {i : Instr} :
    decode w = .ok i ↔ opField w = opcode i ∧ payloadField w = operand i := by
  constructor
  · intro h
    unfold decode at h
    split at h
    case h_3 hop =>
      cases h
      exact ⟨BitVec.eq_of_toNat_eq hop, rfl⟩
    case h_7 hop =>
      split_ifs at h with hreserved
      cases h
      exact ⟨BitVec.eq_of_toNat_eq hop, payloadField_eq_setWidth.2 ⟨hreserved, rfl⟩⟩
    case h_11 => cases h
    all_goals
      next hop =>
      obtain ⟨hpayload, rfl⟩ := decodePlain_eq_ok.1 h
      exact ⟨BitVec.eq_of_toNat_eq hop, hpayload⟩
  · rintro ⟨hop, hpayload⟩
    unfold decode
    rw [hop]
    cases i with
    | encSym v => exact congrArg (fun u => Except.ok (Instr.encSym u)) hpayload
    | decByte b =>
      obtain ⟨hreserved, rfl⟩ := payloadField_eq_setWidth.1 hpayload
      exact if_pos hreserved
    | nop | encBegin | encBuild | encEnd | decBegin | decEnd | getStatus | abort =>
      exact decodePlain_eq_ok.2 ⟨hpayload, rfl⟩

theorem decode_encode (i : Instr) : decode (encode i) = .ok i :=
  decode_eq_ok_iff.2 ⟨opField_encode i, payloadField_encode i⟩

theorem eq_encode_of_decode {w : Word} {i : Instr} (h : decode w = .ok i) : w = encode i := by
  obtain ⟨hop, hpayload⟩ := decode_eq_ok_iff.1 h
  rw [word_eq_fields w, hop, hpayload, encode]

/-- Settles O1: a word decodes to a command exactly when it has the command's fields, and the fields are the whole word. -/
theorem decodeAndEncodeAgree : Obligations.DecodeAndEncodeAgree :=
  fun i => ⟨decode_encode i, fun _ => eq_encode_of_decode⟩

/-! ### The decoder in arithmetic on the word's number -/

theorem decode_eq_ok_iff_toNat {w : Word} {i : Instr} :
    decode w = .ok i ↔ w.toNat / 2 ^ 28 = (opcode i).toNat ∧ w.toNat % 2 ^ 28 = (operand i).toNat := by
  rw [decode_eq_ok_iff, ← BitVec.toNat_inj, ← BitVec.toNat_inj, opField_toNat, payloadField_toNat]

/-- A word is illegal when no command with its opcode has its payload. -/
theorem decode_error_of_operand_ne {w : Word}
    (h : ∀ i, w.toNat / 2 ^ 28 = (opcode i).toNat → w.toNat % 2 ^ 28 ≠ (operand i).toNat) :
    ∃ e, decode w = .error e := by
  cases hd : decode w with
  | error e => exact ⟨e, rfl⟩
  | ok i =>
    obtain ⟨hop, hpayload⟩ := decode_eq_ok_iff_toNat.1 hd
    exact absurd hpayload (h i hop)

theorem operand_decByte_toNat (b : Byte) : (operand (.decByte b)).toNat = b.toNat := by
  have hb := b.isLt
  rw [operand, BitVec.toNat_setWidth]
  omega

/-- Every opcode but those of ENC_SYM and DEC_BYTE has the zero payload only (R114). -/
theorem operand_eq_zero_of_opcode {i : Instr} (hsym : (opcode i).toNat ≠ 2) (hbyte : (opcode i).toNat ≠ 6) :
    operand i = 0 := by
  cases i with
  | encSym v => exact absurd rfl hsym
  | decByte b => exact absurd rfl hbyte
  | nop | encBegin | encBuild | encEnd | decBegin | decEnd | getStatus | abort => rfl

/-- The command of DEC_BYTE's opcode has a payload below 2^8 (R113). -/
theorem operand_lt_of_opcode {i : Instr} (hbyte : (opcode i).toNat = 6) : (operand i).toNat < 256 := by
  cases i with
  | decByte b => exact operand_decByte_toNat b ▸ b.isLt
  | encSym v => cases hbyte
  | nop | encBegin | encBuild | encEnd | decBegin | decEnd | getStatus | abort => cases hbyte

/-- No command has a reserved opcode (R111). -/
theorem opcode_not_reserved (i : Instr) : (opcode i).toNat ∉ [9, 10, 11, 12, 13, 15] := by
  cases i <;> simp [opcode]

/-- Settles O2: a word is the command whose opcode and payload it holds, and illegal when no command has them. -/
theorem decodeByOpcodeAndPayload : Obligations.DecodeByOpcodeAndPayload := by
  intro w op p
  have hplain : ∀ oi ∈ [(0, Instr.nop), (1, .encBegin), (3, .encBuild), (4, .encEnd), (5, .decBegin), (7, .decEnd),
      (8, .getStatus), (14, .abort)], oi.1 = (opcode oi.2).toNat ∧ operand oi.2 = 0 ∧ oi.1 ≠ 2 ∧ oi.1 ≠ 6 := by decide
  refine ⟨fun hop => ?_, fun hop hp => ?_, fun hop hp => ?_, fun oi hoi hop => ?_, fun hop => ?_⟩
  · exact decode_eq_ok_iff_toNat.2 ⟨hop, (Nat.mod_mod _ _).symm⟩
  · refine decode_eq_ok_iff_toNat.2 ⟨hop, ?_⟩
    rw [operand_decByte_toNat, BitVec.toNat_ofNat]
    exact (Nat.mod_eq_of_lt hp).symm
  · refine decode_error_of_operand_ne fun i hi => ?_
    have := operand_lt_of_opcode (hi.symm.trans hop)
    show p ≠ _
    omega
  · obtain ⟨hcode, hzero, hsym, hbyte⟩ := hplain oi hoi
    constructor
    · intro hp
      exact decode_eq_ok_iff_toNat.2 ⟨hop.trans hcode, by rw [hzero]; exact hp⟩
    · refine fun hp => decode_error_of_operand_ne fun i hi => ?_
      have hi' : (opcode i).toNat = oi.1 := hi.symm.trans hop
      rw [operand_eq_zero_of_opcode (hi' ▸ hsym) (hi' ▸ hbyte)]
      exact hp
  · refine decode_error_of_operand_ne fun i hi => absurd ?_ (opcode_not_reserved i)
    rwa [← hi]

/-- Settles O3: eleven of the words are encodings, so they decode to their commands; the other four are evaluated. -/
theorem wordsOfTheOpcodeMap : Obligations.WordsOfTheOpcodeMap :=
  ⟨decode_encode .nop, decode_encode .encBegin, decode_encode (.encSym 65#28), decode_encode (.encSym 0xFFFFFFF#28),
    decode_encode .encBuild, decode_encode .encEnd, decode_encode .decBegin, decode_encode (.decByte 0x0A#8),
    decode_encode .decEnd, decode_encode .getStatus, decode_encode .abort, rfl, rfl, rfl, rfl⟩

end Sys2Proof.Proofs
end

section
/-! PROOFS. Listed commands and pseudo-commands assemble to their words (30_encoding.md R120, R121). -/

open Sys2Proof Sys2Proof.Machine

namespace Sys2Proof.Proofs

/-! ### Listed commands -/

theorem toInstr?_encSym {v : Nat} (h : v ≤ 0x0FFFFFFF) :
    (RawCommand.encSym v).toInstr? = some (.encSym (BitVec.ofNat 28 v)) :=
  if_pos (decide_eq_true h)

theorem toInstr?_decByte {b : Nat} (h : b ≤ 0xFF) :
    (RawCommand.decByte b).toInstr? = some (.decByte (BitVec.ofNat 8 b)) :=
  if_pos (decide_eq_true h)

/-- A listed command assembles to nothing exactly when its operand is out of range. -/
theorem toInstr?_eq_none_iff {r : RawCommand} : r.toInstr? = none ↔ r.wf = false := by
  cases r <;> simp [RawCommand.toInstr?]

theorem wf_of_toInstr? {r : RawCommand} {i : Instr} (h : r.toInstr? = some i) : r.wf = true := by
  by_contra hwf
  rw [toInstr?_eq_none_iff.2 (Bool.eq_false_of_not_eq_true hwf)] at h
  cases h

theorem encode_encSym {v : Nat} (h : v ≤ 0x0FFFFFFF) :
    encode (.encSym (BitVec.ofNat 28 v)) = BitVec.ofNat 32 (0x20000000 + v) := by
  apply BitVec.eq_of_toNat_eq
  rw [encode_toNat]
  show 2 * 2 ^ 28 + v % 2 ^ 28 = (0x20000000 + v) % 2 ^ 32
  omega

theorem encode_decByte {b : Nat} (h : b ≤ 0xFF) :
    encode (.decByte (BitVec.ofNat 8 b)) = BitVec.ofNat 32 (0x60000000 + b) := by
  apply BitVec.eq_of_toNat_eq
  rw [encode_toNat, operand_decByte_toNat]
  show 6 * 2 ^ 28 + b % 2 ^ 8 = (0x60000000 + b) % 2 ^ 32
  omega

/-! ### Sequences of listed commands -/

theorem checkAll_eq_ok_iff {rs : List RawCommand} {is : List Instr} :
    checkAll rs = .ok is ↔ rs.mapM RawCommand.toInstr? = some is := by
  unfold checkAll
  cases rs.mapM RawCommand.toInstr? <;> simp

theorem checkAll_append {rs qs : List RawCommand} {is js : List Instr} (h : checkAll rs = .ok is)
    (g : checkAll qs = .ok js) : checkAll (rs ++ qs) = .ok (is ++ js) := by
  rw [checkAll_eq_ok_iff] at *
  simp [List.mapM_append, h, g]

theorem checkAll_map {raw : Nat → RawCommand} {cmd : Nat → Instr} {xs : List Nat}
    (h : ∀ x ∈ xs, (raw x).toInstr? = some (cmd x)) : checkAll (xs.map raw) = .ok (xs.map cmd) := by
  induction xs with
  | nil => rfl
  | cons x xs ih =>
    have hx : checkAll [raw x] = .ok [cmd x] := checkAll_eq_ok_iff.2 (by simp [h x])
    exact checkAll_append hx (ih fun y hy => h y (List.mem_cons_of_mem x hy))

theorem checkAll_plain (i : Instr) : checkAll [.plain i] = .ok [i] := rfl

/-- ENC_SYMS gives one ENC_SYM for each character (R121). -/
theorem checkAll_encSyms {t : List Nat} (ht : ∀ c ∈ t, c ≤ 0x0FFFFFFF) :
    checkAll (Pseudo.encSyms t).expand = .ok (t.map fun c => .encSym (BitVec.ofNat 28 c)) :=
  checkAll_map fun c hc => toInstr?_encSym (ht c hc)

/-- ENCODE is ENC_BEGIN, the text, ENC_BUILD, the text again and ENC_END (R121). -/
theorem checkAll_encode {t : List Nat} (ht : ∀ c ∈ t, c ≤ 0x0FFFFFFF) :
    checkAll (Pseudo.encode t).expand = .ok ([.encBegin] ++ t.map (fun c => .encSym (BitVec.ofNat 28 c)) ++
      [.encBuild] ++ t.map (fun c => .encSym (BitVec.ofNat 28 c)) ++ [.encEnd]) :=
  have htext := checkAll_encSyms ht
  checkAll_append (checkAll_append (checkAll_append (checkAll_append (checkAll_plain .encBegin) htext)
    (checkAll_plain .encBuild)) htext) (checkAll_plain .encEnd)

/-- DEC_BYTES gives one DEC_BYTE for each number (R121). -/
theorem checkAll_decBytes {bs : List Nat} (hbs : ∀ b ∈ bs, b ≤ 0xFF) :
    checkAll (Pseudo.decBytes bs).expand = .ok (bs.map fun b => .decByte (BitVec.ofNat 8 b)) :=
  checkAll_map fun b hb => toInstr?_decByte (hbs b hb)

/-- DECODE is DEC_BEGIN, the bytes and DEC_END (R121). -/
theorem checkAll_decode {bs : List Nat} (hbs : ∀ b ∈ bs, b ≤ 0xFF) :
    checkAll (Pseudo.decode bs).expand =
      .ok ([.decBegin] ++ bs.map (fun b => .decByte (BitVec.ofNat 8 b)) ++ [.decEnd]) :=
  checkAll_append (checkAll_append (checkAll_plain .decBegin) (checkAll_decBytes hbs)) (checkAll_plain .decEnd)

/-- Settles O4: an operand in range fills its field without loss, one out of range is refused, and each pseudo-command is
checked and encoded piece by piece. -/
theorem listingAssembles : Obligations.ListingAssembles := by
  refine ⟨fun r i hr => ?_, fun r => ?_, fun t ht => ⟨⟨_, checkAll_encSyms ht, ?_⟩, _, checkAll_encode ht, ?_⟩,
    fun bs hbs => ⟨⟨_, checkAll_decBytes hbs, ?_⟩, _, checkAll_decode hbs, ?_⟩, _, checkAll_plain .getStatus, rfl⟩
  · have hwf := wf_of_toInstr? hr
    cases r with
    | plain j => cases hr; rfl
    | encSym v =>
      have hv : v ≤ 0x0FFFFFFF := of_decide_eq_true hwf
      cases (toInstr?_encSym hv).symm.trans hr
      exact encode_encSym hv
    | decByte b =>
      have hb : b ≤ 0xFF := of_decide_eq_true hwf
      cases (toInstr?_decByte hb).symm.trans hr
      exact encode_decByte hb
  · rw [toInstr?_eq_none_iff]
    cases r <;> simp [RawCommand.wf]
  · simpa using fun c hc => encode_encSym (ht c hc)
  · simp only [encodeWords, List.map_append, List.map_map]
    rfl
  · simpa using fun b hb => encode_decByte (hbs b hb)
  · simp only [decodeWords, List.map_append, List.map_map]
    rfl

end Sys2Proof.Proofs
end

section
/-! PROOFS. The codes of any table: none begins with another, one for each entry, their lengths, and that they do not depend on
the table's order (40_tree_construction.md R160 to R164). -/

open Sys2Proof Sys2Proof.Machine

namespace Sys2Proof.Proofs

/-- Settles O20: the codes of a nonempty table are the paths to the leaves of one tree, which are pairwise apart; the empty table
has none. -/
theorem codesArePrefixFree : Obligations.CodesArePrefixFree := by
  intro tab
  rcases eq_or_ne tab [] with rfl | hne
  · exact List.Pairwise.nil
  · obtain ⟨-, hapart, -⟩ := codesOf_prefixCode hne
    exact List.pairwise_map.2 hapart

/-- Settles O19: merging keeps the leaves, which are the table's symbols at first. -/
theorem everyEntryGetsOneCode : Obligations.EveryEntryGetsOneCode := by
  intro tab
  rcases eq_or_ne tab [] with rfl | hne
  · exact .nil
  · obtain ⟨hsyms, -, -⟩ := codesOf_prefixCode hne
    exact hsyms

/-! ### Lengths -/

/-- A code is longer than the path it extends by fewer bits than the tree has leaves (R163). -/
theorem codes_length_lt (t : Tree) (p : Bits) : ∀ c ∈ t.codes p, c.2.length < p.length + t.leaves.length := by
  induction t generalizing p with
  | leaf w v => simp [Tree.codes, Tree.leaves]
  | node l r ihl ihr =>
    have hl := l.leaves_length_pos
    have hr := r.leaves_length_pos
    intro c hc
    have hleaves : (Machine.Tree.node l r).leaves.length = l.leaves.length + r.leaves.length := List.length_append
    rcases List.mem_append.1 hc with hc | hc
    · have := ihl _ c hc
      simp only [List.length_append, List.length_singleton] at this
      omega
    · have := ihr _ c hc
      simp only [List.length_append, List.length_singleton] at this
      omega

/-- With two or more entries a code is shorter than the table (R163). -/
theorem codesOf_length_lt {tab : List Entry} (h : 2 ≤ tab.length) : ∀ c ∈ codesOf tab, c.2.length < tab.length := by
  obtain ⟨t, hmerge, hcodes⟩ := codesOf_spec h
  have hleaves : t.leaves.length = tab.length := by
    rw [hmerge.leaves.length_eq, leafTrees_leaves, List.length_map]
  intro c hc
  simpa [hleaves] using codes_length_lt t [] c (hcodes ▸ hc)

/-- Settles O21: no code is empty, and a tree of m leaves has no path longer than m - 1. -/
theorem codeLengthBounds : Obligations.CodeLengthBounds := by
  refine ⟨fun tab h c hc => ⟨?_, ?_⟩, fun _ => rfl⟩
  · have hne : tab ≠ [] := by rintro rfl; simp at h
    obtain ⟨-, -, hnonempty⟩ := codesOf_prefixCode hne
    exact List.length_pos_iff.2 (hnonempty c hc)
  · exact Nat.le_sub_one_of_lt (codesOf_length_lt h c hc)

/-! ### Merging does not depend on the order of the forest -/

/-- No two trees of the forest have the same minsym, so no two have the same key (R154). -/
abbrev DistinctMinsyms (ts : List Tree) : Prop := (ts.map Tree.minsym).Nodup

theorem minSym_eq_or (a b : Sym) : minSym a b = a ∨ minSym a b = b := by
  unfold minSym
  split_ifs
  · exact .inl rfl
  · exact .inr rfl

/-- A merge keeps the minsyms distinct: the new tree has one of the two it was made of (R154, R155). -/
theorem merge_distinctMinsyms {ts ts' : List Tree} (h : Merge ts ts') (hd : DistinctMinsyms ts) : DistinctMinsyms ts' := by
  obtain @⟨rest, a, b, hp, -, -⟩ := h
  have hall := (hp.map Tree.minsym).nodup_iff.1 hd
  simp only [List.map_cons, List.nodup_cons, List.mem_cons, not_or] at hall
  obtain ⟨⟨-, ha⟩, hb, hrest⟩ := hall
  have hnew : minSym a.minsym b.minsym ∉ rest.map Tree.minsym := by
    rcases minSym_eq_or a.minsym b.minsym with heq | heq <;> rw [heq] <;> assumption
  refine (List.perm_append_singleton _ rest |>.map Tree.minsym).nodup_iff.2 ?_
  exact List.nodup_cons.2 ⟨hnew, hrest⟩

/-- Of trees with distinct minsyms only one has none below it (R154). -/
theorem least_unique {ts : List Tree} (hd : DistinctMinsyms ts) {a b : Tree} (ha : a ∈ ts) (hb : b ∈ ts)
    (hla : ∀ x ∈ ts, x.notBelow a) (hlb : ∀ x ∈ ts, x.notBelow b) : a = b := by
  have hab := hlb a ha
  have hba := hla b hb
  have hkey : a.minsym.toNat = b.minsym.toNat := by
    simp only [Tree.notBelow] at hab hba
    omega
  exact List.inj_on_of_nodup_map hd ha hb (BitVec.eq_of_toNat_eq hkey)

/-- Merges of the same forest in two orders leave the same forest (R160). -/
theorem merge_perm_unique {ts us ts' us' : List Tree} (h : Merge ts ts') (g : Merge us us') (hp : ts.Perm us)
    (hd : DistinctMinsyms ts) : ts'.Perm us' := by
  obtain @⟨rest, a, b, hts, ha, hb⟩ := h
  obtain @⟨rest', a', b', hus, ha', hb'⟩ := g
  have hfst : a = a' := least_unique hd (hts.mem_iff.2 (by simp)) (hp.mem_iff.2 (hus.mem_iff.2 (by simp))) ha
    fun x hx => ha' x (hp.mem_iff.1 hx)
  subst hfst
  have htail : (b :: rest).Perm (b' :: rest') := (hts.symm.trans (hp.trans hus)).cons_inv
  have hdtail : DistinctMinsyms (b :: rest) := (List.nodup_cons.1 ((hts.map Tree.minsym).nodup_iff.1 hd)).2
  have hsnd : b = b' := least_unique hdtail (by simp) (htail.mem_iff.2 (by simp)) hb fun x hx => hb' x (htail.mem_iff.1 hx)
  subst hsnd
  exact htail.cons_inv.append_right _

theorem two_le_length_of_merge {ts ts' : List Tree} (h : Merge ts ts') : 2 ≤ ts.length := by
  obtain ⟨hp, -, -⟩ := h
  rw [hp.length_eq]
  exact Nat.le_add_left _ _

/-- However the forest is ordered, it merges down to the same tree (R160). -/
theorem mergesTo_unique {ts us : List Tree} {t u : Tree} (h : MergesTo ts t) (g : MergesTo us u) (hp : ts.Perm us)
    (hd : DistinctMinsyms ts) : t = u := by
  induction h generalizing us with
  | one t =>
    cases g with
    | one u => exact List.singleton_perm_singleton.1 hp
    | step hmerge _ =>
      have := two_le_length_of_merge hmerge
      rw [← hp.length_eq] at this
      simp at this
  | step hmerge _ ih =>
    cases g with
    | one u =>
      have := two_le_length_of_merge hmerge
      rw [hp.length_eq] at this
      simp at this
    | step hmerge' g' => exact ih g' (merge_perm_unique hmerge hmerge' hp hd) (merge_distinctMinsyms hmerge hd)

/-! ### The table's order -/

/-- What the tree of a table is made from: the symbol and count of each entry (R160). -/
abbrev pairsOf (tab : List Entry) : List (Sym × Nat) := tab.map fun e => (e.sym, e.cnt)

theorem leafTrees_eq (tab : List Entry) : leafTrees tab = (pairsOf tab).map fun p => .leaf p.2 p.1 := by
  simp [leafTrees, Function.comp_def]

theorem leafTrees_minsym (tab : List Entry) : (leafTrees tab).map Tree.minsym = tab.map Entry.sym := by
  simp [leafTrees, Function.comp_def, Tree.minsym]

theorem assignCodes_eq (codes : List (Sym × Bits)) (tab : List Entry) :
    assignCodes codes tab = (pairsOf tab).map fun p => ⟨p.1, p.2, codeFor codes p.1⟩ := by
  simp [assignCodes, Function.comp_def]

/-- Tables of the same pairs get the same codes in the same order of leaves (R160). -/
theorem codesOf_eq_of_perm {t₁ t₂ : List Entry} (hd : DistinctSyms t₁) (hp : (pairsOf t₁).Perm (pairsOf t₂)) :
    codesOf t₁ = codesOf t₂ := by
  have hlen : t₁.length = t₂.length := by simpa using hp.length_eq
  by_cases h2 : 2 ≤ t₁.length
  · obtain ⟨u₁, hm₁, hc₁⟩ := codesOf_spec h2
    obtain ⟨u₂, hm₂, hc₂⟩ := codesOf_spec (hlen ▸ h2)
    have hforest : (leafTrees t₁).Perm (leafTrees t₂) := by
      rw [leafTrees_eq, leafTrees_eq]
      exact hp.map _
    have hminsyms : DistinctMinsyms (leafTrees t₁) := by rwa [DistinctMinsyms, leafTrees_minsym]
    rw [hc₁, hc₂, mergesTo_unique hm₁ hm₂ hforest hminsyms]
  · match t₁, t₂ with
    | [], [] => rfl
    | [e₁], [e₂] =>
      have hsym : e₁.sym = e₂.sym := congrArg Prod.fst (List.singleton_perm_singleton.1 hp)
      simp [codesOf, hsym]
    | _ :: _ :: _, _ => simp at h2

theorem distinctSyms_perm {t₁ t₂ : List Entry} (hd : DistinctSyms t₁) (hp : t₁.Perm t₂) : DistinctSyms t₂ :=
  (hp.map Entry.sym).nodup_iff.1 hd

/-- Sorting by distinct symbols forgets the order (R227). -/
theorem bySymbol_eq_of_perm {t₁ t₂ : List Entry} (hd : DistinctSyms t₁) (hp : t₁.Perm t₂) :
    bySymbol t₁ = bySymbol t₂ := by
  have hsort := List.perm_insertionSort fun a b : Entry => a.sym.toNat ≤ b.sym.toNat
  have htotal : Std.Total fun a b : Entry => a.sym.toNat ≤ b.sym.toNat := ⟨fun _ _ => Nat.le_total _ _⟩
  have htrans : IsTrans Entry fun a b => a.sym.toNat ≤ b.sym.toNat := ⟨fun _ _ _ => Nat.le_trans⟩
  refine List.Perm.eq_of_pairwise (fun a b ha hb hab hba => ?_) (List.pairwise_insertionSort _ t₁)
    (List.pairwise_insertionSort _ t₂) ((hsort t₁).trans (hp.trans (hsort t₂).symm))
  have ha₁ : a ∈ t₁ := (hsort t₁).mem_iff.1 ha
  have hb₁ : b ∈ t₁ := hp.mem_iff.2 ((hsort t₂).mem_iff.1 hb)
  exact List.inj_on_of_nodup_map hd ha₁ hb₁ (BitVec.eq_of_toNat_eq (Nat.le_antisymm hab hba))

theorem headerBytes_eq_of_perm {t₁ t₂ : List Entry} (hd : DistinctSyms t₁) (hp : t₁.Perm t₂) :
    headerBytes t₁ = headerBytes t₂ := by
  rw [headerBytes, bySymbol_eq_of_perm hd hp, headerBytes]

/-- Where symbols are distinct, the entry found does not depend on the order. -/
theorem findSym_eq_of_perm {t₁ t₂ : List Entry} (hd : DistinctSyms t₁) (hp : t₁.Perm t₂) (v : Sym) :
    findSym v t₁ = findSym v t₂ := by
  cases h : findSym v t₁ with
  | none => exact (findSym_eq_none.2 fun e he => findSym_eq_none.1 h e (hp.mem_iff.2 he)).symm
  | some e =>
    obtain ⟨he, rfl⟩ := findSym_eq_some h
    exact (findSym_of_mem (distinctSyms_perm hd hp) (hp.mem_iff.1 he)).symm

theorem bodyCode_eq_of_perm {t₁ t₂ : List Entry} (hd : DistinctSyms t₁) (hp : t₁.Perm t₂) (ys : List Val) :
    bodyCode t₁ ys = bodyCode t₂ ys := by
  simp only [bodyCode, findSym_eq_of_perm hd hp]

/-- Settles O22: merging does not depend on the forest's order, so the codes are the same; the coded tables are then
reorderings of each other, and neither the sorted header nor the lookup of a symbol depends on their order. -/
theorem outputIgnoresTableOrder : Obligations.OutputIgnoresTableOrder := by
  intro t₁ t₂ hd hp
  have hcodes := codesOf_eq_of_perm hd hp
  have hcoded : (assignCodes (codesOf t₁) t₁).Perm (assignCodes (codesOf t₂) t₂) := by
    rw [hcodes, assignCodes_eq, assignCodes_eq]
    exact hp.map _
  have hdistinct : DistinctSyms (assignCodes (codesOf t₁) t₁) := by rwa [DistinctSyms, assignCodes_map_sym]
  exact ⟨fun v => by rw [hcodes], headerBytes_eq_of_perm hdistinct hcoded, bodyCode_eq_of_perm hdistinct hcoded⟩

end Sys2Proof.Proofs
end

section
/-! PROOFS. The arena through BuildTree: what a merge takes and makes, and what every merge keeps
(40_tree_construction.md R154 to R157, 20_memory.md R81). -/

open Sys2Proof Sys2Proof.Machine Sys2Proof.Claims

namespace Sys2Proof.Proofs

/-! ### One merge -/

/-- Of two live nodes with different minsyms, the one whose key is not above the other's has the lower key (R154). -/
theorem keyBelow_of_keyLt_false {ar : Arena} {i j : Nat} {m n : Node} (hi : ar[i]? = some m) (hj : ar[j]? = some n)
    (hmin : m.minsym ≠ n.minsym) (h : keyLt (keyAt ar j) (keyAt ar i) = false) : keyBelow m n := by
  have hne : m.minsym.toNat ≠ n.minsym.toNat := fun heq => hmin (BitVec.eq_of_toNat_eq heq)
  simp only [keyAt, hi, hj, Bool.eq_false_iff, ne_eq, keyLt_iff] at h
  simp only [keyBelow]
  omega

/-- Settles O16: each extraction takes an index that no other's key is below, and with distinct minsyms no key is equal. -/
theorem mergeTakesTheTwoLeastTrees : Obligations.MergeTakesTheTwoLeastTrees := by
  intro ar live hnodup hbound hminsym hlen
  obtain ⟨a, b, na, nb, rest, ha, hb, hperm, hleast, hnext, hstep⟩ := mergeStep_spec hlen hbound
  have hmem : ∀ {x}, x ∈ a :: b :: rest → x ∈ live := hperm.mem_iff.2
  obtain ⟨ha_notMem, htail⟩ := List.nodup_cons.1 (hperm.nodup_iff.1 hnodup)
  obtain ⟨hb_notMem, -⟩ := List.nodup_cons.1 htail
  refine ⟨a, b, na, nb, rest, ha, hb, hperm, ?_, fun j hj nj hnj => ?_, hstep⟩
  · have hne : a ≠ b := fun h => ha_notMem (h ▸ List.mem_cons_self)
    have hmin : na.minsym ≠ nb.minsym := by
      simpa [ha, hb] using hminsym a (hmem (by simp)) b (hmem (by simp)) hne
    exact keyBelow_of_keyLt_false ha hb hmin (hleast b (hmem (by simp)))
  · have hne : b ≠ j := fun h => hb_notMem (h ▸ hj)
    have hmin : nb.minsym ≠ nj.minsym := by
      simpa [hb, hnj] using hminsym b (hmem (by simp)) j (hmem (by simp [hj])) hne
    exact keyBelow_of_keyLt_false hb hnj hmin (hnext j (by simp [hj]))

/-! ### What every merge keeps -/

/-- A merge as a relation: two live nodes become the children of a new node, which is live in their place (R155, R156). -/
inductive ArenaMerge (ar : Arena) (live : List Nat) : Arena → List Nat → Prop where
  | mk {a b na nb rest} (ha : ar[a]? = some na) (hb : ar[b]? = some nb) (hperm : live.Perm (a :: b :: rest)) :
    ArenaMerge ar live (ar ++ [⟨na.weight + nb.weight, minSym na.minsym nb.minsym, .internal a b⟩]) (rest ++ [ar.length])

/-- Everything a turn of BuildTree's loop can do: nothing, with at most one live index, or a merge. -/
theorem mergeStep_cases {ar : Arena} {live : List Nat} (h : ∀ i ∈ live, i < ar.length) :
    mergeStep ar live = none ∨ ∃ ar' live', mergeStep ar live = some (ar', live') ∧ ArenaMerge ar live ar' live' := by
  by_cases hlen : 2 ≤ live.length
  · obtain ⟨a, b, na, nb, rest, ha, hb, hperm, -, -, hstep⟩ := mergeStep_spec hlen h
    exact .inr ⟨_, _, hstep, .mk ha hb hperm⟩
  · exact .inl (mergeStep_none (by omega))

/-- What every merge keeps holds where BuildTree's loop ends. -/
theorem mergeLoop_keeps {P : Arena → List Nat → Prop} (hbound : ∀ {ar live}, P ar live → ∀ i ∈ live, i < ar.length)
    (hmerge : ∀ {ar live ar' live'}, P ar live → ArenaMerge ar live ar' live' → P ar' live') (n : Nat) {ar : Arena}
    {live : List Nat} (h : P ar live) : P (mergeLoop n ar live).1 (mergeLoop n ar live).2 := by
  induction n generalizing ar live with
  | zero => exact h
  | succ n ih =>
    rcases mergeStep_cases (hbound h) with hstep | ⟨ar', live', hstep, hm⟩
    · simpa only [mergeLoop, hstep] using h
    · simpa only [mergeLoop, hstep] using ih (hmerge h hm)

/-- The indices of a node's children. -/
def childrenOf (n : Node) : List Nat :=
  match n.body with
  | .leaf _ => []
  | .internal l r => [l, r]

/-- The symbol of a leaf. -/
def leafSym? (n : Node) : Option Sym :=
  match n.body with
  | .leaf v => some v
  | .internal _ _ => none

/-- The arena on the way from a table to its tree: each node is live or the child of exactly one parent, one node is added for
each merge, and the leaves hold the table's symbols in order (R156, R81). -/
structure BuildInv (tab : List Entry) (ar : Arena) (live : List Nat) : Prop where
  parents : (ar.flatMap childrenOf ++ live).Perm (List.range ar.length)
  size : ar.length + live.length = 2 * tab.length
  leaves : ar.filterMap leafSym? = tab.map Entry.sym

theorem BuildInv.lt {tab : List Entry} {ar : Arena} {live : List Nat} (h : BuildInv tab ar live) :
    ∀ i ∈ live, i < ar.length :=
  fun _ hi => List.mem_range.1 (h.parents.mem_iff.1 (List.mem_append_right _ hi))

theorem buildInv_initial (tab : List Entry) : BuildInv tab (tab.map leafNode) (List.range tab.length) := by
  have hchildren : (tab.map leafNode).flatMap childrenOf = [] := by simp [List.flatMap_map, leafNode, childrenOf]
  refine ⟨?_, ?_, ?_⟩
  · rw [hchildren, List.length_map]
    exact .refl _
  · rw [List.length_map, List.length_range]
    omega
  · simp [List.filterMap_map, Function.comp_def, leafNode, leafSym?]

theorem ArenaMerge.buildInv {tab : List Entry} {ar ar' : Arena} {live live' : List Nat} (hm : ArenaMerge ar live ar' live')
    (h : BuildInv tab ar live) : BuildInv tab ar' live' := by
  obtain @⟨a, b, na, nb, rest, ha, hb, hperm⟩ := hm
  refine ⟨?_, ?_, ?_⟩
  · have hparents := ((hperm.append_left _).symm.trans h.parents).append_right [ar.length]
    simpa [List.range_succ, childrenOf] using hparents
  · have hlen := hperm.length_eq
    have hsize := h.size
    simp only [List.length_append, List.length_cons, List.length_nil] at hlen ⊢
    omega
  · rw [List.filterMap_append, h.leaves]
    exact List.append_nil _

theorem buildTree_buildInv (tab : List Entry) : BuildInv tab (buildTree tab).1 (buildTree tab).2 :=
  mergeLoop_keeps BuildInv.lt (fun h hm => hm.buildInv h) _ (buildInv_initial tab)

/-- Settles O17: at the end one index is live, so that every other is the child of exactly one parent. -/
theorem buildLeavesOneTree : Obligations.BuildLeavesOneTree := by
  intro tab hne
  obtain ⟨ar, root, -, hbuild, -, -⟩ := buildTree_spec hne
  obtain ⟨hparents, hsize, hleaves⟩ := hbuild ▸ buildTree_buildInv tab
  have hroot : (root :: ar.flatMap childrenOf).Perm (List.range ar.length) :=
    (List.perm_append_singleton _ _).symm.trans hparents
  have hothers : (ar.flatMap childrenOf).Perm ((List.range ar.length).erase root) := by simpa using hroot.erase root
  exact ⟨ar, root, hbuild, Nat.eq_sub_of_add_eq hsize, hothers, hleaves⟩

/-! ### Weights -/

/-- Each node is at most as heavy as some live node (R157). -/
def LiveHeaviest (ar : Arena) (live : List Nat) : Prop :=
  ∀ x ∈ ar, ∃ j ∈ live, ∃ n, ar[j]? = some n ∧ x.weight ≤ n.weight

theorem liveHeaviest_initial (tab : List Entry) : LiveHeaviest (tab.map leafNode) (List.range tab.length) := by
  intro x hx
  obtain ⟨i, hi, hix⟩ := List.getElem_of_mem hx
  refine ⟨i, ?_, x, ?_, Nat.le_refl _⟩
  · simpa using hi
  · exact hix ▸ List.getElem?_eq_getElem hi

/-- The new node is as heavy as both its children, which are no longer live (R157). -/
theorem ArenaMerge.liveHeaviest {ar ar' : Arena} {live live' : List Nat} (hm : ArenaMerge ar live ar' live')
    (h : LiveHeaviest ar live) : LiveHeaviest ar' live' := by
  obtain @⟨a, b, na, nb, rest, ha, hb, hperm⟩ := hm
  have hnew : ∀ {w}, w ≤ na.weight + nb.weight → ∃ j ∈ rest ++ [ar.length], ∃ n,
      (ar ++ [⟨na.weight + nb.weight, minSym na.minsym nb.minsym, .internal a b⟩])[j]? = some n ∧ w ≤ n.weight :=
    fun hw => ⟨ar.length, by simp, _, List.getElem?_concat_length, hw⟩
  intro x hx
  rcases List.mem_append.1 hx with hx | hx
  · obtain ⟨j, hj, n, hn, hle⟩ := h x hx
    have hj' := hperm.mem_iff.1 hj
    simp only [List.mem_cons] at hj'
    rcases hj' with rfl | rfl | hj'
    · cases ha.symm.trans hn
      exact hnew (by omega)
    · cases hb.symm.trans hn
      exact hnew (by omega)
    · obtain ⟨hlt, -⟩ := List.getElem?_eq_some_iff.1 hn
      exact ⟨j, List.mem_append_left _ hj', n, by rwa [List.getElem?_append_left hlt], hle⟩
  · cases List.mem_singleton.1 hx
    exact hnew (Nat.le_refl _)

theorem buildTree_liveHeaviest (tab : List Entry) : LiveHeaviest (buildTree tab).1 (buildTree tab).2 :=
  (mergeLoop_keeps (P := fun ar live => BuildInv tab ar live ∧ LiveHeaviest ar live) (fun h => h.1.lt)
    (fun h hm => ⟨hm.buildInv h.1, hm.liveHeaviest h.2⟩) _ ⟨buildInv_initial tab, liveHeaviest_initial tab⟩).2

/-- A table's root has the sum of its counts as weight, and no node is heavier (R157). -/
theorem buildTree_weight {tab : List Entry} (hne : tab ≠ []) : ∃ ar root n, buildTree tab = (ar, [root]) ∧
    ar[root]? = some n ∧ n.weight = sumCounts tab ∧ ∀ x ∈ ar, x.weight ≤ n.weight := by
  obtain ⟨ar, root, t, hbuild, htree, hmerge⟩ := buildTree_spec hne
  obtain ⟨body, hroot⟩ := htree.root
  refine ⟨ar, root, _, hbuild, hroot, hmerge.weight.trans (leafTrees_weight tab), fun x hx => ?_⟩
  have hheaviest := buildTree_liveHeaviest tab
  rw [hbuild] at hheaviest
  obtain ⟨j, hj, n, hn, hle⟩ := hheaviest x hx
  cases List.mem_singleton.1 hj
  cases hroot.symm.trans hn
  exact hle

/-- Settles O18: the root's weight is the sum of the counts and the sentinel's one, which is at most TOTAL_MAX + 1. -/
theorem weightsNeverWrap : Obligations.WeightsNeverWrap := by
  intro s hinv hs
  obtain ⟨hcore, -, -, -, -, -, hsum⟩ := inPhase_of_inv hinv hs (by decide)
  obtain ⟨ar, root, n, hbuild, hroot, hweight, hheaviest⟩ := buildTree_weight (tab := s.tab ++ [sentinelEntry]) (by simp)
  have hmax : s.total + 1 ≤ s.params.countMax := totalMax_succ hcore.params ▸ Nat.succ_le_succ hcore.total_le
  refine ⟨ar, root, n, hbuild, hroot, ?_, hmax, hheaviest⟩
  rw [hweight, sumCounts_append, hsum]
  rfl

end Sys2Proof.Proofs
end

section
/-! PROOFS. The first pass counts the symbols of the input in order of first occurrence, and an empty input encodes
(40_tree_construction.md R150 to R152, R158). -/

open Sys2Proof Sys2Proof.Machine

namespace Sys2Proof.Proofs

/-! ### Counting a symbol in a table -/

/-- The table after one more occurrence of v (R150, R223). -/
def countSym (tab : List Entry) (v : Sym) : List Entry :=
  if (findSym v tab).isSome then bumpCount v tab else tab ++ [⟨v, 1, []⟩]

/-- How often the table says v occurs. -/
abbrev countOf (v : Sym) (tab : List Entry) : Nat := ((findSym v tab).map Entry.cnt).getD 0

theorem findSym_cons (v : Sym) (e : Entry) (tab : List Entry) :
    findSym v (e :: tab) = if e.sym = v then some e else findSym v tab := by
  by_cases h : e.sym = v <;> simp [findSym, h]

theorem countOf_bumpCount {v : Sym} {tab : List Entry} (h : ∃ e ∈ tab, e.sym = v) (w : Sym) :
    countOf w (bumpCount v tab) = countOf w tab + if v = w then 1 else 0 := by
  induction tab with
  | nil => simp at h
  | cons a l ih =>
    by_cases ha : a.sym = v
    · by_cases hw : v = w <;> simp [bumpCount, countOf, findSym_cons, ha, hw]
    · have hl : ∃ e ∈ l, e.sym = v := by simpa [ha] using h
      by_cases haw : a.sym = w
      · have hvw : v ≠ w := fun heq => ha (haw.trans heq.symm)
        simp only [bumpCount, if_neg ha, countOf, findSym_cons, if_pos haw, if_neg hvw, Nat.add_zero]
      · simpa [bumpCount, countOf, findSym_cons, ha, haw] using ih hl

theorem countOf_append_new {v : Sym} {tab : List Entry} (h : findSym v tab = none) (w : Sym) :
    countOf w (tab ++ [⟨v, 1, []⟩]) = countOf w tab + if v = w then 1 else 0 := by
  induction tab with
  | nil => by_cases hw : v = w <;> simp [countOf, findSym, hw]
  | cons a l ih =>
    rw [findSym_cons] at h
    split_ifs at h with ha
    by_cases haw : a.sym = w
    · have hvw : v ≠ w := fun heq => ha (haw.trans heq.symm)
      simp [countOf, findSym_cons, haw, hvw]
    · simpa [countOf, findSym_cons, haw] using ih h

theorem countOf_countSym (tab : List Entry) (v w : Sym) :
    countOf w (countSym tab v) = countOf w tab + if v = w then 1 else 0 := by
  unfold countSym
  by_cases h : (findSym v tab).isSome
  · rw [if_pos h]
    exact countOf_bumpCount (findSym_isSome.1 h) w
  · rw [if_neg h]
    exact countOf_append_new (by simpa using h) w

/-! ### The frequency table -/

/-- The table lists the symbols that occur in the order of their first occurrence, each with how often it occurs (R150, R152). -/
structure IsFrequencyTable (vs : List Sym) (tab : List Entry) : Prop where
  order : tab.map Entry.sym = vs.reverse.dedup.reverse
  count : ∀ v, countOf v tab = vs.count v

namespace IsFrequencyTable

variable {vs : List Sym} {tab : List Entry} (h : IsFrequencyTable vs tab)
include h

theorem distinctSyms : DistinctSyms tab := by
  rw [DistinctSyms, h.order, List.nodup_reverse]
  exact List.nodup_dedup _

theorem findSym_isSome_iff (v : Sym) : (findSym v tab).isSome = true ↔ v ∈ vs := by
  have hmem : v ∈ tab.map Entry.sym ↔ v ∈ vs := by simp [h.order]
  rw [findSym_isSome, ← hmem, List.mem_map]

/-- One more symbol: the table stays the frequency table. -/
theorem countSym (v : Sym) : IsFrequencyTable (vs ++ [v]) (countSym tab v) := by
  refine ⟨?_, fun w => ?_⟩
  · have hreverse : (vs ++ [v]).reverse = v :: vs.reverse := List.reverse_append
    unfold Proofs.countSym
    rw [hreverse]
    split_ifs with hv
    · have hmem : v ∈ vs.reverse := by simpa using (h.findSym_isSome_iff v).1 hv
      rw [bumpCount_map_sym, List.dedup_cons_of_mem hmem, h.order]
    · have hmem : v ∉ vs.reverse := by simpa using fun hin => hv ((h.findSym_isSome_iff v).2 hin)
      rw [List.dedup_cons_of_notMem hmem, List.reverse_cons, List.map_append, h.order]
      rfl
  · rw [countOf_countSym, h.count, List.count_append, List.count_singleton]
    simp

end IsFrequencyTable

/-- Counting the symbols one after the other gives their frequency table. -/
theorem isFrequencyTable_foldl (vs : List Sym) : IsFrequencyTable vs (vs.foldl countSym []) := by
  induction vs using List.reverseRecOn with
  | nil => exact ⟨rfl, fun _ => rfl⟩
  | append_singleton vs v ih =>
    rw [List.foldl_append]
    exact ih.countSym v

/-! ### Pass 1 -/

/-- The word of a legal command outside ERROR runs the command's pseudocode, with CI advanced (R31, R327). -/
theorem acceptWord_encode_legal {i : Instr} {body : State → Flow} (hexec : ∀ s, exec i s = commonChecks i body s) {s : State}
    (he : s.state ≠ .error) (hl : legalIn i s.state = true) :
    acceptWord (encode i) s = (body { s with ci := s.ci + 1 }).result := by
  rw [acceptWord_ok (decode_encode i), hexec]
  exact commonChecks_legal he hl

/-- ENC_BEGIN starts counting with an empty table (R221). -/
theorem acceptWord_encBegin {s : State} (hs : s.state = .idle ∨ s.state = .decTail) :
    acceptWord (encode .encBegin) s = .next { s with
      ci := s.ci + 1, tab := [], total := 0, bwAcc := 0, bwCnt := 0, state := .encCount } := by
  have he : s.state ≠ .error := by rcases hs with hs | hs <;> simp [hs]
  have hl : legalIn .encBegin s.state = true := by rcases hs with hs | hs <;> simp [hs, legalIn]
  exact acceptWord_encode_legal (body := encBeginBody) (fun _ => rfl) he hl

/-- From s to t the symbol v has been counted and nothing raised, or an error entered ERROR (R223, R224). -/
def CountedOrRaised (v : Sym) (s t : State) : Prop :=
  t.state = .error ∨ (t.state = s.state ∧ t.total = s.total + 1 ∧ t.tab = countSym s.tab v)

theorem count_yields (v : Sym) (s : State) : Yields True (CountedOrRaised v s) (CountedOrRaised v s) (count v s) := by
  unfold count
  split_ifs with htotal hknown hfull
  · exact .inl rfl
  · exact .inr ⟨rfl, rfl, (if_pos hknown).symm⟩
  · exact .inl rfl
  · rcases tabPush_cases ⟨v, 1, []⟩ s with ⟨-, hpush⟩ | ⟨-, hpush⟩ <;> rw [hpush]
    · exact .inr ⟨rfl, rfl, (if_neg hknown).symm⟩
    · trivial

/-- ENC_SYM in the first pass counts its symbol or raises (R222). -/
theorem acceptWord_encSym_counts {x : Val} {s t : State} (hs : s.state = .encCount)
    (h : acceptWord (encode (.encSym x)) s = .next t) : CountedOrRaised (symOfVal x) s t := by
  rw [acceptWord_encode_legal (body := encSymBody x) (fun _ => rfl) (by simp [hs]) (by simp [hs, legalIn])] at h
  refine Yields.of_next (F := True) ?_ h
  unfold encSymBody
  simp only [hs, if_true]
  split_ifs with hscalar
  · exact hs ▸ count_yields (symOfVal x) { s with ci := s.ci + 1 }
  · exact .inl rfl

/-- A sequence accepted is its first word accepted, then the rest. -/
theorem feed_cons_eq_next {w : Word} {ws : List Word} {s t : State} (h : feed (w :: ws) s = .next t) :
    ∃ u, acceptWord w s = .next u ∧ feed ws u = .next t := by
  cases ha : acceptWord w s with
  | next u => exact ⟨u, rfl, feed_cons_next ha ▸ h⟩
  | fault r => simp [feed, ha] at h
  | refused r => simp [feed, ha] at h

/-- No ENC_SYM leaves ERROR (R325). -/
theorem feed_encSyms_inError {xs : List Val} {s t : State} (hs : s.state = .error)
    (h : feed (xs.map fun x => encode (.encSym x)) s = .next t) : t.state = .error := by
  induction xs generalizing s with
  | nil =>
    cases h
    exact hs
  | cons x xs ih =>
    obtain ⟨u, hu, hrest⟩ := feed_cons_eq_next h
    rcases acceptWord_inError hs hu with ⟨habort, -⟩ | ⟨herror, -⟩
    · rw [decode_encode] at habort
      cases habort
    · exact ih herror hrest

/-- A first pass that ends in ENC_COUNT has counted every symbol (R150). -/
theorem feed_encSyms_counts {xs : List Val} {s t : State} (hs : s.state = .encCount)
    (h : feed (xs.map fun x => encode (.encSym x)) s = .next t) (ht : t.state = .encCount) :
    t.total = s.total + xs.length ∧ t.tab = (xs.map symOfVal).foldl countSym s.tab := by
  induction xs generalizing s with
  | nil =>
    cases h
    exact ⟨rfl, rfl⟩
  | cons x xs ih =>
    obtain ⟨u, hu, hrest⟩ := feed_cons_eq_next h
    rcases acceptWord_encSym_counts hs hu with herror | ⟨hstate, htotal, htab⟩
    · cases (feed_encSyms_inError herror hrest).symm.trans ht
    · obtain ⟨htotal', htab'⟩ := ih (hstate.trans hs) hrest
      refine ⟨?_, by rw [htab', htab]; rfl⟩
      rw [htotal', htotal, List.length_cons]
      omega

/-- Settles O33: ENC_BEGIN empties the table, each symbol that does not raise is counted, and counting one symbol more keeps the
frequency table. -/
theorem firstPassIsTheFrequencyTable : Obligations.FirstPassIsTheFrequencyTable := by
  intro s t xs hs h ht
  obtain ⟨u, hu, hrest⟩ := feed_cons_eq_next h
  cases (acceptWord_encBegin hs).symm.trans hu
  obtain ⟨htotal, htab⟩ := feed_encSyms_counts rfl hrest ht
  have hfreq : IsFrequencyTable (xs.map symOfVal) t.tab := htab ▸ isFrequencyTable_foldl _
  exact ⟨by simpa using htotal, hfreq.distinctSyms, hfreq.count, hfreq.order⟩

/-! ### The empty input -/

/-- The header of the table that holds the sentinel alone: `1114112 0 ` and the newline (R151, R158). -/
def emptyHeader : List Byte := [0x31, 0x31, 0x31, 0x34, 0x31, 0x31, 0x32, 0x20, 0x30, 0x20, 0x0A]

theorem headerBytes_sentinel : headerBytes [⟨sentinel, 1, [false]⟩] = emptyHeader := by decide

/-- ENC_BUILD on an empty table: the sentinel's code is "0" (R162, R226). -/
theorem acceptWord_encBuild_empty {s : State} (hs : s.state = .encCount) (htab : s.tab = []) (hp : s.params.wf = true) :
    acceptWord (encode .encBuild) s = .next { s with
      ci := s.ci + 1, tab := [⟨sentinel, 1, [false]⟩], rsp := s.rsp ++ emptyHeader.map byteWord, bwAcc := 0, bwCnt := 0,
      state := .encBody } := by
  obtain ⟨hentries, hlen, -, -⟩ := params_wf_iff.1 hp
  have hfits : ¬ s.params.maxCodeLen < 1 := by omega
  have hcoded : assignCodes [(sentinel, [false])] [⟨sentinel, 1, []⟩] = [⟨sentinel, 1, [false]⟩] := rfl
  rw [acceptWord_encode_legal (body := encBuildBody) (fun _ => rfl) (by simp [hs]) (by simp [hs, legalIn])]
  rcases tabPush_cases ⟨sentinel, 1, []⟩ { s with ci := s.ci + 1 } with ⟨-, hpush⟩ | ⟨hfull, -⟩
  · rw [encBuildBody, hpush]
    simp [buildCodes, htab, codesOf, hfits, hcoded, headerBytes_sentinel, byte_word, emitAll, clearWriter]
  · simp [htab] at hfull
    omega

/-- ENC_END with nothing held and the sentinel's code "0": one byte of zeros (R228). -/
theorem acceptWord_encEnd_empty {s : State} (hs : s.state = .encBody) (htab : s.tab = [⟨sentinel, 1, [false]⟩])
    (hacc : s.bwAcc = 0) (hcnt : s.bwCnt = 0) :
    acceptWord (encode .encEnd) s = .next { s with
      ci := s.ci + 1, rsp := s.rsp ++ [byteWord 0] ++ [0x30000000#32], bwAcc := 0, bwCnt := 0, state := .idle } := by
  have hfind : findSym sentinel s.tab = some ⟨sentinel, 1, [false]⟩ := by rw [htab]; rfl
  have hbit : setBit 0#8 7 false = 0#8 := by decide
  rw [acceptWord_encode_legal (body := encEndBody) (fun _ => rfl) (by simp [hs]) (by simp [hs, legalIn])]
  simp [encEndBody, hfind, writeCode, writeBit, flush, hacc, hcnt, hbit, clearWriter, emit, emitAll, byte_word,
    done_enc_word]

/-- Settles O34: three commands, each run on the state the one before it leaves. -/
theorem emptyInputEncodes : Obligations.EmptyInputEncodes := by
  intro s hs hp
  have hwords : encodeWords [] [] = [encode .encBegin, encode .encBuild, encode .encEnd] := rfl
  rw [hwords]
  exact ⟨_, Eq.trans (feed_cons_next (acceptWord_encBegin hs)) <|
    Eq.trans (feed_cons_next (acceptWord_encBuild_empty rfl rfl hp)) <|
    feed_cons_next (acceptWord_encEnd_empty rfl rfl rfl rfl), rfl, rfl, rfl, by simp [emptyHeader]⟩

end Sys2Proof.Proofs
end

section
/-! PROOFS. The bit layer: one written bit, a flush, and the bits the emitted bytes give the reader (41_bitstream.md R190 to
R198). -/

open Sys2Proof Sys2Proof.Machine

namespace Sys2Proof.Proofs

/-! ### WriteBit and Flush -/

/-- Settles O13: the byte is the accumulator with one bit set or cleared; both cases of the writer's state are its laws. -/
theorem writeBitFillsFromTheTop : Obligations.WriteBitFillsFromTheTop := by
  intro b s
  refine ⟨setBit s.bwAcc (7 - s.bwCnt.val) b, fun k hk => ?_, writeBit_of_eq b, writeBit_of_ne b⟩
  have hpos : k = 7 - s.bwCnt.val ↔ k + s.bwCnt.val = 7 := by omega
  rw [setBit_getLsbD _ (by omega) _ _ hk]
  simp only [hpos]

/-- Settles O14: the two cases of a flush exclude each other, and the accumulator reads as the bits held and zeros. -/
theorem flushEmitsPartialByte : Obligations.FlushEmitsPartialByte := by
  intro s
  rcases flush_cases s with ⟨hcnt, hflush⟩ | ⟨hcnt, hflush⟩
  · exact ⟨fun _ => hflush, fun h => absurd hcnt h, readBits_acc⟩
  · exact ⟨fun h => absurd h hcnt, fun _ => hflush, readBits_acc⟩

/-! ### The bits of a flushed writer -/

/-- With no bit held the whole accumulator is unwritten, so it is zero (R39). -/
theorem bwAcc_eq_zero_of_bwCnt {s : State} (hs : WriterInv s) (hcnt : s.bwCnt = 0) : s.bwAcc = 0 := by
  apply BitVec.eq_of_getLsbD_eq
  intro i hi
  have hbit : s.bwAcc.getLsbD i = false := hs ⟨i, hi⟩ (by simpa [hcnt] using hi)
  simpa using hbit

/-- Flush empties the writer, and the bytes it emits read as the bits held and fewer than eight zeros (R192). -/
theorem flush_spec {s : State} (hs : WriterInv s) : ∃ (bytes : List Byte) (pad : Nat),
    flush s = { s with rsp := s.rsp ++ bytes.map byteWord, bwAcc := 0, bwCnt := 0 } ∧
    pad < 8 ∧ bitsOf bytes = pending s ++ List.replicate pad false := by
  rcases flush_cases s with ⟨hcnt, hflush⟩ | ⟨hcnt, hflush⟩
  · refine ⟨[], 0, ?_, by omega, by simp [pending, hcnt]⟩
    rw [hflush, ← bwAcc_eq_zero_of_bwCnt hs hcnt, ← hcnt]
    simp
  · have hpos : s.bwCnt.val ≠ 0 := fun h => hcnt (Fin.ext h)
    exact ⟨[s.bwAcc], 8 - s.bwCnt.val, hflush, by omega, by simp [readBits_acc hs]⟩

/-- A code written and flushed: the bytes emitted read as the bits held before, the code, and fewer than eight zeros
(R191, R192). -/
theorem flush_writeCode_spec (c : Bits) {s : State} (hs : WriterInv s) : ∃ (bytes : List Byte) (pad : Nat),
    flush (writeCode c s) = { s with rsp := s.rsp ++ bytes.map byteWord, bwAcc := 0, bwCnt := 0 } ∧
    pad < 8 ∧ bitsOf bytes = pending s ++ c ++ List.replicate pad false := by
  obtain ⟨full, acc, n, hwrite, hbits, hlow⟩ := writeCode_spec c s hs
  have hinv : WriterInv (writeCode c s) := by rw [hwrite]; exact hlow
  have hheld : pending (writeCode c s) = (readBits acc).take n.val := by rw [hwrite]; rfl
  obtain ⟨last, pad, hflush, hpad, hlast⟩ := flush_spec hinv
  refine ⟨full ++ last, pad, ?_, hpad, ?_⟩
  · rw [hflush, hwrite]
    simp
  · rw [bitsOf_append, hlast, hheld, ← List.append_assoc, hbits]

/-- Settles O15: the empty writer holds no bit, so the bytes read as the sequence and a pad below eight, which fixes both the
number of bytes and the pad. -/
theorem writtenBitsReadBack : Obligations.WrittenBitsReadBack := by
  intro β s hacc hcnt
  obtain ⟨bytes, pad, hflush, hpad, hbits⟩ := flush_writeCode_spec β (writerInv_of_bwAcc_zero hacc)
  have hheld : pending s = [] := by simp [pending, hcnt]
  rw [hheld, List.nil_append] at hbits
  have hlen : 8 * bytes.length = β.length + pad := by
    rw [← bitsOf_length, hbits, List.length_append, List.length_replicate]
  refine ⟨bytes, ?_, by omega, ?_⟩
  · rw [hflush, ← hacc, ← hcnt]
  · rw [hbits, hlen, Nat.add_sub_cancel_left]

end Sys2Proof.Proofs
end

section
/-! PROOFS. Decimal numerals and the layout of the header (42_encoder.md R227, 20_memory.md R85). -/

open Sys2Proof Sys2Proof.Machine Sys2Proof.Claims

namespace Sys2Proof.Proofs

/-! ### Numerals -/

theorem digitByte_toNat {d : Nat} (h : d < 10) : (digitByte d).toNat = 0x30 + d := by
  rw [digitByte, BitVec.toNat_ofNat]
  omega

theorem isDigitByte_digitByte {d : Nat} (h : d < 10) : isDigitByte (digitByte d) := by
  rw [isDigitByte, digitByte_toNat h]
  omega

theorem numeralValue_concat (ds : List Byte) (d : Byte) :
    numeralValue (ds ++ [d]) = 10 * numeralValue ds + (d.toNat - 0x30) := by
  simp [numeralValue]

/-- A list of digits is the numeral of v: it has the value v, and a leading zero only where it is all there is (R227). -/
structure IsNumeral (v : Nat) (ds : List Byte) : Prop where
  digits : ∀ d ∈ ds, isDigitByte d
  value : numeralValue ds = v
  leading : ∃ d tl, ds = d :: tl ∧ (v ≠ 0 → d ≠ 0x30#8)

theorem isNumeral_digit {v : Nat} (h : v < 10) : IsNumeral v [digitByte v] := by
  have hval := digitByte_toNat h
  refine ⟨by simpa using isDigitByte_digitByte h, ?_, digitByte v, [], rfl, fun hv hzero => ?_⟩
  · simp [numeralValue, hval]
  · rw [hzero] at hval
    simp at hval
    omega

/-- A numeral of a positive number with one digit more. -/
theorem IsNumeral.concat {v d : Nat} {ds : List Byte} (h : IsNumeral v ds) (hv : v ≠ 0) (hd : d < 10) :
    IsNumeral (10 * v + d) (ds ++ [digitByte d]) := by
  obtain ⟨hdigits, hvalue, c, tl, rfl, hlead⟩ := h
  refine ⟨fun b hb => ?_, ?_, c, tl ++ [digitByte d], rfl, fun _ => hlead hv⟩
  · rcases List.mem_append.1 hb with hb | hb
    · exact hdigits b hb
    · exact List.mem_singleton.1 hb ▸ isDigitByte_digitByte hd
  · rw [numeralValue_concat, hvalue, digitByte_toNat hd]
    omega

/-- With enough fuel the digits are the numeral: the last digit is v mod 10, those before it the numeral of v / 10. -/
theorem isNumeral_decimalDigits {fuel v : Nat} (h : v ≤ fuel) : IsNumeral v (decimalDigits fuel v) := by
  induction fuel generalizing v with
  | zero =>
    obtain rfl : v = 0 := by omega
    exact isNumeral_digit (by omega)
  | succ fuel ih =>
    unfold decimalDigits
    split_ifs with hv
    · exact isNumeral_digit hv
    · have hdiv : 10 * (v / 10) + v % 10 = v := Nat.div_add_mod v 10
      have hnum := (ih (by omega : v / 10 ≤ fuel)).concat (by omega) (Nat.mod_lt v (by omega : 10 > 0))
      rwa [hdiv] at hnum

theorem isNumeral_decimal (v : Nat) : IsNumeral v (decimal v) := isNumeral_decimalDigits (Nat.le_refl v)

/-- Settles O30: by induction on the fuel, one digit at a time from the right. -/
theorem decimalNumeral : Obligations.DecimalNumeral := by
  intro v
  obtain ⟨hdigits, hvalue, d, ds, heq, hlead⟩ := isNumeral_decimal v
  exact ⟨hdigits, hvalue, fun hv => ⟨d, ds, heq, hlead hv⟩, rfl⟩

/-! ### The header -/

theorem bySymbol_perm (tab : List Entry) : (bySymbol tab).Perm tab := List.perm_insertionSort _ tab

theorem bySymbol_pairwise (tab : List Entry) : (bySymbol tab).Pairwise fun a b => a.sym.toNat ≤ b.sym.toNat := by
  have htotal : Std.Total fun a b : Entry => a.sym.toNat ≤ b.sym.toNat := ⟨fun _ _ => Nat.le_total _ _⟩
  have htrans : IsTrans Entry fun a b => a.sym.toNat ≤ b.sym.toNat := ⟨fun _ _ _ => Nat.le_trans⟩
  exact List.pairwise_insertionSort _ tab

theorem entryBytes_length (e : Entry) :
    (entryBytes e).length = (decimal e.sym.toNat).length + e.code.length + 2 := by
  simp [entryBytes, codeChars]
  omega

theorem headerBytes_length (tab : List Entry) :
    (headerBytes tab).length = (tab.map fun e => (decimal e.sym.toNat).length + e.code.length + 2).sum + 1 := by
  have hsum := ((bySymbol_perm tab).map fun e => (entryBytes e).length).sum_eq
  simp only [entryBytes_length] at hsum
  simp [headerBytes, List.length_flatMap, entryBytes_length, hsum]

/-- Every pair ends in a space, and so does a nonempty list of pairs. -/
theorem flatMap_entryBytes_ends_in_space {es : List Entry} (h : es ≠ []) :
    ∃ hd, es.flatMap entryBytes = hd ++ [0x20#8] := by
  obtain ⟨init, e, rfl⟩ := (List.eq_nil_or_concat' es).resolve_left h
  refine ⟨init.flatMap entryBytes ++ (decimal e.sym.toNat ++ [0x20#8] ++ codeChars e.code), ?_⟩
  simp [entryBytes]

theorem isDigitByte_bitChar (b : Bool) : isDigitByte (bitChar b) := by
  cases b <;> simp [isDigitByte, bitChar]

theorem mem_entryBytes {e : Entry} {b : Byte} (h : b ∈ entryBytes e) : isDigitByte b ∨ b = 0x20#8 := by
  simp only [entryBytes, List.mem_append, List.mem_singleton] at h
  rcases h with ((hnum | hsp) | hcode) | hsp
  · exact .inl ((isNumeral_decimal _).digits b hnum)
  · exact .inr hsp
  · obtain ⟨x, -, rfl⟩ := List.mem_map.1 hcode
    exact .inl (isDigitByte_bitChar x)
  · exact .inr hsp

/-- Settles O29: the entries listed are the sorted ones; length, last space and allowed bytes are those of each pair. -/
theorem headerLayout : Obligations.HeaderLayout := by
  intro tab
  refine ⟨bySymbol tab, bySymbol_perm tab, bySymbol_pairwise tab, rfl, headerBytes_length tab, fun hne => ?_,
    fun b hb => ?_⟩
  · have hsorted : bySymbol tab ≠ [] := fun hnil => hne (List.nil_perm.1 (hnil ▸ bySymbol_perm tab))
    obtain ⟨hd, hspace⟩ := flatMap_entryBytes_ends_in_space hsorted
    exact ⟨hd, by simp [headerBytes, hspace]⟩
  · rw [headerBytes, List.dropLast_concat] at hb
    obtain ⟨e, -, hb⟩ := List.mem_flatMap.1 hb
    exact mem_entryBytes hb

end Sys2Proof.Proofs
end

section
/-! PROOFS. What each encode command does, by its cases (42_encoder.md R221 to R228). -/

open Sys2Proof Sys2Proof.Machine Sys2Proof.Claims

namespace Sys2Proof.Proofs

/-! ### ENC_BEGIN -/

/-- Settles O24: in both phases the command is legal, and its pseudocode is these assignments. -/
theorem encBeginStartsCounting : Obligations.EncBeginStartsCounting := by
  refine ⟨decode_encode .encBegin, fun s hs => ?_⟩
  have he : s.state ≠ .error := by rcases hs with hs | hs <;> simp [hs]
  have hl : legalIn .encBegin s.state = true := by rcases hs with hs | hs <;> simp [hs, legalIn]
  exact commonChecks_legal (body := encBeginBody) he hl

/-! ### ENC_SYM -/

theorem isScalar_iff {v : Nat} : isScalar v = true ↔ ¬ notScalar v := by
  simp only [isScalar, notScalar, Bool.or_eq_true, Bool.and_eq_true, decide_eq_true_eq]
  omega

theorem symOfVal_eq_ofNat (v : Val) : symOfVal v = BitVec.ofNat 21 v.toNat := by
  apply BitVec.eq_of_toNat_eq
  simp [symOfVal]

theorem raise_eq_raised (e : Err) (s : State) : raise e s = raised e s := raise_eq e s

/-- In both passes ENC_SYM runs its pseudocode (R327). -/
theorem exec_encSym (v : Val) {s : State} (hs : s.state = .encCount ∨ s.state = .encBody) :
    exec (.encSym v) s = (encSymBody v s).result := by
  have he : s.state ≠ .error := by rcases hs with hs | hs <;> simp [hs]
  have hl : legalIn (.encSym v) s.state = true := by rcases hs with hs | hs <;> simp [hs, legalIn]
  exact commonChecks_legal he hl

theorem encSymBody_encCount {v : Val} {s : State} (hs : s.state = .encCount) (hv : isScalar v.toNat = true) :
    encSymBody v s = count (symOfVal v) s := by
  simp only [encSymBody, hv, hs, if_true]

theorem encSymBody_encBody {v : Val} {s : State} (hs : s.state = .encBody) (hv : isScalar v.toNat = true) :
    encSymBody v s = code (symOfVal v) s := by
  simp [encSymBody, hv, hs]

theorem encSymBody_notScalar {v : Val} (s : State) (hv : ¬ isScalar v.toNat = true) :
    encSymBody v s = raiseEnd .badSymbol s :=
  if_neg hv

/-- Settles O25: the check of VAL comes before the branch on the pass. -/
theorem encSymRejectsNonScalars : Obligations.EncSymRejectsNonScalars := by
  intro v s hs hv
  have hscalar : ¬ isScalar v.toNat = true := fun h => isScalar_iff.1 h hv
  rw [exec_encSym v hs, encSymBody_notScalar s hscalar, ← raise_eq_raised]
  rfl

theorem totalMax_eq (p : Params) : p.totalMax = 2 ^ p.countWidth - 2 := Nat.sub_sub _ 1 1

theorem count_overflow {v : Sym} {s : State} (h : s.total = s.params.totalMax) :
    count v s = raiseEnd .countOverflow s :=
  if_pos h

theorem count_known {v : Sym} {s : State} (ht : s.total ≠ s.params.totalMax) (hv : (findSym v s.tab).isSome = true) :
    count v s = .cont { s with tab := bumpCount v s.tab, total := s.total + 1 } := by
  simp only [count, ht, hv, if_true, if_false]

theorem count_full {v : Sym} {s : State} (ht : s.total ≠ s.params.totalMax) (hv : findSym v s.tab = none)
    (hfull : s.nent = s.params.maxEntries - 1) : count v s = raiseEnd .tableFull s := by
  rw [count, if_neg ht, hv, if_neg (by simp), if_pos hfull]

theorem count_new {v : Sym} {s : State} (ht : s.total ≠ s.params.totalMax) (hv : findSym v s.tab = none)
    (hroom : s.nent < s.params.maxEntries - 1) :
    count v s = .cont { s with tab := s.tab ++ [⟨v, 1, []⟩], total := s.total + 1 } := by
  have hpush : tabPush ⟨v, 1, []⟩ s = .cont { s with tab := s.tab ++ [⟨v, 1, []⟩] } := if_pos (by omega)
  rw [count, if_neg ht, hv, if_neg (by simp), if_neg (by omega), hpush]
  rfl

/-- Settles O26: the cases of the count, each with what the table then holds. -/
theorem encSymCountsInFirstPass : Obligations.EncSymCountsInFirstPass := by
  intro v s hs hv sym
  have hsym : sym = symOfVal v := (symOfVal_eq_ofNat v).symm
  clear_value sym
  subst hsym
  have hexec : exec (.encSym v) s = (count (symOfVal v) s).result := by
    rw [exec_encSym v (.inl hs), encSymBody_encCount hs (isScalar_iff.2 hv)]
  rw [hexec, ← totalMax_eq]
  refine ⟨fun ht => ?_, fun ht => ⟨fun pre e post htab he hpre => ?_, fun hnew hfull => ?_, fun hnew hroom => ?_⟩⟩
  · rw [count_overflow ht, ← raise_eq_raised]
    rfl
  · have hknown : (findSym (symOfVal v) s.tab).isSome = true := findSym_isSome.2 ⟨e, by simp [htab], he⟩
    rw [count_known ht hknown, htab, bumpCount_append he hpre]
    rfl
  · rw [count_full ht (findSym_eq_none.2 hnew) hfull, ← raise_eq_raised]
    rfl
  · rw [count_new ht (findSym_eq_none.2 hnew) hroom]
    rfl

theorem code_unknown {v : Sym} {s : State} (h : findSym v s.tab = none) : code v s = raiseEnd .unknownSymbol s := by
  rw [code, h]

theorem code_known {v : Sym} {s : State} {e : Entry} (h : findSym v s.tab = some e) :
    code v s = .cont (writeCode e.code s) := by
  rw [code, h]

/-- Settles O27: the entry with the symbol is the one found, and its code goes to the writer. -/
theorem encSymWritesCodeInSecondPass : Obligations.EncSymWritesCodeInSecondPass := by
  intro v s hs hv sym
  have hsym : sym = symOfVal v := (symOfVal_eq_ofNat v).symm
  clear_value sym
  subst hsym
  have hexec : exec (.encSym v) s = (code (symOfVal v) s).result := by
    rw [exec_encSym v (.inr hs), encSymBody_encBody hs (isScalar_iff.2 hv)]
  rw [hexec]
  refine ⟨fun hnone => ?_, fun e he hsym hd hw => ?_⟩
  · rw [code_unknown (findSym_eq_none.2 hnone), ← raise_eq_raised]
    rfl
  · obtain ⟨bytes, acc, n, hwrite, hbits, -⟩ := writeCode_spec e.code s hw
    refine ⟨bytes, acc, n, ?_, hbits⟩
    rw [code_known (hsym ▸ findSym_of_mem hd he), hwrite]
    rfl

/-! ### ENC_BUILD -/

/-- The table with its codes (R226). -/
def codedTable (tab : List Entry) : List Entry := assignCodes (codesOf tab) tab

/-- The state ENC_BUILD leaves when every code fits (R226). -/
def built (s : State) : State :=
  { s with
    tab := codedTable s.tab, rsp := s.rsp ++ (headerBytes (codedTable s.tab)).map byteWord, bwAcc := 0, bwCnt := 0,
    state := .encBody }

theorem buildCodes_tooLong {s : State} (h : ∃ c ∈ codesOf s.tab, s.params.maxCodeLen < c.2.length) :
    buildCodes s = raiseEnd .codeTooLong s :=
  if_pos (by simpa using h)

theorem buildCodes_fits {s : State} (h : ∀ c ∈ codesOf s.tab, c.2.length ≤ s.params.maxCodeLen) :
    buildCodes s = .cont (built s) := by
  have hany : ¬ ((codesOf s.tab).any fun c => decide (s.params.maxCodeLen < c.2.length)) = true := by
    simpa using h
  simp only [buildCodes, if_neg hany, byte_word]
  rfl

/-- With a free slot the sentinel's entry is added before the codes are made. -/
theorem exec_encBuild {s : State} (hs : s.state = .encCount) (hfree : s.nent < s.params.maxEntries) :
    exec .encBuild s = (buildCodes (withSentinel s)).result := by
  have hpush : tabPush ⟨sentinel, 1, []⟩ s = .cont (withSentinel s) := if_pos hfree
  have hchecks : exec .encBuild s = (encBuildBody s).result :=
    commonChecks_legal (by simp [hs]) (by simp [hs, legalIn])
  rw [hchecks, encBuildBody, hpush]
  rfl

/-- Settles O28: the check of the codes' lengths stands before the first assignment. -/
theorem encBuildMakesCodesAndHeader : Obligations.EncBuildMakesCodesAndHeader := by
  refine ⟨decode_encode .encBuild, fun s hs hfree => ⟨fun hlong => ?_, fun hfits => ?_⟩⟩
  · rw [exec_encBuild hs hfree, buildCodes_tooLong (s := withSentinel s) hlong, ← raise_eq_raised]
    rfl
  · rw [exec_encBuild hs hfree, buildCodes_fits (s := withSentinel s) hfits]
    rfl

/-! ### ENC_END -/

/-- ENC_END with an entry for the sentinel: its code, the flush and RSP_DONE enc (R228). -/
theorem exec_encEnd {s : State} {e : Entry} (hs : s.state = .encBody) (he : findSym sentinel s.tab = some e)
    (hw : WriterInv s) : ∃ (bytes : List Byte) (pad : Nat), pad < 8 ∧
      exec .encEnd s = .next { s with
        rsp := s.rsp ++ bytes.map byteWord ++ [0x30000000#32], bwAcc := 0, bwCnt := 0, state := .idle } ∧
      bitsOf bytes = pending s ++ e.code ++ List.replicate pad false := by
  obtain ⟨bytes, pad, hflush, hpad, hbits⟩ := flush_writeCode_spec e.code hw
  have hchecks : exec .encEnd s = (encEndBody s).result :=
    commonChecks_legal (by simp [hs]) (by simp [hs, legalIn])
  refine ⟨bytes, pad, hpad, ?_, hbits⟩
  rw [hchecks, encEndBody, he]
  simp only [hflush]
  rfl

/-- Settles O31: the sentinel's entry is the one found. -/
theorem encEndTerminatesStream : Obligations.EncEndTerminatesStream := by
  refine ⟨decode_encode .encEnd, fun s e hs he hsym hd hw => ?_⟩
  have hfind : findSym e.sym s.tab = some e := findSym_of_mem hd he
  rw [hsym] at hfind
  exact exec_encEnd hs hfind hw

end Sys2Proof.Proofs
end

section
/-! PROOFS. A complete encode: what each pass leaves, and the stream it emits (42_encoder.md R229, R232). -/

open Sys2Proof Sys2Proof.Machine Sys2Proof.Claims

namespace Sys2Proof.Proofs

/-! ### Sequences of words -/

theorem inv_of_acceptWord {w : Word} {s t : State} (h : Inv s) (hw : acceptWord w s = .next t) : Inv t := by
  obtain ⟨u, hu, hinv⟩ := acceptWord_keeps_inv w h
  cases hu.symm.trans hw
  exact hinv

theorem inv_of_feed {ws : List Word} {s t : State} (h : Inv s) (hw : feed ws s = .next t) : Inv t := by
  induction ws generalizing s with
  | nil =>
    cases hw
    exact h
  | cons w ws ih =>
    obtain ⟨u, hu, hrest⟩ := feed_cons_eq_next hw
    exact ih (inv_of_acceptWord h hu) hrest

/-- No command but ABORT leaves ERROR (R325, R330). -/
theorem feed_inError {is : List Instr} {s t : State} (his : .abort ∉ is) (hs : s.state = .error)
    (h : feed (is.map encode) s = .next t) : t.state = .error := by
  induction is generalizing s with
  | nil =>
    cases h
    exact hs
  | cons i is ih =>
    obtain ⟨hi, his⟩ := not_or.1 (mt List.mem_cons.2 his)
    obtain ⟨u, hu, hrest⟩ := feed_cons_eq_next h
    rcases acceptWord_inError hs hu with ⟨habort, -⟩ | ⟨herror, -⟩
    · rw [decode_encode] at habort
      cases habort
      exact absurd rfl hi
    · exact ih his herror hrest

/-- So a run of such commands that ends outside ERROR was never there. -/
theorem not_error_of_feed {is : List Instr} {s t : State} (his : .abort ∉ is) (h : feed (is.map encode) s = .next t)
    (ht : t.state ≠ .error) : s.state ≠ .error :=
  fun hs => ht (feed_inError his hs h)

/-- The ENC_SYM commands of a pass. -/
abbrev encSyms (xs : List Val) : List Instr := xs.map .encSym

theorem abort_notMem_encSyms (xs : List Val) : .abort ∉ encSyms xs := by simp

/-- The words of an encode are those of its commands (R232). -/
theorem encodeWords_eq (xs ys : List Val) : encodeWords xs ys =
    (.encBegin :: (encSyms xs ++ .encBuild :: (encSyms ys ++ [.encEnd]))).map encode := by
  simp only [encodeWords, List.map_append, List.map_cons, List.map_map, List.append_assoc]
  rfl

/-! ### Pass 1 -/

/-- Counting a symbol emits nothing unless it raises. -/
theorem count_quiet (v : Sym) (s : State) :
    Yields True (fun t => t.rsp = s.rsp) (fun t => t.state = .error) (count v s) := by
  unfold count
  split_ifs with htotal hknown hfull
  · rfl
  · rfl
  · rfl
  · rcases tabPush_cases ⟨v, 1, []⟩ s with ⟨-, hpush⟩ | ⟨-, hpush⟩ <;> rw [hpush]
    · rfl
    · trivial

theorem exec_encSym_quiet {x : Val} {s t : State} (hs : s.state = .encCount) (h : exec (.encSym x) s = .next t)
    (ht : t.state ≠ .error) : t.rsp = s.rsp := by
  rw [exec_encSym x (.inl hs)] at h
  by_cases hx : isScalar x.toNat = true
  · rw [encSymBody_encCount hs hx] at h
    have hquiet : Yields True (fun t => t.state ≠ .error → t.rsp = s.rsp) (fun t => t.state ≠ .error → t.rsp = s.rsp)
        (count (symOfVal x) s) := (count_quiet _ s).mono (fun _ hrsp _ => hrsp) fun _ herror hne => absurd herror hne
    exact hquiet.of_next h ht
  · rw [encSymBody_notScalar s hx] at h
    cases h
    exact absurd rfl ht

theorem acceptWord_encode (i : Instr) (s : State) : acceptWord (encode i) s = exec i { s with ci := s.ci + 1 } :=
  acceptWord_ok (decode_encode i) s

theorem acceptWord_encSym_quiet {x : Val} {s t : State} (hs : s.state = .encCount)
    (h : acceptWord (encode (.encSym x)) s = .next t) (ht : t.state ≠ .error) : t.state = .encCount ∧ t.rsp = s.rsp := by
  obtain ⟨hstate, -, -⟩ := (acceptWord_encSym_counts hs h).resolve_left ht
  rw [acceptWord_encode] at h
  exact ⟨hstate.trans hs, exec_encSym_quiet (s := { s with ci := s.ci + 1 }) hs h ht⟩

/-- A first pass that does not end in ERROR emits nothing. -/
theorem feed_pass1 {xs : List Val} {s t : State} (hs : s.state = .encCount)
    (h : feed ((encSyms xs).map encode) s = .next t) (ht : t.state ≠ .error) : t.state = .encCount ∧ t.rsp = s.rsp := by
  induction xs generalizing s with
  | nil =>
    cases h
    exact ⟨hs, rfl⟩
  | cons x xs ih =>
    obtain ⟨u, hu, hrest⟩ := feed_cons_eq_next h
    obtain ⟨hstate, hrsp⟩ := acceptWord_encSym_quiet hs hu (not_error_of_feed (abort_notMem_encSyms xs) hrest ht)
    exact hrsp ▸ ih hstate hrest

/-! ### ENC_BUILD -/

/-- ENC_BUILD emits the header of the table it leaves, or raises (R226). -/
theorem exec_encBuild_emits {s t : State} (hinv : Inv s) (hs : s.state = .encCount) (h : exec .encBuild s = .next t)
    (ht : t.state ≠ .error) :
    t.state = .encBody ∧ t.rsp = s.rsp ++ (headerBytes t.tab).map byteWord ∧ t.bwCnt = 0 := by
  rw [exec_encBuild hs (inPhase_of_inv hinv hs (by decide)).slot_free] at h
  by_cases hlong : ∃ c ∈ codesOf (withSentinel s).tab, (withSentinel s).params.maxCodeLen < c.2.length
  · rw [buildCodes_tooLong hlong] at h
    cases h
    exact absurd rfl ht
  · rw [buildCodes_fits fun c hc => Nat.le_of_not_lt fun hlt => hlong ⟨c, hc, hlt⟩] at h
    cases h
    exact ⟨rfl, rfl, rfl⟩

/-! ### Pass 2 -/

/-- The code the table has for a symbol, as `bodyCode` reads it. -/
abbrev symCode (tab : List Entry) (v : Sym) : Bits := ((findSym v tab).map Entry.code).getD []

/-- The second pass can encode the value: it is a real symbol of the table (R222, R225). -/
def Encodable (tab : List Entry) (y : Val) : Prop := isScalar y.toNat = true ∧ ∃ e, findSym (symOfVal y) tab = some e

/-- In ENC_BODY, with the bits β written since the words `out` had been emitted (R229): the bytes emitted after them and the
bits held are β. -/
structure Packing (out : List Word) (β : Bits) (s : State) : Prop where
  state : s.state = .encBody
  writer : WriterInv s
  stream : ∃ bytes : List Byte, s.rsp = out ++ bytes.map byteWord ∧ bitsOf bytes ++ pending s = β

/-- A code written: its bits follow those written before. -/
theorem Packing.writeCode {out : List Word} {β : Bits} {s : State} (h : Packing out β s) (c : Bits) :
    Packing out (β ++ c) (writeCode c s) := by
  obtain ⟨hstate, hw, old, hrsp, hold⟩ := h
  obtain ⟨new, acc, n, heq, hnew, hlow⟩ := writeCode_spec c s hw
  rw [heq]
  refine ⟨hstate, hlow, old ++ new, ?_, ?_⟩
  · simp [hrsp]
  · show bitsOf (old ++ new) ++ (readBits acc).take n.val = β ++ c
    rw [bitsOf_append, List.append_assoc, hnew, ← List.append_assoc, hold]

/-- ENC_SYM in the second pass writes its symbol's code or raises. -/
theorem exec_encSym_packs {out : List Word} {β : Bits} {y : Val} {s t : State} (hp : Packing out β s)
    (h : exec (.encSym y) s = .next t) (ht : t.state ≠ .error) :
    Encodable s.tab y ∧ t.tab = s.tab ∧ Packing out (β ++ symCode s.tab (symOfVal y)) t := by
  rw [exec_encSym y (.inr hp.state)] at h
  by_cases hy : isScalar y.toNat = true
  · rw [encSymBody_encBody hp.state hy] at h
    cases hfind : findSym (symOfVal y) s.tab with
    | none =>
      rw [code_unknown hfind] at h
      cases h
      exact absurd rfl ht
    | some e =>
      rw [code_known hfind] at h
      cases h
      exact ⟨⟨hy, e, hfind⟩, by simp, by simpa [symCode, hfind] using hp.writeCode e.code⟩
  · rw [encSymBody_notScalar s hy] at h
    cases h
    exact absurd rfl ht

theorem Packing.tick {out : List Word} {β : Bits} {s : State} (h : Packing out β s) :
    Packing out β { s with ci := s.ci + 1 } :=
  ⟨h.state, h.writer, h.stream⟩

/-- A second pass that does not end in ERROR writes the codes of its symbols (R225). -/
theorem feed_pass2 {out : List Word} {β : Bits} {ys : List Val} {s t : State} (hp : Packing out β s)
    (h : feed ((encSyms ys).map encode) s = .next t) (ht : t.state ≠ .error) :
    (∀ y ∈ ys, Encodable s.tab y) ∧ t.tab = s.tab ∧
      Packing out (β ++ ys.flatMap fun y => symCode s.tab (symOfVal y)) t := by
  induction ys generalizing s β with
  | nil =>
    cases h
    simpa using hp
  | cons y ys ih =>
    obtain ⟨u, hu, hrest⟩ := feed_cons_eq_next h
    rw [acceptWord_encode] at hu
    have he := not_error_of_feed (abort_notMem_encSyms ys) hrest ht
    obtain ⟨hy, htab, hpack⟩ := exec_encSym_packs hp.tick hu he
    obtain ⟨hys, htab', hpack'⟩ := ih hpack hrest
    rw [htab] at hys htab' hpack'
    refine ⟨?_, htab', ?_⟩
    · simpa using ⟨hy, hys⟩
    · simpa using hpack'

/-! ### The whole encode -/

/-- What a complete encode that ends in IDLE leaves: the table of ENC_BODY, with a code for each symbol of pass 2, and the stream
emitted since the words `out` (R229). -/
structure Encoded (out : List Word) (ys : List Val) (t : State) : Prop where
  table : EncBodyInv t
  encodable : ∀ y ∈ ys, Encodable t.tab y
  stream : ∃ (body : List Byte) (pad : Nat), pad < 8 ∧
    t.rsp = out ++ (headerBytes t.tab ++ body).map byteWord ++ [0x30000000#32] ∧
    bitsOf body = bodyCode t.tab ys ++ List.replicate pad false

/-- ENC_END writes the sentinel's code and closes the stream (R228). -/
theorem exec_encEnd_closes {out : List Word} {β : Bits} {s t : State} (hinv : Inv s) (hp : Packing out β s)
    (h : exec .encEnd s = .next t) :
    t.tab = s.tab ∧ EncBodyInv t ∧ ∃ (body : List Byte) (pad : Nat), pad < 8 ∧
      t.rsp = out ++ body.map byteWord ++ [0x30000000#32] ∧
      bitsOf body = β ++ symCode s.tab sentinel ++ List.replicate pad false := by
  obtain ⟨hs, hw, old, hrsp, hold⟩ := hp
  have hin := inPhase_of_inv hinv hs (by decide)
  obtain ⟨e, he⟩ := exists_sentinelEntry hin
  obtain ⟨new, pad, hpad, hexec, hnew⟩ := exec_encEnd hs he hw
  cases hexec.symm.trans h
  refine ⟨rfl, hin.phase, old ++ new, pad, hpad, ?_, ?_⟩
  · simp [hrsp]
  · rw [bitsOf_append, hnew, symCode, he, ← hold]
    simp

/-- Pass 2 and ENC_END from where ENC_BUILD ended: the body is the codes of the symbols and of the sentinel, and a pad. -/
theorem feed_secondPass {ys : List Val} {s t : State} (hinv : Inv s) (hs : s.state = .encBody) (hcnt : s.bwCnt = 0)
    (h : feed ((encSyms ys ++ [Instr.encEnd]).map encode) s = .next t) (ht : t.state ≠ .error) :
    t.tab = s.tab ∧ EncBodyInv t ∧ (∀ y ∈ ys, Encodable t.tab y) ∧ ∃ (body : List Byte) (pad : Nat), pad < 8 ∧
      t.rsp = s.rsp ++ body.map byteWord ++ [0x30000000#32] ∧
      bitsOf body = bodyCode t.tab ys ++ List.replicate pad false := by
  rw [List.map_append] at h
  obtain ⟨u, hpass, hend⟩ := feed_append_cases h
  have hpack : Packing s.rsp [] s := ⟨hs, (coreInv_of_inv hinv).writer, [], by simp, by simp [pending, hcnt]⟩
  obtain ⟨hys, htab, hpack'⟩ := feed_pass2 hpack hpass (not_error_of_feed (is := [.encEnd]) (by simp) hend ht)
  obtain ⟨v, hlast, hnil⟩ := feed_cons_eq_next hend
  cases hnil
  have hinv' : Inv u := inv_of_feed hinv hpass
  rw [acceptWord_encode] at hlast
  obtain ⟨htab', htable, body, pad, hpad, hrsp, hbits⟩ :=
    exec_encEnd_closes (s := { u with ci := u.ci + 1 }) hinv' hpack'.tick hlast
  rw [htab', htab]
  refine ⟨rfl, htable, hys, body, pad, hpad, hrsp, ?_⟩
  rw [hbits, htab, bodyCode, List.nil_append]

/-- A complete encode: ENC_BEGIN and pass 1 emit nothing, ENC_BUILD the header, pass 2 and ENC_END the body. That it ends in IDLE
rules out every error on the way. -/
theorem feed_encodeWords {s t : State} {xs ys : List Val} (hinv : Inv s) (hs : s.state = .idle ∨ s.state = .decTail)
    (h : feed (encodeWords xs ys) s = .next t) (ht : t.state = .idle) : Encoded s.rsp ys t := by
  have hend : t.state ≠ .error := by simp [ht]
  rw [encodeWords_eq, List.map_cons, List.map_append] at h
  obtain ⟨s₁, hbegin, h₁⟩ := feed_cons_eq_next h
  obtain ⟨s₂, hpass1, h₂⟩ := feed_append_cases h₁
  obtain ⟨s₃, hbuild, h₃⟩ := feed_cons_eq_next h₂
  have he₂ : s₂.state ≠ .error := not_error_of_feed (by simp) h₂ hend
  have he₃ : s₃.state ≠ .error := not_error_of_feed (by simp) h₃ hend
  have hinv₂ : Inv s₂ := inv_of_feed (inv_of_acceptWord hinv hbegin) hpass1
  cases (acceptWord_encBegin hs).symm.trans hbegin
  obtain ⟨hs₂, hrsp₂⟩ := feed_pass1 rfl hpass1 he₂
  have hinv₃ : Inv s₃ := inv_of_acceptWord hinv₂ hbuild
  rw [acceptWord_encode] at hbuild
  obtain ⟨hs₃, hrsp₃, hcnt₃⟩ := exec_encBuild_emits (s := { s₂ with ci := s₂.ci + 1 }) hinv₂ hs₂ hbuild he₃
  obtain ⟨htab, htable, hys, body, pad, hpad, hrsp, hbits⟩ := feed_secondPass hinv₃ hs₃ hcnt₃ h₃ hend
  refine ⟨htable, hys, body, pad, hpad, ?_, hbits⟩
  rw [hrsp, hrsp₃, hrsp₂, htab, List.map_append, List.append_assoc s.rsp]

/-- Settles O32: the run's stream, with every raise ruled out by the IDLE it ends in. -/
theorem encodeStreamIsHeaderThenBody : Obligations.EncodeStreamIsHeaderThenBody :=
  fun _ _ _ _ hinv hs h ht => (feed_encodeWords hinv hs h ht).stream

end Sys2Proof.Proofs
end

section
/-! PROOFS. The header parser reads a header the encoder wrote (43_decoder.md R253 to R258, 42_encoder.md R227). -/

open Sys2Proof Sys2Proof.Machine Sys2Proof.Claims

namespace Sys2Proof.Proofs

/-! ### Bytes of the header -/

/-- The words that hand bytes to the decoder, accepted one after the other. -/
abbrev feedBytes (bs : List Byte) (s : State) : Result := feed (bs.map fun b => encode (.decByte b)) s

/-- A triple for a sequence of bytes: from a state with `P` they are accepted, and `Q` holds where they end. -/
def Reads (P : State → Prop) (bs : List Byte) (Q : State → Prop) : Prop :=
  ∀ s, P s → ∃ t, feedBytes bs s = .next t ∧ Q t

theorem Reads.nil {P : State → Prop} : Reads P [] P := fun s hs => ⟨s, rfl, hs⟩

/-- The rule of sequencing. -/
theorem Reads.append {P Q R : State → Prop} {as bs : List Byte} (ha : Reads P as Q) (hb : Reads Q bs R) :
    Reads P (as ++ bs) R := by
  intro s hs
  obtain ⟨t, ht, hQ⟩ := ha s hs
  obtain ⟨u, hu, hR⟩ := hb t hQ
  exact ⟨u, by rw [feedBytes, List.map_append, feed_append_next ht]; exact hu, hR⟩

/-- In DEC_HEADER a byte goes to the header parser (R252). -/
theorem acceptWord_hdrByte (c : Byte) {s : State} (hs : s.state = .decHeader) :
    acceptWord (encode (.decByte c)) s = (hdrByte c { s with ci := s.ci + 1 }).result := by
  rw [acceptWord_encode_legal (body := decByteBody c) (fun _ => rfl) (by simp [hs]) (by simp [hs, legalIn])]
  simp only [decByteBody, hs]

/-- One byte of the header, by what the parser does with it. -/
theorem reads_hdrByte {P Q : State → Prop} {c : Byte} (hs : ∀ s, P s → s.state = .decHeader)
    (h : ∀ s, P s → ∃ t, hdrByte c { s with ci := s.ci + 1 } = .cont t ∧ Q t) : Reads P [c] Q := by
  intro s hP
  obtain ⟨t, ht, hQ⟩ := h s hP
  have haccept : acceptWord (encode (.decByte c)) s = .next t := by rw [acceptWord_hdrByte c (hs s hP), ht]; rfl
  exact ⟨t, feed_cons_next haccept, hQ⟩

theorem classify_of_isDigitByte {c : Byte} (h : isDigitByte c) : classify c = .digit := if_pos h

theorem classify_space : classify 0x20#8 = .sep := by decide

theorem classify_newline : classify 0x0A#8 = .nl := by decide

theorem classify_bitChar (b : Bool) : classify (bitChar b) = .digit := by cases b <;> decide

/-! ### Where the parser stands -/

/-- In DEC_HEADER since s₀, with the entries `tab` read and no response emitted. -/
structure InHeader (s₀ : State) (tab : List Entry) (s : State) : Prop where
  state : s.state = .decHeader
  table : s.tab = tab
  params : s.params = s₀.params
  rsp : s.rsp = s₀.rsp
  err : s.err = s₀.err

/-- Between two pairs. -/
structure AtSymbol (s₀ : State) (tab : List Entry) (s : State) : Prop extends InHeader s₀ tab s where
  phase : s.hpPhase = .symWait

/-- In a symbol token of digits whose value so far is v. -/
structure InSymbol (s₀ : State) (tab : List Entry) (v : Nat) (s : State) : Prop extends InHeader s₀ tab s where
  phase : s.hpPhase = .symIn
  value : s.hpVal = v
  numeric : s.hpNd = false

/-- Between the symbol y and its code. -/
structure AtCode (s₀ : State) (tab : List Entry) (y : Sym) (s : State) : Prop extends InHeader s₀ tab s where
  phase : s.hpPhase = .codeWait
  sym : s.hpSym = y

/-- In a code token of the symbol y that is c so far. -/
structure InCode (s₀ : State) (tab : List Entry) (y : Sym) (c : Bits) (s : State) : Prop
    extends InHeader s₀ tab s where
  phase : s.hpPhase = .codeIn
  sym : s.hpSym = y
  code : s.hpCode = c
  len : s.hpLen = c.length
  good : s.hpBad = false

/-- At the start of the body, with the entries `tab` and no response emitted since s₀. -/
structure AtBody (s₀ : State) (tab : List Entry) (s : State) : Prop where
  state : s.state = .decBody
  cand : s.cand = []
  table : s.tab = tab
  params : s.params = s₀.params
  rsp : s.rsp = s₀.rsp
  err : s.err = s₀.err

variable {s₀ : State} {tab : List Entry}

/-! ### The symbol token -/

/-- A digit added to the value of a symbol token, with saturation (R254). -/
def addDigit (a : Nat) (d : Byte) : Nat := min (10 * a + digitVal d) (sentinelVal + 1)

theorem reads_firstDigit {d : Byte} (hd : isDigitByte d) :
    Reads (AtSymbol s₀ tab) [d] (InSymbol s₀ tab (digitVal d)) := by
  refine reads_hdrByte (fun s h => h.state) fun s ⟨⟨hs, ht, hp, hr, he⟩, hphase⟩ => ?_
  simp only [hdrByte, hphase, classify_of_isDigitByte hd]
  exact ⟨_, rfl, ⟨hs, ht, hp, hr, he⟩, rfl, rfl, rfl⟩

theorem reads_digit {v : Nat} {d : Byte} (hd : isDigitByte d) :
    Reads (InSymbol s₀ tab v) [d] (InSymbol s₀ tab (addDigit v d)) := by
  refine reads_hdrByte (fun s h => h.state) fun s ⟨⟨hs, ht, hp, hr, he⟩, hphase, hval, hnd⟩ => ?_
  simp only [hdrByte, hphase, classify_of_isDigitByte hd]
  exact ⟨_, rfl, ⟨hs, ht, hp, hr, he⟩, rfl, hval ▸ rfl, hnd⟩

theorem reads_digits {v : Nat} {ds : List Byte} (hds : ∀ d ∈ ds, isDigitByte d) :
    Reads (InSymbol s₀ tab v) ds (InSymbol s₀ tab (ds.foldl addDigit v)) := by
  induction ds generalizing v with
  | nil => exact .nil
  | cons d ds ih => exact (reads_digit (hds d (by simp))).append (ih fun x hx => hds x (List.mem_cons_of_mem d hx))

/-- Saturating after each digit is saturating at the end (R254). -/
theorem foldl_addDigit (ds : List Byte) (v : Nat) :
    ds.foldl addDigit (min v (sentinelVal + 1)) =
      min (ds.foldl (fun a d => 10 * a + digitVal d) v) (sentinelVal + 1) := by
  induction ds generalizing v with
  | nil => rfl
  | cons d ds ih =>
    have hstep : addDigit (min v (sentinelVal + 1)) d = min (10 * v + digitVal d) (sentinelVal + 1) := by
      unfold addDigit
      omega
    rw [List.foldl_cons, List.foldl_cons, hstep, ih]

/-- A run of digits leaves the value of its numeral, saturated (R254). -/
theorem reads_numeral {ds : List Byte} (hne : ds ≠ []) (hds : ∀ d ∈ ds, isDigitByte d) :
    Reads (AtSymbol s₀ tab) ds (InSymbol s₀ tab (min (numeralValue ds) (sentinelVal + 1))) := by
  obtain ⟨d, ds, rfl⟩ := List.exists_cons_of_ne_nil hne
  have hd := hds d (by simp)
  have hfirst : digitVal d = min (10 * 0 + digitVal d) (sentinelVal + 1) := by
    have := digitVal_le (classify_of_isDigitByte hd)
    have : sentinelVal = 0x110000 := rfl
    omega
  have hvalue : ds.foldl addDigit (digitVal d) = min (numeralValue (d :: ds)) (sentinelVal + 1) := by
    rw [hfirst, foldl_addDigit]
    rfl
  exact hvalue ▸ (reads_firstDigit hd).append (reads_digits fun x hx => hds x (List.mem_cons_of_mem d hx))

/-- A space after a header symbol's value ends the token (R255). -/
theorem reads_symbolEnd {y : Sym} (hy : isHeaderSymbol y.toNat = true) :
    Reads (InSymbol s₀ tab y.toNat) [0x20#8] (AtCode s₀ tab y) := by
  have hsym : symOfNat y.toNat = y := BitVec.eq_of_toNat_eq (symOfNat_toNat hy)
  refine reads_hdrByte (fun s h => h.state) fun s ⟨⟨hs, ht, hp, hr, he⟩, hphase, hval, hnd⟩ => ?_
  simp only [hdrByte, hphase, classify_space, finishSym, hval, hnd, hy, if_true, Bool.false_eq_true, if_false]
  exact ⟨_, rfl, ⟨hs, ht, hp, hr, he⟩, rfl, hsym⟩

theorem le_sentinelVal {v : Nat} (h : isHeaderSymbol v = true) : v ≤ sentinelVal := by
  simp only [isHeaderSymbol, isScalar, Bool.or_eq_true, Bool.and_eq_true, decide_eq_true_eq] at h
  have hsent : sentinelVal = 0x110000 := rfl
  omega

/-- A symbol's numeral and the space after it. -/
theorem reads_symbol {y : Sym} (hy : isHeaderSymbol y.toNat = true) :
    Reads (AtSymbol s₀ tab) (decimal y.toNat ++ [0x20#8]) (AtCode s₀ tab y) := by
  obtain ⟨hdigits, hvalue, d, tl, hcons, -⟩ := isNumeral_decimal y.toNat
  have hnum := reads_numeral (s₀ := s₀) (tab := tab) (by simp [hcons]) hdigits
  rw [hvalue, Nat.min_eq_left (Nat.le_succ_of_le (le_sentinelVal hy))] at hnum
  exact hnum.append (reads_symbolEnd hy)

/-! ### The code token -/

/-- A character of a code that still fits (R254). -/
theorem codeChar_bitChar (b : Bool) {s : State} (h : s.hpLen < s.params.maxCodeLen) :
    codeChar (bitChar b) s = { s with hpCode := s.hpCode ++ [b], hpLen := s.hpLen + 1 } := by
  have hchar : bitChar b = 0x30#8 ∨ bitChar b = 0x31#8 := by cases b <;> decide
  have hbit : decide (bitChar b = 0x31#8) = b := by cases b <;> decide
  have hlen : min (s.hpLen + 1) (s.params.maxCodeLen + 1) = s.hpLen + 1 := by omega
  simp only [codeChar, hchar, h, if_true, hbit, hlen]

theorem reads_firstBit {y : Sym} (b : Bool) (hfit : 0 < s₀.params.maxCodeLen) :
    Reads (AtCode s₀ tab y) [bitChar b] (InCode s₀ tab y [b]) := by
  refine reads_hdrByte (fun s h => h.state) fun s ⟨⟨hs, ht, hp, hr, he⟩, hphase, hsym⟩ => ?_
  simp only [hdrByte, hphase, classify_bitChar]
  rw [codeChar_bitChar b (by rw [hp]; exact hfit)]
  exact ⟨_, rfl, ⟨hs, ht, hp, hr, he⟩, rfl, hsym, rfl, rfl, rfl⟩

theorem reads_bit {y : Sym} {c : Bits} (b : Bool) (hfit : c.length < s₀.params.maxCodeLen) :
    Reads (InCode s₀ tab y c) [bitChar b] (InCode s₀ tab y (c ++ [b])) := by
  refine reads_hdrByte (fun s h => h.state) fun s ⟨⟨hs, ht, hp, hr, he⟩, hphase, hsym, hcode, hlen, hgood⟩ => ?_
  simp only [hdrByte, hphase, classify_bitChar]
  rw [codeChar_bitChar b (by rw [hlen, hp]; exact hfit)]
  exact ⟨_, rfl, ⟨hs, ht, hp, hr, he⟩, rfl, hsym, by rw [hcode], by simp [hlen], hgood⟩

theorem reads_bits {y : Sym} {c u : Bits} (hfit : c.length + u.length ≤ s₀.params.maxCodeLen) :
    Reads (InCode s₀ tab y c) (codeChars u) (InCode s₀ tab y (c ++ u)) := by
  induction u generalizing c with
  | nil =>
    rw [List.append_nil]
    exact .nil
  | cons b u ih =>
    rw [List.length_cons] at hfit
    have hrest := ih (c := c ++ [b]) (by simp; omega)
    rw [List.append_assoc] at hrest
    exact (reads_bit b (by omega)).append hrest

/-- The characters of a code that fits (R254). -/
theorem reads_code {y : Sym} {c : Bits} (hne : c ≠ []) (hfit : c.length ≤ s₀.params.maxCodeLen) :
    Reads (AtCode s₀ tab y) (codeChars c) (InCode s₀ tab y c) := by
  obtain ⟨b, c, rfl⟩ := List.exists_cons_of_ne_nil hne
  rw [List.length_cons] at hfit
  exact (reads_firstBit b (by omega)).append (reads_bits (c := [b]) (by simp; omega))

/-- A space after a code that no entry has adds the entry (R256, R257). -/
theorem reads_codeEnd {y : Sym} {c : Bits} (hfit : c.length ≤ s₀.params.maxCodeLen) (hnew : findCode c tab = none)
    (hfree : tab.length < s₀.params.maxEntries) :
    Reads (InCode s₀ tab y c) [0x20#8] (AtSymbol s₀ (tab ++ [⟨y, 0, c⟩])) := by
  refine reads_hdrByte (fun s h => h.state) fun s ⟨⟨hs, ht, hp, hr, he⟩, hphase, hsym, hcode, hlen, hgood⟩ => ?_
  have hshort : ¬ s₀.params.maxCodeLen < c.length := Nat.not_lt.2 hfit
  simp only [hdrByte, hphase, classify_space, finishCode, tabPush, nent_eq, hgood, hlen, hp, hcode, ht, hnew, hshort,
    hfree, Nat.ne_of_lt hfree, Option.isSome_none, Bool.false_eq_true, if_true, if_false, Flow.andThen_cont]
  exact ⟨_, rfl, ⟨hs, by rw [hsym], rfl, hr, he⟩, rfl⟩

/-! ### Pairs and the whole header -/

/-- The entry the decoder makes of a pair: its count is 0 (R256). -/
def decoded (e : Entry) : Entry := { e with cnt := 0 }

/-- A pair adds its entry (R254 to R257). -/
theorem reads_entryBytes {e : Entry} (hsym : isHeaderSymbol e.sym.toNat = true) (hne : e.code ≠ [])
    (hfit : e.code.length ≤ s₀.params.maxCodeLen) (hnew : findCode e.code tab = none)
    (hfree : tab.length < s₀.params.maxEntries) :
    Reads (AtSymbol s₀ tab) (entryBytes e) (AtSymbol s₀ (tab ++ [decoded e])) :=
  ((reads_symbol hsym).append (reads_code hne hfit)).append (reads_codeEnd hfit hnew hfree)

/-- Pairs with distinct codes add their entries in order. -/
theorem reads_pairs {es : List Entry}
    (hes : ∀ e ∈ es, isHeaderSymbol e.sym.toNat = true ∧ e.code ≠ [] ∧ e.code.length ≤ s₀.params.maxCodeLen)
    (hcodes : (tab.map Entry.code ++ es.map Entry.code).Nodup) (hfits : tab.length + es.length ≤ s₀.params.maxEntries) :
    Reads (AtSymbol s₀ tab) (es.flatMap entryBytes) (AtSymbol s₀ (tab ++ es.map decoded)) := by
  induction es generalizing tab with
  | nil => simpa using Reads.nil
  | cons e es ih =>
    obtain ⟨hsym, hne, hfit⟩ := hes e (by simp)
    obtain ⟨-, -, hdisjoint⟩ := List.nodup_append.1 hcodes
    rw [List.length_cons] at hfits
    have hnew : findCode e.code tab = none :=
      findCode_eq_none.2 fun a ha => hdisjoint _ (List.mem_map_of_mem ha) _ (by simp)
    have hrest := ih (tab := tab ++ [decoded e]) (fun x hx => hes x (List.mem_cons_of_mem e hx))
      (by simpa [decoded] using hcodes) (by simp; omega)
    rw [List.append_assoc] at hrest
    exact (reads_entryBytes hsym hne hfit hnew (by omega)).append hrest

theorem reads_newline : Reads (AtSymbol s₀ tab) [0x0A#8] (AtBody s₀ tab) := by
  refine reads_hdrByte (fun s h => h.state) fun s ⟨⟨hs, ht, hp, hr, he⟩, hphase⟩ => ?_
  simp only [hdrByte, hphase, classify_newline]
  exact ⟨_, rfl, rfl, rfl, ht, hp, hr, he⟩

/-- The header of a table of distinct codes parses to its entries in ascending order of symbol (R227, R253 to R258). -/
theorem reads_headerBytes {t : List Entry}
    (ht : ∀ e ∈ t, isHeaderSymbol e.sym.toNat = true ∧ e.code ≠ [] ∧ e.code.length ≤ s₀.params.maxCodeLen)
    (hcodes : DistinctCodes t) (hfits : t.length ≤ s₀.params.maxEntries) :
    Reads (AtSymbol s₀ []) (headerBytes t) (AtBody s₀ ((bySymbol t).map decoded)) := by
  have hperm := bySymbol_perm t
  refine Reads.append (reads_pairs (fun e he => ht e (hperm.mem_iff.1 he)) ?_ ?_) reads_newline
  · exact (hperm.map Entry.code).nodup_iff.2 hcodes
  · simpa [hperm.length_eq] using hfits

end Sys2Proof.Proofs
end

section
/-! PROOFS. The body matcher reads a stream of codes none of which begins with another, and so decoding undoes encoding
(43_decoder.md R259 to R264, 42_encoder.md R230). -/

open Sys2Proof Sys2Proof.Machine Sys2Proof.Claims

namespace Sys2Proof.Proofs

/-! ### Tables in which no code begins with another -/

/-- Where no code begins with another, an entry's code begins with no code but its own (R164). -/
theorem eq_of_code_prefix {tab : List Entry} (h : PrefixFree (tab.map Entry.code)) {a b : Entry} (ha : a ∈ tab)
    (hb : b ∈ tab) (hab : a.code <+: b.code) : a = b := by
  have hsymm : Std.Symm fun x y : Entry => ¬ x.code <+: y.code ∧ ¬ y.code <+: x.code :=
    ⟨fun _ _ hxy => ⟨hxy.2, hxy.1⟩⟩
  by_contra hne
  exact ((List.pairwise_map.1 h).forall ha hb hne).1 hab

theorem findCode_of_mem {tab : List Entry} (h : PrefixFree (tab.map Entry.code)) {e : Entry} (he : e ∈ tab) :
    findCode e.code tab = some e := by
  obtain ⟨a, hfind⟩ := Option.isSome_iff_exists.1 (findCode_isSome.2 ⟨e, he, rfl⟩)
  obtain ⟨ha, hcode⟩ := findCode_eq_some hfind
  rw [hfind, eq_of_code_prefix h ha he (hcode ▸ List.prefix_refl _)]

/-- What a code begins with, short of the whole code, has matched nothing. -/
theorem unmatched_of_proper_prefix {tab : List Entry} (h : PrefixFree (tab.map Entry.code)) {e : Entry} (he : e ∈ tab)
    {c : Bits} (hc : c <+: e.code) (hne : c ≠ e.code) : Unmatched tab c := by
  intro a ha hac
  obtain rfl := eq_of_code_prefix h ha he (hac.trans hc)
  exact hne (hc.eq_of_length_le hac.length_le)

/-! ### Streams of codes -/

/-- The bits are whole codes of real symbols, the sentinel's code, and anything after it; `out` is what the decoder answers. -/
inductive CodeStream (tab : List Entry) : Bits → List Word → Prop where
  | sentinel {e : Entry} {pad : Bits} (he : e ∈ tab) (hs : e.sym = sentinel) :
    CodeStream tab (e.code ++ pad) [0x30000001#32]
  | symbol {e : Entry} {β : Bits} {out : List Word} (he : e ∈ tab) (hs : e.sym ≠ sentinel) (h : CodeStream tab β out) :
    CodeStream tab (e.code ++ β) (symWord e.sym :: out)

/-- In DEC_BODY with no code yet complete in the candidate: candidate and bits to come are a stream of codes, and S.rsp with
what it decodes to will be `out`. -/
structure Decoding (out : List Word) (β : Bits) (s : State) : Prop where
  state : s.state = .decBody
  err : s.err = .none
  prefixFree : PrefixFree (s.tab.map Entry.code)
  codes : ∀ e ∈ s.tab, e.code ≠ [] ∧ e.code.length ≤ s.params.maxCodeLen
  cand : Unmatched s.tab s.cand
  stream : ∃ rest, CodeStream s.tab (s.cand ++ β) rest ∧ s.rsp ++ rest = out

/-- After the sentinel's code: DEC_TAIL with all of `out` emitted. -/
structure Decoded (out : List Word) (s : State) : Prop where
  state : s.state = .decTail
  err : s.err = .none
  rsp : s.rsp = out

theorem bodyBit_match {b : Bool} {s : State} {e : Entry} (hf : findCode (s.cand ++ [b]) s.tab = some e)
    (hs : e.sym ≠ sentinel) : bodyBit b s = .cont { s with rsp := s.rsp ++ [symWord e.sym], cand := [] } := by
  simp only [bodyBit, hf, hs, if_false, ← sym_word]
  rfl

theorem bodyBit_sentinel {b : Bool} {s : State} {e : Entry} (hf : findCode (s.cand ++ [b]) s.tab = some e)
    (hs : e.sym = sentinel) : bodyBit b s = .ended { s with
      rsp := s.rsp ++ [0x30000001#32], cand := s.cand ++ [b], state := .decTail } := by
  simp only [bodyBit, hf, hs, if_true]
  rfl

theorem bodyBit_grow {b : Bool} {s : State} (hf : findCode (s.cand ++ [b]) s.tab = none)
    (hl : (s.cand ++ [b]).length < s.params.maxCodeLen) : bodyBit b s = .cont { s with cand := s.cand ++ [b] } := by
  simp only [bodyBit, hf, Nat.ne_of_lt hl, if_false]

/-- The first code of a stream begins with the candidate and the next bit: it is complete with that bit, or goes on. -/
theorem code_of_prefix {tab : List Entry} {c β γ : Bits} {b : Bool} {e : Entry} (hc : Unmatched tab c) (he : e ∈ tab)
    (heq : c ++ b :: β = e.code ++ γ) : (c ++ [b] = e.code ∧ β = γ) ∨ (c ++ [b] <+: e.code ∧ c ++ [b] ≠ e.code) := by
  have heq' : (c ++ [b]) ++ β = e.code ++ γ := by simpa using heq
  by_cases hwhole : c ++ [b] = e.code
  · rw [hwhole] at heq'
    exact .inl ⟨hwhole, List.append_cancel_left heq'⟩
  · refine .inr ⟨?_, hwhole⟩
    have hpre : e.code <+: (c ++ [b]) ++ β := heq' ▸ List.prefix_append e.code γ
    rcases List.prefix_or_prefix_of_prefix (List.prefix_append (c ++ [b]) β) hpre with h | h
    · exact h
    · rcases List.prefix_concat_iff.1 h with h | h
      · exact absurd h.symm hwhole
      · exact absurd h (hc e he)

/-- The candidate grows inside the stream's first code. -/
theorem bodyBit_inside {out : List Word} {β : Bits} {s : State} {b : Bool} {e : Entry} (h : Decoding out (b :: β) s)
    (he : e ∈ s.tab) (hpre : s.cand ++ [b] <+: e.code) (hne : s.cand ++ [b] ≠ e.code) :
    Yields False (Decoding out β) (Decoded out) (bodyBit b s) := by
  obtain ⟨hs, herr, hfree, hcodes, hcand, rest, hstream, hout⟩ := h
  have hunmatched := unmatched_of_proper_prefix hfree he hpre hne
  have hnone : findCode (s.cand ++ [b]) s.tab = none :=
    findCode_eq_none.2 fun a ha heq => hunmatched a ha (heq ▸ List.prefix_refl _)
  have hlen : (s.cand ++ [b]).length < e.code.length :=
    lt_of_le_of_ne hpre.length_le fun hl => hne (hpre.eq_of_length hl)
  rw [bodyBit_grow hnone (lt_of_lt_of_le hlen (hcodes e he).2)]
  exact ⟨hs, herr, hfree, hcodes, hunmatched, rest, by simpa using hstream, hout⟩

/-- One bit of a stream (R259): it completes the sentinel's code, or a symbol's, or lengthens the candidate. -/
theorem bodyBit_decodes {out : List Word} {β : Bits} {s : State} {b : Bool} (h : Decoding out (b :: β) s) :
    Yields False (Decoding out β) (Decoded out) (bodyBit b s) := by
  obtain ⟨hs, herr, hfree, hcodes, hcand, rest, hstream, hout⟩ := id h
  generalize hbits : s.cand ++ b :: β = bits at hstream
  cases hstream with
  | @sentinel e pad he hsent =>
    rcases code_of_prefix hcand he hbits with ⟨hwhole, -⟩ | ⟨hpre, hne⟩
    · rw [bodyBit_sentinel (hwhole ▸ findCode_of_mem hfree he) hsent]
      exact ⟨rfl, herr, hout⟩
    · exact bodyBit_inside h he hpre hne
  | @symbol e γ rest he hsym hrest =>
    rcases code_of_prefix hcand he hbits with ⟨hwhole, rfl⟩ | ⟨hpre, hne⟩
    · rw [bodyBit_match (hwhole ▸ findCode_of_mem hfree he) hsym]
      have hempty : Unmatched s.tab [] := fun a ha hnil => (hcodes a ha).1 (List.prefix_nil.1 hnil)
      exact ⟨hs, herr, hfree, hcodes, hempty, rest, hrest, by simpa using hout⟩
    · exact bodyBit_inside h he hpre hne

theorem bodyBits_decodes {out : List Word} {bs β : Bits} {s : State} (h : Decoding out (bs ++ β) s) :
    Yields False (Decoding out β) (Decoded out) (bodyBits bs s) := by
  induction bs generalizing s with
  | nil => exact h
  | cons b bs ih => exact (bodyBit_decodes h).andThen fun t ht => ih ht

/-- A stream does not end before its sentinel's code. -/
theorem not_decoding_nil {out : List Word} {s : State} : ¬ Decoding out [] s := by
  rintro ⟨-, -, -, -, hcand, rest, hstream, -⟩
  rw [List.append_nil] at hstream
  generalize hbits : s.cand = bits at hstream
  cases hstream with
  | sentinel he _ => exact hcand _ he (hbits ▸ List.prefix_append _ _)
  | symbol he _ _ => exact hcand _ he (hbits ▸ List.prefix_append _ _)

/-! ### Bytes of the body -/

/-- Where the decoder stands with the bits β to come: in the stream or past its end (R262). -/
abbrev Within (out : List Word) (β : Bits) (s : State) : Prop := Decoding out β s ∨ Decoded out s

/-- In DEC_BODY a byte is matched bit by bit, and in DEC_TAIL it has no effect (R259, R262). -/
theorem reads_bodyByte {out : List Word} {b : Byte} {β : Bits} :
    Reads (Within out (readBits b ++ β)) [b] (Within out β) := by
  have hbody : ∀ s, Within out (readBits b ++ β) s → s.state ≠ .error ∧ legalIn (.decByte b) s.state = true ∧
      Yields False (Within out β) (Within out β) (decByteBody b { s with ci := s.ci + 1 }) := by
    rintro s (⟨hs, herr, hfree, hcodes, hcand, hstream⟩ | ⟨hs, herr, hrsp⟩)
    · have hdec : Decoding out (readBits b ++ β) { s with ci := s.ci + 1 } := ⟨hs, herr, hfree, hcodes, hcand, hstream⟩
      refine ⟨by simp [hs], by simp [hs, legalIn], ?_⟩
      simp only [decByteBody, hs]
      exact Yields.mono (f := bodyBits _ _) (bodyBits_decodes (hs ▸ hdec)) (fun _ => Or.inl) fun _ => Or.inr
    · refine ⟨by simp [hs], by simp [hs, legalIn], ?_⟩
      simp only [decByteBody, hs]
      exact .inr ⟨rfl, herr, hrsp⟩
  intro s hs
  obtain ⟨he, hl, hyields⟩ := hbody s hs
  obtain ⟨t, ht, hwithin⟩ := hyields.exists_next
  have haccept : acceptWord (encode (.decByte b)) s = .next t := by
    rw [acceptWord_encode_legal (body := decByteBody b) (fun _ => rfl) he hl, ht]
  exact ⟨t, feed_cons_next haccept, hwithin⟩

/-- A stream ends with its sentinel's code, so its bytes lead to DEC_TAIL. -/
theorem reads_bodyBytes {out : List Word} (bs : List Byte) : Reads (Decoding out (bitsOf bs)) bs (Decoded out) := by
  have hwithin : Reads (Within out (bitsOf bs)) bs (Within out []) := by
    induction bs with
    | nil => exact .nil
    | cons b bs ih => exact reads_bodyByte.append ih
  intro s hs
  obtain ⟨t, ht, hend⟩ := hwithin s (.inl hs)
  exact ⟨t, ht, hend.resolve_left not_decoding_nil⟩

/-! ### Decoding undoes encoding -/

/-- The bits of a body are a stream of codes that decodes to the symbols of pass 2 (R229, R230). -/
theorem codeStream_bodyCode {tab tab' : List Entry} {ys : List Val} {pad : Bits}
    (htab : ∀ e ∈ tab, decoded e ∈ tab') (hsent : ∃ e, findSym sentinel tab = some e)
    (hys : ∀ y ∈ ys, Encodable tab y) :
    CodeStream tab' (bodyCode tab ys ++ pad) (ys.map (fun y => symWord (symOfVal y)) ++ [0x30000001#32]) := by
  induction ys with
  | nil =>
    obtain ⟨e, he⟩ := hsent
    obtain ⟨hmem, hsym⟩ := findSym_eq_some he
    have hcode : bodyCode tab [] = e.code := by simp [bodyCode, he]
    rw [hcode]
    exact .sentinel (e := decoded e) (htab e hmem) hsym
  | cons y ys ih =>
    obtain ⟨hscalar, e, he⟩ := hys y (by simp)
    obtain ⟨hmem, hsym⟩ := findSym_eq_some he
    have hreal : e.sym ≠ sentinel :=
      hsym ▸ sym_ne_sentinel_of_isScalar (by rwa [symOfVal_toNat hscalar])
    have hcode : bodyCode tab (y :: ys) ++ pad = e.code ++ (bodyCode tab ys ++ pad) := by simp [bodyCode, he]
    rw [hcode, List.map_cons, ← hsym]
    exact .symbol (e := decoded e) (htab e hmem) hreal (ih fun z hz => hys z (List.mem_cons_of_mem y hz))

theorem distinctCodes_of_prefixFree {tab : List Entry} (h : PrefixFree (tab.map Entry.code)) : DistinctCodes tab :=
  List.Pairwise.imp (S := (· ≠ ·)) (fun hab heq => hab.1 (heq ▸ List.prefix_refl _)) h

theorem prefixFree_of_perm {cs ds : List Bits} (h : PrefixFree cs) (hp : cs.Perm ds) : PrefixFree ds :=
  (hp.pairwise_iff fun hab => ⟨hab.2, hab.1⟩).1 h

/-- The codes the decoder reads from a header are the table's. -/
theorem decoded_bySymbol_codes (tab : List Entry) :
    (tab.map Entry.code).Perm (((bySymbol tab).map decoded).map Entry.code) := by
  have hcodes : ((bySymbol tab).map decoded).map Entry.code = (bySymbol tab).map Entry.code := by
    simp [Function.comp_def, decoded]
  rw [hcodes]
  exact (bySymbol_perm tab).symm.map _

/-- DEC_BEGIN makes the parser ready for a header (R251). -/
theorem acceptWord_decBegin {s : State} (hs : s.state = .idle) :
    ∃ t, acceptWord (encode .decBegin) s = .next t ∧ AtSymbol s [] t := by
  refine ⟨_, acceptWord_encode_legal (body := decBeginBody) (fun _ => rfl) (by simp [hs]) (by simp [hs, legalIn]), ?_⟩
  exact ⟨⟨rfl, rfl, rfl, rfl, rfl⟩, rfl⟩

/-- DEC_END in DEC_TAIL returns to IDLE (R263). -/
theorem acceptWord_decEnd {s : State} (hs : s.state = .decTail) :
    acceptWord (encode .decEnd) s = .next { s with ci := s.ci + 1, state := .idle } := by
  rw [acceptWord_encode_legal (body := decEndBody) (fun _ => rfl) (by simp [hs]) (by simp [hs, legalIn])]
  simp [decEndBody, hs]

/-- Where the header of an encoded table has been read, the body's bits decode (R230). -/
theorem decoding_of_atBody {s u : State} {ys : List Val} {out : List Word} {pad : Bits} (hinv : Inv s)
    (henc : Encoded out ys s) (herr : s.err = .none) (hu : AtBody s ((bySymbol s.tab).map decoded) u) :
    Decoding (s.rsp ++ ys.map (fun y => symWord (symOfVal y)) ++ [0x30000001#32]) (bodyCode s.tab ys ++ pad) u := by
  have hcore := coreInv_of_inv hinv
  obtain ⟨-, -, hentries, hfree, -⟩ := henc.table
  obtain ⟨-, -, hbounds⟩ := hcore.table
  obtain ⟨hstate, hcand, htab, hparams, hrsp, herr'⟩ := hu
  have hmem : ∀ {e}, e ∈ (bySymbol s.tab).map decoded ↔ ∃ a ∈ s.tab, decoded a = e := by
    simp [(bySymbol_perm s.tab).mem_iff]
  have hsent := exists_sentinelEntry (s := { s with state := .encBody }) ⟨hcore.setState _, rfl, herr, henc.table⟩
  have hcodes : ∀ e ∈ u.tab, e.code ≠ [] ∧ e.code.length ≤ u.params.maxCodeLen := by
    intro e he
    obtain ⟨a, ha, rfl⟩ := hmem.1 (htab ▸ he)
    exact ⟨(hentries a ha).2.2, hparams ▸ (hbounds a ha).2⟩
  refine ⟨hstate, herr'.trans herr, htab ▸ prefixFree_of_perm hfree (decoded_bySymbol_codes s.tab), hcodes, ?_,
    ys.map (fun y => symWord (symOfVal y)) ++ [0x30000001#32], ?_, ?_⟩
  · rw [hcand]
    exact fun a ha hnil => (hcodes a ha).1 (List.prefix_nil.1 hnil)
  · rw [hcand, htab]
    exact codeStream_bodyCode (fun e he => hmem.2 ⟨e, he, rfl⟩) hsent henc.encodable
  · rw [hrsp, List.append_assoc]

/-- Header and body of an encoded table and its pass 2 decode to the symbols of pass 2 (R230). -/
theorem reads_encoded {s : State} {ys : List Val} {out : List Word} {body : List Byte} {pad : Bits} (hinv : Inv s)
    (henc : Encoded out ys s) (herr : s.err = .none) (hbits : bitsOf body = bodyCode s.tab ys ++ pad) :
    Reads (AtSymbol s []) (headerBytes s.tab ++ body)
      (Decoded (s.rsp ++ ys.map (fun y => symWord (symOfVal y)) ++ [0x30000001#32])) := by
  obtain ⟨-, -, hentries, hfree, -⟩ := henc.table
  obtain ⟨hnent, -, hbounds⟩ := (coreInv_of_inv hinv).table
  have hlisted : ∀ e ∈ s.tab, isHeaderSymbol e.sym.toNat = true ∧ e.code ≠ [] ∧ e.code.length ≤ s.params.maxCodeLen := by
    intro e he
    obtain ⟨hsym, -, hne⟩ := hentries e he
    exact ⟨hsym, hne, (hbounds e he).2⟩
  refine (reads_headerBytes hlisted (distinctCodes_of_prefixFree hfree) hnent).append fun u hu => ?_
  exact reads_bodyBytes body u (hbits ▸ decoding_of_atBody hinv henc herr hu)

/-- DEC_BEGIN, bytes that decode, and DEC_END (R264). -/
theorem feed_decodeWords {s : State} {bytes : List Byte} {out : List Word} (hs : s.state = .idle)
    (h : Reads (AtSymbol s []) bytes (Decoded out)) :
    ∃ u, feed (decodeWords bytes) s = .next u ∧ u.state = .idle ∧ u.err = .none ∧ u.rsp = out := by
  have hwords : decodeWords bytes =
      encode .decBegin :: (bytes.map (fun b => encode (.decByte b)) ++ [encode .decEnd]) := rfl
  obtain ⟨t, hbegin, hparser⟩ := acceptWord_decBegin hs
  obtain ⟨u, hread, hstate, herr, hrsp⟩ := h t hparser
  refine ⟨{ u with ci := u.ci + 1, state := .idle }, ?_, rfl, herr, hrsp⟩
  rw [hwords, feed_cons_next hbegin, feed_append_next hread, feed_cons_next (acceptWord_decEnd hstate), feed_nil]

/-- Settles O46: the bytes emitted are header and body, the header reads back to the table, and the body is matched code by
code up to the sentinel's. -/
theorem decodeOfEncodeIsTheInput : Obligations.DecodeOfEncodeIsTheInput := by
  intro s t xs ys bytes hinv hs h ht hbytes
  have henc := feed_encodeWords hinv hs h ht
  have hinv' : Inv t := inv_of_feed hinv h
  have herr : t.err = .none := (inPhase_of_inv hinv' ht (by decide)).err
  obtain ⟨body, pad, -, hrsp, hbits⟩ := henc.stream
  have hsplit : bytes = headerBytes t.tab ++ body := by
    have heq := hbytes.symm.trans hrsp
    simp only [List.append_assoc, List.append_cancel_left_eq, List.append_cancel_right_eq] at heq
    exact List.map_injective_iff.2 byteWord_injective heq
  have hdecode := feed_decodeWords ht (reads_encoded hinv' henc herr hbits)
  simpa only [hsplit, ← symOfVal_eq_ofNat] using hdecode

end Sys2Proof.Proofs
end

section
/-! PROOFS. The codes of an input with one distinct symbol (42_encoder.md R231). -/

open Sys2Proof Sys2Proof.Machine Sys2Proof.Claims

namespace Sys2Proof.Proofs

/-- A forest of one tree is merged. -/
theorem eq_of_mergesTo_singleton {x t : Tree} (h : MergesTo [x] t) : t = x := by
  cases h with
  | one => rfl
  | step hm _ =>
    have := two_le_length_of_merge hm
    simp at this

/-- Two trees are merged with the one that the other is not below on the left (R155). -/
theorem mergesTo_pair {x y t : Tree} (h : MergesTo [x, y] t) :
    (t = .node x y ∧ y.notBelow x) ∨ (t = .node y x ∧ x.notBelow y) := by
  cases h with
  | step hm h' =>
    obtain @⟨rest, a, b, hp, ha, -⟩ := hm
    obtain rfl : rest = [] := by simpa using hp.length_eq
    obtain rfl := eq_of_mergesTo_singleton h'
    have hmem : a = x ∨ a = y := by simpa using hp.mem_iff.2 List.mem_cons_self
    rcases hmem with rfl | rfl
    · obtain rfl : y = b := List.singleton_perm_singleton.1 hp.cons_inv
      exact .inl ⟨rfl, ha y (by simp)⟩
    · obtain rfl : x = b := List.singleton_perm_singleton.1 ((List.Perm.swap x a []).trans hp).cons_inv
      exact .inr ⟨rfl, ha x (by simp)⟩

/-- In a table of two entries the one that the other's key is not below has code "0", the other "1" (R155, R161). -/
theorem codesOf_pair (a b : Entry) :
    (codesOf [a, b] = [(a.sym, [false]), (b.sym, [true])] ∧
      ¬ (b.cnt < a.cnt ∨ (b.cnt = a.cnt ∧ b.sym.toNat < a.sym.toNat))) ∨
    (codesOf [a, b] = [(b.sym, [false]), (a.sym, [true])] ∧
      ¬ (a.cnt < b.cnt ∨ (a.cnt = b.cnt ∧ a.sym.toNat < b.sym.toNat))) := by
  obtain ⟨t, hm, hcodes⟩ := codesOf_spec (tab := [a, b]) (Nat.le_refl 2)
  rw [hcodes]
  rcases mergesTo_pair hm with ⟨rfl, hle⟩ | ⟨rfl, hle⟩
  · exact .inl ⟨rfl, hle⟩
  · exact .inr ⟨rfl, hle⟩

/-- Settles O23: the sentinel counts once and its symbol is the largest, so it is left of the real symbol exactly when that occurs
more than once. -/
theorem oneSymbolCodes : Obligations.OneSymbolCodes := by
  intro v n c hv hn codes
  have hsent : sentinelEntry.sym.toNat = 0x110000 ∧ sentinelEntry.cnt = 1 := ⟨rfl, rfl⟩
  have hne : v ≠ 0x110000#21 := by
    rintro rfl
    exact absurd hv (by decide)
  rcases codesOf_pair ⟨v, n, c⟩ sentinelEntry with ⟨hcodes, hle⟩ | ⟨hcodes, hle⟩
  · have heq : codes = [(v, [false]), (0x110000#21, [true])] := hcodes
    refine ⟨fun _ => ?_, fun hlt => ?_⟩
    · simp [heq, codeFor, hne]
    · exact absurd (.inl (hsent.2 ▸ hlt)) hle
  · have heq : codes = [(0x110000#21, [false]), (v, [true])] := hcodes
    refine ⟨fun h1 => ?_, fun _ => ?_⟩
    · exact absurd (.inr ⟨h1.trans hsent.2.symm, hsent.1 ▸ hv⟩) hle
    · simp [heq, codeFor, hne.symm]

end Sys2Proof.Proofs
end

section
/-! PROOFS. What each family of commands leaves unchanged (10_state.md R33, R44, 20_memory.md R80). -/

open Sys2Proof Sys2Proof.Machine

namespace Sys2Proof.Proofs

/-- A view of the state that a family of commands keeps. -/
abbrev View (α : Type) := State → α

/-- The parameters, CI and the host's side of the ports. -/
def hostView : View (Params × Nat × List Word × List HostAct × List Word) :=
  fun s => (s.params, s.ci, s.cmds, s.acts, s.received)

/-- The header parser and the candidate. -/
def parserView : View (HpPhase × Nat × Bool × Sym × Bits × Nat × Bool × Bits) :=
  fun s => (s.hpPhase, s.hpVal, s.hpNd, s.hpSym, s.hpCode, s.hpLen, s.hpBad, s.cand)

/-- S.total and the writer. -/
def writerView : View (Nat × Byte × Fin 8) := fun s => (s.total, s.bwAcc, s.bwCnt)

/-- Two views at once. -/
def View.both {α β : Type} (v : View α) (w : View β) : View (α × β) := fun s => (v s, w s)

/-- What every encode command keeps. -/
abbrev encodeView := hostView.both parserView

/-- What every decode command keeps. -/
abbrev decodeView := hostView.both writerView

/-- What an encode command keeps that writes no entry. -/
abbrev encodeTableView := encodeView.both State.tab

/-- What a decode command keeps that writes no entry. -/
abbrev decodeTableView := decodeView.both State.tab

/-- A piece of pseudocode started in s keeps the view, wherever it goes on or ends. -/
abbrev KeepsView {α : Type} (v : View α) (s : State) (f : Flow) : Prop :=
  Yields True (fun t => v t = v s) (fun t => v t = v s) f

section
variable {α : Type} {v : View α} {s : State}

theorem KeepsView.andThen {f : Flow} {g : State → Flow} (hf : KeepsView v s f) (hg : ∀ t, KeepsView v t (g t)) :
    KeepsView v s (f.andThen g) :=
  Yields.andThen hf fun t ht => (hg t).mono (fun _ => (·.trans ht)) fun _ => (·.trans ht)

/-- The view reads neither S.state, S.err nor S.rsp, so no error entry changes it (R324). -/
def IgnoresRaise (v : View α) : Prop := ∀ (e : Err) (s : State), v (raise e s) = v s

/-- The view reads no table either. -/
def IgnoresTable (v : View α) : Prop := ∀ (tab : List Entry) (s : State), v { s with tab := tab } = v s

theorem keepsView_tabPush (hv : IgnoresTable v) (e : Entry) (s : State) : KeepsView v s (tabPush e s) := by
  rcases tabPush_cases e s with ⟨-, heq⟩ | ⟨-, heq⟩ <;> rw [heq]
  · exact hv _ s
  · trivial

/-- A command keeps a view that its pseudocode keeps where it runs. -/
theorem commonChecks_keepsView {i : Instr} {body : State → Flow} {t : State} (hv : IgnoresRaise v)
    (hbody : legalIn i s.state = true → KeepsView v s (body s)) (h : commonChecks i body s = .next t) : v t = v s := by
  rcases commonChecks_legal_cases i body s with heq | ⟨-, heq⟩ | ⟨hl, heq⟩ <;> rw [heq] at h
  · cases h
    rfl
  · cases h
    exact hv _ s
  · exact (hbody hl).of_next h

end

/-! ### The encode commands -/

theorem writeCode_encodeTableView (c : Bits) (s : State) : encodeTableView (writeCode c s) = encodeTableView s := by
  simp [View.both, hostView, parserView]

theorem flush_encodeTableView (s : State) : encodeTableView (flush s) = encodeTableView s := by
  simp [View.both, hostView, parserView]

theorem count_keepsView (v : Sym) (s : State) : KeepsView encodeView s (count v s) := by
  unfold count
  split_ifs with htotal hknown hfull
  · rfl
  · rfl
  · rfl
  · exact (keepsView_tabPush (fun _ _ => rfl) _ s).andThen fun t => rfl

theorem code_keepsView (v : Sym) (s : State) : KeepsView encodeTableView s (code v s) := by
  unfold code
  cases findSym v s.tab with
  | some e => exact writeCode_encodeTableView e.code s
  | none => rfl

/-- Outside ENC_COUNT, ENC_SYM also keeps the table. -/
theorem encSymBody_keepsTable {val : Val} {s : State} (hs : s.state ≠ .encCount) :
    KeepsView encodeTableView s (encSymBody val s) := by
  unfold encSymBody
  split_ifs
  · exact code_keepsView _ s
  · rfl

theorem KeepsView.fst {α β : Type} {v : View α} {w : View β} {s : State} {f : Flow} (h : KeepsView (v.both w) s f) :
    KeepsView v s f :=
  Yields.mono h (fun _ ht => congrArg Prod.fst ht) fun _ ht => congrArg Prod.fst ht

theorem encSymBody_keepsView (val : Val) (s : State) : KeepsView encodeView s (encSymBody val s) := by
  by_cases hs : s.state = .encCount
  · unfold encSymBody
    split_ifs
    · exact count_keepsView _ s
    · rfl
  · exact (encSymBody_keepsTable hs).fst

theorem buildCodes_keepsView (s : State) : KeepsView encodeView s (buildCodes s) := by
  simp only [buildCodes]
  split_ifs <;> rfl

theorem encBuildBody_keepsView (s : State) : KeepsView encodeView s (encBuildBody s) :=
  (keepsView_tabPush (fun _ _ => rfl) _ s).andThen buildCodes_keepsView

theorem encEndBody_keepsTable (s : State) : KeepsView encodeTableView s (encEndBody s) := by
  unfold encEndBody
  cases findSym sentinel s.tab with
  | some e => exact (flush_encodeTableView (writeCode e.code s)).trans (writeCode_encodeTableView e.code s)
  | none => trivial

/-! ### The decode commands -/

theorem finishSym_keepsView (s : State) : KeepsView decodeView s (finishSym s) := by
  unfold finishSym
  split_ifs <;> rfl

theorem finishCode_keepsView (s : State) : KeepsView decodeView s (finishCode s) := by
  unfold finishCode
  split_ifs with hbad hlong hdup hfull
  · rfl
  · rfl
  · rfl
  · rfl
  · exact (keepsView_tabPush (fun _ _ => rfl) _ s).andThen fun t => rfl

theorem codeChar_decodeView (c : Byte) (s : State) : decodeView (codeChar c s) = decodeView s := by
  rcases codeChar_cases c s with heq | ⟨-, b, heq⟩ | ⟨-, heq⟩ <;> rw [heq] <;> rfl

theorem hdrByte_keepsView (c : Byte) (s : State) : KeepsView decodeView s (hdrByte c s) := by
  cases hp : s.hpPhase <;> cases hc : classify c <;> simp only [hdrByte, hp, hc]
  case symIn.sep => exact finishSym_keepsView s
  case symIn.nl => exact (finishSym_keepsView s).andThen fun t => rfl
  case codeWait.digit | codeWait.other => exact codeChar_decodeView c _
  case codeIn.digit | codeIn.other => exact codeChar_decodeView c s
  case codeIn.sep => exact finishCode_keepsView s
  case codeIn.nl => exact (finishCode_keepsView s).andThen fun t => rfl
  all_goals rfl

theorem bodyBits_keepsTable (bs : Bits) (s : State) : KeepsView decodeTableView s (bodyBits bs s) := by
  induction bs generalizing s with
  | nil => rfl
  | cons b bs ih =>
    refine KeepsView.andThen ?_ ih
    rcases bodyBit_cases b s with ⟨e, -, -, heq⟩ | ⟨e, -, -, heq⟩ | heq | ⟨-, heq⟩ <;> rw [heq] <;> rfl

/-- Outside DEC_HEADER, DEC_BYTE also keeps the table. -/
theorem decByteBody_keepsTable {b : Byte} {s : State} (hs : s.state ≠ .decHeader) :
    KeepsView decodeTableView s (decByteBody b s) := by
  unfold decByteBody
  cases hstate : s.state with
  | decHeader => exact absurd hstate hs
  | decBody => exact bodyBits_keepsTable _ s
  | decTail | idle | encCount | encBody | error => rfl

theorem decByteBody_keepsView (b : Byte) (s : State) : KeepsView decodeView s (decByteBody b s) := by
  by_cases hs : s.state = .decHeader
  · simp only [decByteBody, hs]
    exact hdrByte_keepsView b s
  · exact (decByteBody_keepsTable hs).fst

theorem decEndBody_keepsTable (s : State) : KeepsView decodeTableView s (decEndBody s) := by
  unfold decEndBody
  split_ifs <;> rfl

/-! ### Commands -/

/-- The commands of an encode. -/
def isEncode : Instr → Bool
  | .encBegin | .encSym _ | .encBuild | .encEnd => true
  | .nop | .decBegin | .decByte _ | .decEnd | .getStatus | .abort => false

/-- The commands of a decode. -/
def isDecode : Instr → Bool
  | .decBegin | .decByte _ | .decEnd => true
  | .nop | .encBegin | .encSym _ | .encBuild | .encEnd | .getStatus | .abort => false

/-- The command writes no entry from a state of this phase. -/
def keepsTable : Instr → Phase → Bool
  | .nop, _ | .getStatus, _ | .encEnd, _ | .decEnd, _ => true
  | .encSym _, p => decide (p ≠ .encCount)
  | .decByte _, p => decide (p ≠ .decHeader)
  | .encBegin, _ | .encBuild, _ | .decBegin, _ | .abort, _ => false

theorem exec_encodeView {i : Instr} {s t : State} (hi : isEncode i = true) (h : exec i s = .next t) :
    encodeView t = encodeView s := by
  have hv : IgnoresRaise encodeView := fun _ _ => rfl
  cases i with
  | encBegin => exact commonChecks_keepsView (body := encBeginBody) hv (fun _ => rfl) h
  | encSym val => exact commonChecks_keepsView hv (fun _ => encSymBody_keepsView val s) h
  | encBuild => exact commonChecks_keepsView hv (fun _ => encBuildBody_keepsView s) h
  | encEnd => exact commonChecks_keepsView hv (fun _ => (encEndBody_keepsTable s).fst) h
  | nop | decBegin | decByte | decEnd | getStatus | abort => cases hi

theorem exec_decodeView {i : Instr} {s t : State} (hi : isDecode i = true) (h : exec i s = .next t) :
    decodeView t = decodeView s := by
  have hv : IgnoresRaise decodeView := fun _ _ => rfl
  cases i with
  | decBegin => exact commonChecks_keepsView (body := decBeginBody) hv (fun _ => rfl) h
  | decByte b => exact commonChecks_keepsView hv (fun _ => decByteBody_keepsView b s) h
  | decEnd => exact commonChecks_keepsView hv (fun _ => (decEndBody_keepsTable s).fst) h
  | nop | encBegin | encSym | encBuild | encEnd | getStatus | abort => cases hi

theorem exec_hostView {i : Instr} {s t : State} (h : exec i s = .next t) : hostView t = hostView s := by
  have hv : IgnoresRaise hostView := fun _ _ => rfl
  cases i with
  | nop => exact commonChecks_keepsView (body := Flow.cont) hv (fun _ => rfl) h
  | getStatus => exact commonChecks_keepsView (body := getStatusBody) hv (fun _ => rfl) h
  | abort => exact commonChecks_keepsView (body := abortBody) hv (fun _ => rfl) h
  | encBegin | encSym | encBuild | encEnd => exact congrArg Prod.fst (exec_encodeView rfl h)
  | decBegin | decByte | decEnd => exact congrArg Prod.fst (exec_decodeView rfl h)

theorem exec_tab {i : Instr} {s t : State} (hi : keepsTable i s.state = true) (h : exec i s = .next t) : t.tab = s.tab := by
  have henc : IgnoresRaise encodeTableView := fun _ _ => rfl
  have hdec : IgnoresRaise decodeTableView := fun _ _ => rfl
  cases i with
  | nop => exact commonChecks_keepsView (v := State.tab) (body := Flow.cont) (fun _ _ => rfl) (fun _ => rfl) h
  | getStatus => exact commonChecks_keepsView (v := State.tab) (body := getStatusBody) (fun _ _ => rfl) (fun _ => rfl) h
  | encSym val =>
    exact congrArg Prod.snd (commonChecks_keepsView henc (fun _ => encSymBody_keepsTable (of_decide_eq_true hi)) h)
  | encEnd => exact congrArg Prod.snd (commonChecks_keepsView henc (fun _ => encEndBody_keepsTable s) h)
  | decByte b =>
    exact congrArg Prod.snd (commonChecks_keepsView hdec (fun _ => decByteBody_keepsTable (of_decide_eq_true hi)) h)
  | decEnd => exact congrArg Prod.snd (commonChecks_keepsView hdec (fun _ => decEndBody_keepsTable s) h)
  | encBegin | encBuild | decBegin | abort => cases hi

/-- Settles O47: each family by the view of the state that its pseudocode and the error entry keep. -/
theorem familyFrames : Obligations.FamilyFrames := by
  intro i s t h
  refine ⟨?_, fun hi => ?_, fun hi => ?_, fun hi => ?_⟩
  · simpa only [hostView, Prod.mk.injEq] using exec_hostView h
  · have henc : isEncode i = true := by
      rcases hi with hi | ⟨v, rfl⟩
      · exact (by decide : ∀ j ∈ [Instr.encBegin, .encBuild, .encEnd], isEncode j = true) i hi
      · rfl
    have hview : parserView t = parserView s := congrArg Prod.snd (exec_encodeView henc h)
    simpa only [parserView, Prod.mk.injEq] using hview
  · have hdec : isDecode i = true := by
      rcases hi with hi | ⟨b, rfl⟩
      · exact (by decide : ∀ j ∈ [Instr.decBegin, .decEnd], isDecode j = true) i hi
      · rfl
    have hview : writerView t = writerView s := congrArg Prod.snd (exec_decodeView hdec h)
    simpa only [writerView, Prod.mk.injEq] using hview
  · have htab : keepsTable i s.state = true := by
      rcases hi with hi | ⟨⟨v, rfl⟩, hs⟩ | ⟨⟨b, rfl⟩, hs⟩
      · have hall : ∀ j ∈ [Instr.nop, .getStatus, .encEnd, .decEnd], ∀ p, keepsTable j p = true := by
          simp [keepsTable]
        exact hall i hi _
      · exact decide_eq_true hs
      · exact decide_eq_true hs
    exact exec_tab htab h

end Sys2Proof.Proofs
end

section
/-! PROOFS. What DEC_BYTE does in DEC_BODY over any table, whether or not a code begins with another: it cuts the bits
at the first stored codes (43_decoder.md R258 to R261). -/

open Sys2Proof Sys2Proof.Machine Sys2Proof.Claims

namespace Sys2Proof.Proofs

/-- Where DEC_BYTE is legal it runs its pseudocode (R327). -/
theorem exec_decByte (b : Byte) {s : State} (hs : s.state = .decHeader ∨ s.state = .decBody ∨ s.state = .decTail) :
    exec (.decByte b) s = (decByteBody b s).result := by
  have he : s.state ≠ .error := by rcases hs with hs | hs | hs <;> simp [hs]
  have hl : legalIn (.decByte b) s.state = true := by rcases hs with hs | hs | hs <;> simp [hs, legalIn]
  exact commonChecks_legal he hl

theorem exec_bodyByte (b : Byte) {s : State} (hs : s.state = .decBody) :
    exec (.decByte b) s = (bodyBits (readBits b) s).result := by
  rw [exec_decByte b (.inr (.inl hs))]
  simp only [decByteBody, hs, bodyByte]

/-! ### Bits that reach no stored code -/

/-- Bits that reach no stored code only lengthen a candidate that stays below MAX_CODE_LEN (R259). -/
theorem bodyBits_noMatch {s : State} {u : Bits} (hn : noMatch s s.cand (s.cand ++ u))
    (hl : (s.cand ++ u).length < s.params.maxCodeLen) :
    bodyBits u s = .cont { s with cand := s.cand ++ u } := by
  refine bodyBits_grow u s (by simpa using hl) fun x hx k hpos hk hcode => ?_
  have hpre : x.code <+: s.cand ++ u := hcode ▸ (List.prefix_append_right_inj _).2 (List.take_prefix k u)
  have hlen : x.code.length = s.cand.length + k := by simp [hcode, Nat.min_eq_left hk]
  have := hn x hx hpre
  omega

/-- Of bits of which all but the last reach no stored code, the last meets the candidate the others have lengthened. -/
theorem bodyBits_concat {s : State} {u : Bits} (b : Bool) (hn : noMatch s s.cand (s.cand ++ u))
    (hl : (s.cand ++ u).length < s.params.maxCodeLen) :
    bodyBits (u ++ [b]) s = bodyBit b { s with cand := s.cand ++ u } := by
  rw [bodyBits_append, bodyBits_noMatch hn hl, Flow.andThen_cont, bodyBits]
  cases bodyBit b { s with cand := s.cand ++ u } <;> rfl

theorem bodyBit_limit {b : Bool} {s : State} (hf : findCode (s.cand ++ [b]) s.tab = none)
    (hl : (s.cand ++ [b]).length = s.params.maxCodeLen) :
    bodyBit b s = raiseEnd .bodyNoMatch { s with cand := s.cand ++ [b] } := by
  simp only [bodyBit, hf, hl, if_true]

/-- Bits that fill the candidate to MAX_CODE_LEN and reach no stored code raise BODY_NO_MATCH (R260). -/
theorem bodyBits_limit {s : State} {w : Bits} (hne : w ≠ []) (hn : noMatch s s.cand (s.cand ++ w))
    (hl : (s.cand ++ w).length = s.params.maxCodeLen) :
    bodyBits w s = raiseEnd .bodyNoMatch { s with cand := s.cand ++ w } := by
  obtain ⟨u, b, rfl⟩ := List.eq_nil_or_concat' w |>.resolve_left hne
  rw [← List.append_assoc] at hn hl ⊢
  have hlen : (s.cand ++ u ++ [b]).length = (s.cand ++ u).length + 1 := List.length_append
  have hbefore : noMatch s s.cand (s.cand ++ u) := fun x hx hpre => hn x hx (hpre.trans (List.prefix_append _ _))
  have hnone : findCode (s.cand ++ u ++ [b]) s.tab = none := findCode_eq_none.2 fun x hx hcode => by
    have := hn x hx (hcode ▸ List.prefix_refl _)
    rw [hcode, List.length_append, List.length_append] at this
    simp at this
  rw [bodyBits_concat b hbefore (by omega)]
  exact bodyBit_limit hnone hl

/-! ### First matches -/

/-- Before its last bit the candidate has reached no stored code, and with it the entry's code is found (R259). -/
theorem bodyBits_of_firstMatch {s : State} {e : Entry} {u : Bits} {b : Bool} (h : firstMatch s s.cand e)
    (hcode : e.code = s.cand ++ u ++ [b]) :
    bodyBits (u ++ [b]) s = bodyBit b { s with cand := s.cand ++ u } ∧ findCode (s.cand ++ u ++ [b]) s.tab = some e := by
  obtain ⟨he, hfit, hlonger, hfirst⟩ := h
  have hlen : e.code.length = (s.cand ++ u).length + 1 := by rw [hcode]; exact List.length_append
  have hpre : s.cand ++ u <+: e.code := hcode ▸ List.prefix_append _ _
  constructor
  · refine bodyBits_concat b (fun x hx hxu => ?_) (by omega)
    by_contra hgt
    obtain rfl := hfirst x hx (hxu.trans hpre) (Nat.lt_of_not_le hgt)
    have := hxu.length_le
    omega
  · obtain ⟨x, hfind⟩ := Option.isSome_iff_exists.1 (findCode_isSome.2 ⟨e, he, rfl⟩)
    obtain ⟨hx, hxcode⟩ := findCode_eq_some hfind
    rw [← hcode, hfind, hfirst x hx (hxcode ▸ List.prefix_refl _) (hxcode ▸ hlonger)]

/-- The bits that are left of an entry's code that the candidate begins: all but the last, and the last. -/
theorem exists_concat_of_firstMatch {s : State} {e : Entry} {bs γ : Bits} (h : firstMatch s s.cand e)
    (heq : s.cand ++ bs = e.code ++ γ) : ∃ u b, e.code = s.cand ++ u ++ [b] ∧ bs = u ++ [b] ++ γ := by
  obtain ⟨-, -, hlonger, -⟩ := h
  have hpre : s.cand <+: e.code :=
    List.prefix_of_prefix_length_le (heq ▸ List.prefix_append _ bs) (List.prefix_append _ γ) hlonger.le
  obtain ⟨w, hw⟩ := hpre
  have hne : w ≠ [] := by
    rintro rfl
    simp [← hw] at hlonger
  obtain ⟨u, b, rfl⟩ := List.eq_nil_or_concat' w |>.resolve_left hne
  refine ⟨u, b, by rw [← hw, List.append_assoc], ?_⟩
  rw [← hw, List.append_assoc] at heq
  exact List.append_cancel_left heq

/-- A first match of a real symbol emits it and empties the candidate (R259). -/
theorem bodyBits_firstMatch {s : State} {e : Entry} {bs γ : Bits} (h : firstMatch s s.cand e)
    (hsym : e.sym ≠ sentinel) (heq : s.cand ++ bs = e.code ++ γ) :
    bodyBits bs s = bodyBits γ { s with rsp := s.rsp ++ [symWord e.sym], cand := [] } := by
  obtain ⟨u, b, hcode, rfl⟩ := exists_concat_of_firstMatch h heq
  obtain ⟨hbits, hfind⟩ := bodyBits_of_firstMatch h hcode
  rw [bodyBits_append, hbits, bodyBit_match hfind hsym, Flow.andThen_cont]

/-- A first match of the sentinel emits RSP_DONE dec and ends the command (R259). -/
theorem bodyBits_firstSentinel {s : State} {e : Entry} {bs γ : Bits} (h : firstMatch s s.cand e)
    (hsym : e.sym = sentinel) (heq : s.cand ++ bs = e.code ++ γ) :
    bodyBits bs s = .ended { s with rsp := s.rsp ++ [0x30000001#32], cand := e.code, state := .decTail } := by
  obtain ⟨u, b, hcode, rfl⟩ := exists_concat_of_firstMatch h heq
  obtain ⟨hbits, hfind⟩ := bodyBits_of_firstMatch h hcode
  rw [bodyBits_append, hbits, bodyBit_sentinel hfind hsym, Flow.andThen_ended, hcode]

/-! ### First matches one after another -/

/-- Where the matcher stands once the entries es have been matched: their symbols emitted, nothing else changed (R259). -/
def afterMatches (s : State) (es : List Entry) : State :=
  { s with rsp := s.rsp ++ es.map (fun e => symWord e.sym), cand := candAfter s es }

@[simp] theorem candAfter_nil (s : State) : candAfter s [] = s.cand := rfl

@[simp] theorem candAfter_cons (s : State) (e : Entry) (es : List Entry) : candAfter s (e :: es) = [] := rfl

/-- From an empty candidate any entries leave the candidate empty. -/
theorem candAfter_of_cand_nil {s : State} (h : s.cand = []) (es : List Entry) : candAfter s es = [] := by
  cases es with
  | nil => exact h
  | cons e es => rfl

theorem afterMatches_nil (s : State) : afterMatches s [] = s := by simp [afterMatches]

theorem afterMatches_cons (s : State) (e : Entry) (es : List Entry) :
    afterMatches { s with rsp := s.rsp ++ [symWord e.sym], cand := [] } es = afterMatches s (e :: es) := by
  have hcand := candAfter_of_cand_nil (s := { s with rsp := s.rsp ++ [symWord e.sym], cand := [] }) rfl es
  simp only [afterMatches, hcand, candAfter_cons, List.map_cons, List.append_assoc, List.singleton_append]

/-- After its first match the others are first matches from the empty candidate. -/
theorem matchedInOrder_tail {s : State} {e : Entry} {es : List Entry} (h : matchedInOrder s (e :: es)) (r : List Word) :
    matchedInOrder { s with rsp := r, cand := [] } es := by
  obtain ⟨hsym, -, hrest⟩ := h
  exact ⟨fun x hx => hsym x (List.mem_cons_of_mem e hx), fun x hx => hrest x (List.mem_of_mem_take hx),
    fun x hx => hrest x (List.mem_of_mem_drop hx)⟩

/-- Bits that begin with the rest of codes matched one after another: the matcher goes on after them with the bits that are
left (R259, R261). -/
theorem bodyBits_matchedInOrder {s : State} {es : List Entry} {bs γ : Bits} (h : matchedInOrder s es)
    (heq : s.cand ++ bs = es.flatMap Entry.code ++ γ) :
    ∃ β, candAfter s es ++ β = γ ∧ bodyBits bs s = bodyBits β (afterMatches s es) := by
  induction es generalizing s bs with
  | nil => exact ⟨bs, heq, by rw [afterMatches_nil]⟩
  | cons e es ih =>
    obtain ⟨hsym, hfirst, -⟩ := id h
    rw [List.flatMap_cons, List.append_assoc] at heq
    obtain ⟨β, hβ, hbits⟩ := ih (matchedInOrder_tail h (s.rsp ++ [symWord e.sym])) (bs := es.flatMap Entry.code ++ γ) rfl
    rw [candAfter_of_cand_nil rfl] at hβ
    refine ⟨β, hβ, ?_⟩
    rw [bodyBits_firstMatch (hfirst e (by simp)) (hsym e (by simp)) heq, hbits, afterMatches_cons]

/-- Settles O43: the byte's bits are cut at the matched codes by induction on them; the rest then lengthens the candidate, or
completes the sentinel's code. -/
theorem bodyByteMatchesGreedily : Obligations.BodyByteMatchesGreedily := by
  intro b s es rest hs hes
  rw [exec_bodyByte b hs]
  refine ⟨fun heq hn hl => ?_, fun e hsym hfirst heq => ?_⟩
  · obtain ⟨β, hβ, hbits⟩ := bodyBits_matchedInOrder hes heq
    have hgrow := bodyBits_noMatch (s := afterMatches s es) (u := β) (hβ.symm ▸ hn) (hβ.symm ▸ hl)
    rw [hbits, hgrow, ← hβ]
    rfl
  · rw [List.append_assoc] at heq
    obtain ⟨β, hβ, hbits⟩ := bodyBits_matchedInOrder hes heq
    rw [hbits, bodyBits_firstSentinel (s := afterMatches s es) hfirst hsym hβ]
    rfl

/-- Settles O44: after the matched codes the byte's bits go through a candidate that reaches MAX_CODE_LEN bits, and the command
ends there. -/
theorem bodyNoMatchAtTheLimit : Obligations.BodyNoMatchAtTheLimit := by
  intro b s es u v hs hes heq hlen hlonger hn
  rw [List.append_assoc] at heq
  obtain ⟨β, hβ, hbits⟩ := bodyBits_matchedInOrder hes heq
  obtain ⟨w, hw⟩ : candAfter s es <+: u :=
    List.prefix_of_prefix_length_le (hβ ▸ List.prefix_append _ β) (List.prefix_append _ v) hlonger.le
  have hne : w ≠ [] := by
    rintro rfl
    simp [← hw] at hlonger
  have hsplit : β = w ++ v := List.append_cancel_left (by rw [hβ, ← hw, List.append_assoc])
  have hlimit := bodyBits_limit (s := afterMatches s es) hne (hw.symm ▸ hn) (hw.symm ▸ hlen)
  rw [exec_bodyByte b hs, hbits, hsplit, bodyBits_append, hlimit, ← raise_eq_raised, ← hw]
  rfl

end Sys2Proof.Proofs
end

section
/-! PROOFS. What DEC_BEGIN, DEC_END and each byte of the header do, by the parser's phase and the byte's class (43_decoder.md
R251 to R258, R263). -/

open Sys2Proof Sys2Proof.Machine Sys2Proof.Claims

namespace Sys2Proof.Proofs

/-! ### DEC_BEGIN and DEC_END -/

/-- Settles O35: in both phases the command is legal, and its pseudocode is these assignments. -/
theorem decBeginStartsHeader : Obligations.DecBeginStartsHeader := by
  refine ⟨decode_encode .decBegin, fun s hs => ?_⟩
  have he : s.state ≠ .error := by rcases hs with hs | hs <;> simp [hs]
  have hl : legalIn .decBegin s.state = true := by rcases hs with hs | hs <;> simp [hs, legalIn]
  exact commonChecks_legal (body := decBeginBody) he hl

/-- Where DEC_END is legal it runs its pseudocode (R327). -/
theorem exec_decEnd {s : State} (hs : s.state = .decHeader ∨ s.state = .decBody ∨ s.state = .decTail) :
    exec .decEnd s = (decEndBody s).result := by
  have he : s.state ≠ .error := by rcases hs with hs | hs | hs <;> simp [hs]
  have hl : legalIn .decEnd s.state = true := by rcases hs with hs | hs | hs <;> simp [hs, legalIn]
  exact commonChecks_legal he hl

/-- Settles O45: DEC_BYTE and DEC_END are legal in the three phases, and their pseudocode branches on the phase. -/
theorem endOfDecode : Obligations.EndOfDecode := by
  refine ⟨decode_encode .decEnd, fun s => ⟨fun hs => ⟨fun b => ?_, ?_⟩, fun hs => ?_, fun hs => ?_⟩⟩
  · rw [exec_decByte b (.inr (.inr hs))]
    simp only [decByteBody, hs, Flow.result_cont]
  · rw [exec_decEnd (.inr (.inr hs))]
    simp [decEndBody, hs]
  · rw [exec_decEnd (.inl hs), ← raise_eq_raised]
    simp [decEndBody, hs, raiseEnd]
  · rw [exec_decEnd (.inr (.inl hs)), ← raise_eq_raised]
    simp [decEndBody, hs, raiseEnd]

/-! ### Byte classes -/

theorem not_isDigitByte_newline : ¬ isDigitByte 0x0A#8 := by unfold isDigitByte; decide

theorem not_isDigitByte_of_sep {c : Byte} (h : c ∈ sepBytes) : ¬ isDigitByte c := by
  revert c
  unfold isDigitByte
  decide

theorem ne_newline_of_sep {c : Byte} (h : c ∈ sepBytes) : c ≠ 0x0A#8 := by
  rintro rfl
  revert h
  decide

theorem classify_of_sep {c : Byte} (h : c ∈ sepBytes) : classify c = .sep := by
  revert c
  decide

theorem classify_of_other {c : Byte} (hd : ¬ isDigitByte c) (hn : c ≠ 0x0A#8) (hs : c ∉ sepBytes) :
    classify c = .other := by
  have hsep : ¬ (c = 0x20#8 ∨ c = 0x09#8 ∨ c = 0x0B#8 ∨ c = 0x0C#8 ∨ c = 0x0D#8) := by simpa [sepBytes] using hs
  exact (if_neg hd).trans ((if_neg hn).trans (if_neg hsep))

/-- Settles O36: digits, the newline and the separators are disjoint, and each has its class, as has any other byte. -/
theorem headerByteClasses : Obligations.HeaderByteClasses := by
  intro c
  by_cases hd : isDigitByte c
  · have hn : c ≠ 0x0A#8 := fun h => not_isDigitByte_newline (h ▸ hd)
    have hs : c ∉ sepBytes := fun h => not_isDigitByte_of_sep h hd
    simp [classify_of_isDigitByte hd, hd, hn, hs]
  by_cases hn : c = 0x0A#8
  · have hs : c ∉ sepBytes := fun h => ne_newline_of_sep h hn
    simp [hn, classify_newline, not_isDigitByte_newline, hn ▸ hs]
  by_cases hs : c ∈ sepBytes
  · simp [classify_of_sep hs, hd, hn, hs]
  · simp [classify_of_other hd hn hs, hd, hn, hs]

/-! ### Inside tokens -/

theorem exec_hdrByte (c : Byte) {s : State} (hs : s.state = .decHeader) :
    exec (.decByte c) s = (hdrByte c s).result := by
  rw [exec_decByte c (.inl hs)]
  simp only [decByteBody, hs]

/-- Between tokens a separator changes nothing (R254). -/
theorem hdrByte_between {c : Byte} {s : State} (hp : s.hpPhase = .symWait ∨ s.hpPhase = .codeWait)
    (hc : classify c = .sep) : hdrByte c s = .cont s := by
  rcases hp with hp | hp <;> simp only [hdrByte, hp, hc]

theorem hdrByte_symWait_digit {c : Byte} {s : State} (hp : s.hpPhase = .symWait) (hc : classify c = .digit) :
    hdrByte c s = .cont { s with hpVal := digitVal c, hpNd := false, hpPhase := .symIn } := by
  simp only [hdrByte, hp, hc]

theorem hdrByte_symWait_other {c : Byte} {s : State} (hp : s.hpPhase = .symWait) (hc : classify c = .other) :
    hdrByte c s = .cont { s with hpVal := 0, hpNd := true, hpPhase := .symIn } := by
  simp only [hdrByte, hp, hc]

theorem hdrByte_symIn_digit {c : Byte} {s : State} (hp : s.hpPhase = .symIn) (hc : classify c = .digit) :
    hdrByte c s = .cont { s with hpVal := addDigit s.hpVal c } := by
  simp only [hdrByte, hp, hc, addDigit]

theorem hdrByte_symIn_other {c : Byte} {s : State} (hp : s.hpPhase = .symIn) (hc : classify c = .other) :
    hdrByte c s = .cont { s with hpNd := true } := by
  simp only [hdrByte, hp, hc]

/-- A byte of a token that is neither separator nor newline is a digit or other. -/
theorem classify_of_inToken {c : Byte} (hn : c ≠ 0x0A#8) (hs : c ∉ sepBytes) :
    classify c = .digit ∨ classify c = .other := by
  by_cases hd : isDigitByte c
  · exact .inl (classify_of_isDigitByte hd)
  · exact .inr (classify_of_other hd hn hs)

theorem classify_of_bit {c : Byte} (h : c = 0x30#8 ∨ c = 0x31#8) : classify c = .digit := by
  rcases h with rfl | rfl <;> decide

/-- The first character of a code token (R254). -/
theorem hdrByte_codeWait {c : Byte} {s : State} (hp : s.hpPhase = .codeWait)
    (hc : classify c = .digit ∨ classify c = .other) :
    hdrByte c s = .cont (codeChar c { s with hpCode := [], hpLen := 0, hpBad := false, hpPhase := .codeIn }) := by
  rcases hc with hc | hc <;> simp only [hdrByte, hp, hc]

/-- A later character of a code token (R254). -/
theorem hdrByte_codeIn {c : Byte} {s : State} (hp : s.hpPhase = .codeIn)
    (hc : classify c = .digit ∨ classify c = .other) : hdrByte c s = .cont (codeChar c s) := by
  rcases hc with hc | hc <;> simp only [hdrByte, hp, hc]

theorem codeChar_of_bit {c : Byte} (s : State) (hc : c = 0x30#8 ∨ c = 0x31#8) :
    codeChar c s = { s with
      hpLen := longer s
      hpCode := if s.hpLen < s.params.maxCodeLen then s.hpCode ++ [decide (c = 0x31#8)] else s.hpCode } := by
  simp only [codeChar, hc, if_true]
  split_ifs <;> rfl

theorem codeChar_of_not_bit {c : Byte} (s : State) (h₀ : c ≠ 0x30#8) (h₁ : c ≠ 0x31#8) :
    codeChar c s = { s with hpBad := true, hpLen := longer s } := by
  simp only [codeChar, h₀, h₁, or_self, if_false, longer]

/-- Settles O37: each case is an equation of the parser, or of CodeChar, for the byte's class. -/
theorem headerBytesInsideTokens : Obligations.HeaderBytesInsideTokens := by
  intro c s hs
  rw [exec_hdrByte c hs]
  refine ⟨fun hp hc => ?_, fun hp hc => ?_, fun hp hd hn hsep => ?_, fun hp hc => ?_, fun hp hd hn hsep => ?_,
    fun hp hmax hc => ?_, fun hp h₀ h₁ hn hsep => ?_, fun hp hc => ?_, fun hp h₀ h₁ hn hsep => ?_⟩
  · rw [hdrByte_between hp (classify_of_sep hc), Flow.result_cont]
  · rw [hdrByte_symWait_digit hp (classify_of_isDigitByte hc)]
    rfl
  · rw [hdrByte_symWait_other hp (classify_of_other hd hn hsep), Flow.result_cont]
  · rw [hdrByte_symIn_digit hp (classify_of_isDigitByte hc)]
    rfl
  · rw [hdrByte_symIn_other hp (classify_of_other hd hn hsep), Flow.result_cont]
  · rw [hdrByte_codeWait hp (.inl (classify_of_bit hc)), codeChar_of_bit _ hc]
    have hpos : 0 < s.params.maxCodeLen := hmax
    simp [longer, hpos]
  · rw [hdrByte_codeWait hp (classify_of_inToken hn hsep), codeChar_of_not_bit _ h₀ h₁]
    rfl
  · rw [hdrByte_codeIn hp (.inl (classify_of_bit hc)), codeChar_of_bit s hc, Flow.result_cont]
  · rw [hdrByte_codeIn hp (classify_of_inToken hn hsep), codeChar_of_not_bit s h₀ h₁, Flow.result_cont]

/-! ### The ends of tokens -/

theorem isHeaderSymbol_iff {v : Nat} : isHeaderSymbol v = true ↔ ¬ notScalar v ∨ v = 0x110000 := by
  rw [isHeaderSymbol, Bool.or_eq_true, isScalar_iff, decide_eq_true_eq, sentinelVal]

theorem finishSym_nonint {s : State} (h : s.hpNd = true) : finishSym s = raiseEnd .fmtNonintSymbol s := if_pos h

theorem finishSym_range {s : State} (hd : s.hpNd = false) (h : ¬ isHeaderSymbol s.hpVal = true) :
    finishSym s = raiseEnd .fmtSymbolRange s := by
  simp only [finishSym, hd, h, Bool.false_eq_true, if_false]

theorem finishSym_keeps {s : State} (hd : s.hpNd = false) (h : isHeaderSymbol s.hpVal = true) :
    finishSym s = .cont { s with hpSym := symOfNat s.hpVal, hpPhase := .codeWait } := by
  simp only [finishSym, hd, h, Bool.false_eq_true, if_false, if_true]

/-- The byte that ends a symbol token: FinishSym, then at a newline FMT_ODD_TOKENS (R254). -/
theorem hdrByte_symEnd {c : Byte} {s : State} (hp : s.hpPhase = .symIn) (hc : c = 0x0A#8 ∨ c ∈ sepBytes) :
    hdrByte c s = (finishSym s).andThen fun t => if c = 0x0A#8 then raiseEnd .fmtOddTokens t else .cont t := by
  rcases hc with rfl | hc
  · simp only [hdrByte, hp, classify_newline, if_true]
  · simp only [hdrByte, hp, classify_of_sep hc, ne_newline_of_sep hc, if_false]
    cases finishSym s <;> rfl

/-- Settles O38: FinishSym's three branches, and the newline after the one that goes on. -/
theorem symbolTokenVerdict : Obligations.SymbolTokenVerdict := by
  intro c s hs hp hc kept legal
  have hlegal : legal ↔ isHeaderSymbol s.hpVal = true := isHeaderSymbol_iff.symm
  rw [exec_hdrByte c hs, hdrByte_symEnd hp hc]
  simp only [hlegal, ← raise_eq_raised]
  refine ⟨fun hd => ?_, fun hd hr => ?_, fun hd hr hn => ?_, fun hd hr hn => ?_⟩
  · rw [finishSym_nonint hd]
    rfl
  · rw [finishSym_range hd hr]
    rfl
  · rw [finishSym_keeps hd hr, Flow.andThen_cont, if_pos hn]
    rfl
  · rw [finishSym_keeps hd hr, Flow.andThen_cont, if_neg hn]
    rfl

theorem finishCode_bad {s : State} (h : s.hpBad = true) : finishCode s = raiseEnd .fmtBadCode s := if_pos h

section FinishCode
variable {s : State} (hgood : s.hpBad = false)
include hgood

theorem finishCode_long (h : s.params.maxCodeLen < s.hpLen) : finishCode s = raiseEnd .fmtCodeTooLong s := by
  simp only [finishCode, hgood, h, Bool.false_eq_true, if_false, if_true]

theorem finishCode_dup (hlen : s.hpLen ≤ s.params.maxCodeLen) (h : ∃ e ∈ s.tab, e.code = s.hpCode) :
    finishCode s = raiseEnd .fmtDupCode s := by
  simp only [finishCode, hgood, Nat.not_lt.2 hlen, findCode_isSome.2 h, Bool.false_eq_true, if_false, if_true]

theorem finishCode_full (hlen : s.hpLen ≤ s.params.maxCodeLen) (hdup : ¬ ∃ e ∈ s.tab, e.code = s.hpCode)
    (h : s.nent = s.params.maxEntries) : finishCode s = raiseEnd .fmtTableFull s := by
  simp only [finishCode, hgood, Nat.not_lt.2 hlen, mt findCode_isSome.1 hdup, h, Bool.false_eq_true, if_false, if_true]

theorem finishCode_adds (hlen : s.hpLen ≤ s.params.maxCodeLen) (hdup : ¬ ∃ e ∈ s.tab, e.code = s.hpCode)
    (h : s.nent < s.params.maxEntries) :
    finishCode s = .cont { s with tab := s.tab ++ [⟨s.hpSym, 0, s.hpCode⟩], hpPhase := .symWait } := by
  simp only [finishCode, tabPush, hgood, Nat.not_lt.2 hlen, mt findCode_isSome.1 hdup, Nat.ne_of_lt h, h,
    Bool.false_eq_true, if_false, if_true, Flow.andThen_cont]

end FinishCode

/-- The byte that ends a code token: FinishCode, then at a newline EndHeader (R254). -/
theorem hdrByte_codeEnd {c : Byte} {s : State} (hp : s.hpPhase = .codeIn) (hc : c = 0x0A#8 ∨ c ∈ sepBytes) :
    hdrByte c s = (finishCode s).andThen fun t => .cont (if c = 0x0A#8 then endHeader t else t) := by
  rcases hc with rfl | hc
  · simp only [hdrByte, hp, classify_newline, if_true]
  · simp only [hdrByte, hp, classify_of_sep hc, ne_newline_of_sep hc, if_false]
    cases finishCode s <;> rfl

/-- Settles O39: FinishCode's five branches, and EndHeader after the one that goes on to a newline. -/
theorem codeTokenVerdict : Obligations.CodeTokenVerdict := by
  intro c s hs hp hc dup added
  rw [exec_hdrByte c hs, hdrByte_codeEnd hp hc]
  simp only [← raise_eq_raised]
  refine ⟨fun hbad => ?_, fun hgood hlong => ?_, fun hgood hlen hdup => ?_, fun hgood hlen hdup hfull => ?_,
    fun hgood hlen hdup hfree => ?_⟩
  · rw [finishCode_bad hbad]
    rfl
  · rw [finishCode_long hgood hlong]
    rfl
  · rw [finishCode_dup hgood hlen hdup]
    rfl
  · rw [finishCode_full hgood hlen hdup hfull]
    rfl
  · rw [finishCode_adds hgood hlen hdup hfree]
    rfl

theorem hdrByte_symWait_newline {s : State} (hp : s.hpPhase = .symWait) : hdrByte 0x0A#8 s = .cont (endHeader s) := by
  simp only [hdrByte, hp, classify_newline]

theorem hdrByte_codeWait_newline {s : State} (hp : s.hpPhase = .codeWait) :
    hdrByte 0x0A#8 s = raiseEnd .fmtOddTokens s := by
  simp only [hdrByte, hp, classify_newline]

/-- Settles O40: the parser's two branches for a newline between tokens. -/
theorem newlineBetweenTokens : Obligations.NewlineBetweenTokens := by
  intro s hs
  rw [exec_hdrByte _ hs, ← raise_eq_raised]
  refine ⟨fun hp => ?_, fun hp => ?_⟩
  · rw [hdrByte_symWait_newline hp]
    rfl
  · rw [hdrByte_codeWait_newline hp]
    rfl

/-! ### Numerals and the whole header -/

/-- Digits inside a symbol token are added to its value one by one (R254). -/
theorem feedBytes_digits {ds : List Byte} (hds : ∀ d ∈ ds, isDigitByte d) {s : State} (hs : s.state = .decHeader)
    (hp : s.hpPhase = .symIn) :
    feedBytes ds s = .next { s with hpVal := ds.foldl addDigit s.hpVal, ci := s.ci + ds.length } := by
  induction ds generalizing s with
  | nil => rfl
  | cons d ds ih =>
    have hd : classify d = .digit := classify_of_isDigitByte (hds d (by simp))
    have haccept : acceptWord (encode (.decByte d)) s = .next { s with hpVal := addDigit s.hpVal d, ci := s.ci + 1 } := by
      rw [acceptWord_hdrByte d hs, hdrByte_symIn_digit (s := { s with ci := s.ci + 1 }) hp hd]
      rfl
    have hrest := ih (fun x hx => hds x (List.mem_cons_of_mem d hx))
      (s := { s with hpVal := addDigit s.hpVal d, ci := s.ci + 1 }) hs hp
    have hci : s.ci + 1 + ds.length = s.ci + (d :: ds).length := by rw [List.length_cons]; omega
    rw [← hci]
    exact (feed_cons_next haccept).trans hrest

/-- The value of a run of digits is its numeral's, saturated (R254). -/
theorem foldl_addDigit_digitVal {d : Byte} (hd : isDigitByte d) (ds : List Byte) :
    ds.foldl addDigit (digitVal d) = min (numeralValue (d :: ds)) (sentinelVal + 1) := by
  have hfirst : digitVal d = min (10 * 0 + digitVal d) (sentinelVal + 1) := by
    have := digitVal_le (classify_of_isDigitByte hd)
    have : sentinelVal = 0x110000 := rfl
    omega
  rw [hfirst, foldl_addDigit]
  rfl

/-- Settles O41: the first digit starts the token, the others are added by induction, and saturating each time is saturating
once. -/
theorem symbolNumeralSaturates : Obligations.SymbolNumeralSaturates := by
  intro ds s hne hds hs hp
  obtain ⟨d, ds, rfl⟩ := List.exists_cons_of_ne_nil hne
  have hd := hds d (by simp)
  have haccept : acceptWord (encode (.decByte d)) s =
      .next { s with hpVal := digitVal d, hpNd := false, hpPhase := .symIn, ci := s.ci + 1 } := by
    rw [acceptWord_hdrByte d hs, hdrByte_symWait_digit (s := { s with ci := s.ci + 1 }) hp (classify_of_isDigitByte hd)]
    rfl
  have hrest := feedBytes_digits (fun x hx => hds x (List.mem_cons_of_mem d hx))
    (s := { s with hpVal := digitVal d, hpNd := false, hpPhase := .symIn, ci := s.ci + 1 }) hs rfl
  have hci : s.ci + 1 + ds.length = s.ci + (d :: ds).length := by rw [List.length_cons]; omega
  have hval : ds.foldl addDigit (digitVal d) = min (numeralValue (d :: ds)) 0x110001 := foldl_addDigit_digitVal hd ds
  rw [← hci, ← hval]
  exact (feed_cons_next haccept).trans hrest

/-- Settles O42: the triple for a whole header, from an empty table. -/
theorem headerParsesBack : Obligations.HeaderParsesBack := by
  intro tab s hs hp htab hfits hcodes hes
  have hread := reads_headerBytes (s₀ := s) (t := tab) (fun e he => ?_) hcodes hfits
  · obtain ⟨u, hfeed, hu⟩ := hread s ⟨⟨hs, htab, rfl, rfl, rfl⟩, hp⟩
    exact ⟨u, hfeed, hu.state, hu.cand, hu.rsp, hu.err, hu.table⟩
  · obtain ⟨hsym, hpos, hlen⟩ := hes e he
    exact ⟨hsym, List.ne_nil_of_length_pos hpos, hlen⟩

end Sys2Proof.Proofs
end

section
/-! PROOFS. NOP, GET_STATUS and ABORT run in every state, and any other word with one of their opcodes is illegal
(44_control.md R300 to R303, 30_encoding.md R114, R116). -/

open Sys2Proof Sys2Proof.Machine Sys2Proof.Claims

namespace Sys2Proof.Proofs

/-! ### The commands in every state -/

/-- A command that is legal in every phase and runs in ERROR meets no check that stops it (R325, R327). -/
theorem commonChecks_anywhere {i : Instr} (hr : runsInError i = true) (hl : ∀ p, legalIn i p = true)
    (body : State → Flow) (s : State) : commonChecks i body s = (body s).result := by
  rcases commonChecks_cases i body s with ⟨-, hr', -⟩ | ⟨-, hl', -⟩ | ⟨-, h⟩
  · simp [hr] at hr'
  · simp [hl] at hl'
  · exact h

theorem exec_nop (s : State) : exec .nop s = .next s :=
  commonChecks_anywhere rfl (fun _ => rfl) Flow.cont s

theorem exec_getStatus (s : State) : exec .getStatus s = .next (emit (.status s.state s.err) s) :=
  commonChecks_anywhere rfl (fun _ => rfl) getStatusBody s

theorem exec_abort (s : State) : exec .abort s = .next (clearAll s) :=
  commonChecks_anywhere rfl (fun _ => rfl) abortBody s

/-- Fields side by side do not overlap, so that shifting them into place and joining them with `or` gives the same word:
bit by bit, each position lies in one field. -/
theorem fields_eq_or_shiftLeft (tag state : BitVec 4) (err : BitVec 8) :
    tag ++ state ++ err ++ 0#16 = tag.setWidth 32 <<< 28 ||| state.setWidth 32 <<< 24 ||| err.setWidth 32 <<< 16 := by
  ext k hk
  grind

/-- The word of RSP_STATUS as R302 writes it. -/
theorem status_word (p : Phase) (e : Err) :
    (Response.status p e).word = 0x40000000#32 ||| (p.code.setWidth 32 <<< 24) ||| (e.code.setWidth 32 <<< 16) :=
  fields_eq_or_shiftLeft 0x4#4 p.code e.code

/-! ### Set reserved bits -/

/-- An opcode without an operand and a payload that is not zero are no command (R114, R116). -/
theorem decode_reservedBits {op : BitVec 4} {p : Val} (hsym : op.toNat ≠ 2) (hbyte : op.toNat ≠ 6) (hp : p ≠ 0) :
    ∃ e, decode (op ++ p) = .error e := by
  have hw := toNat_concat op p
  have hlt := p.isLt
  refine decode_error_of_operand_ne fun i hi h => hp (BitVec.eq_of_toNat_eq ?_)
  have hop : op.toNat = (opcode i).toNat := by omega
  rw [operand_eq_zero_of_opcode (hop ▸ hsym) (hop ▸ hbyte)] at h
  omega

/-- Outside ERROR an illegal word raises ILLEGAL_CMD, after CI has advanced (R31, R326). -/
theorem acceptWord_illegal {w : Word} {s : State} (hw : ∃ e, decode w = .error e) (hs : s.state ≠ .error) :
    acceptWord w s = .next (raised .illegalCmd { s with ci := s.ci + 1 }) := by
  obtain ⟨e, he⟩ := hw
  rw [acceptWord_error he, ← raise_eq_raised]
  exact if_neg hs

/-! ### The three statements -/

/-- Settles O10: NOP's pseudocode is empty, and its word is the zero word. -/
theorem nopDoesNothing : Obligations.NopDoesNothing := fun s =>
  ⟨exec_nop s, (acceptWord_encode .nop s).trans (exec_nop _),
    fun _ hp => acceptWord_illegal (decode_reservedBits (by decide) (by decide) hp)⟩

/-- Settles O11: the one word appended is RSP_STATUS of the state before. -/
theorem getStatusReports : Obligations.GetStatusReports := by
  refine fun s => ⟨?_, rfl, decode_encode .getStatus,
    fun _ hp => acceptWord_illegal (decode_reservedBits (by decide) (by decide) hp)⟩
  rw [exec_getStatus, ← status_word]
  rfl

/-- Settles O12: what ABORT clears is what its pseudocode, `clearAll`, assigns. -/
theorem abortClears : Obligations.AbortClears := fun s =>
  ⟨exec_abort s, decode_encode .abort,
    fun _ hp => acceptWord_illegal (decode_reservedBits (by decide) (by decide) hp)⟩

end Sys2Proof.Proofs
end

section
/-! PROOFS. The error codes, illegal words, and the sticky ERROR state (60_exceptions.md R320, R325, R326, R330). -/

open Sys2Proof Sys2Proof.Machine Sys2Proof.Claims

namespace Sys2Proof.Proofs

/-! ### The table of errors -/

/-- NONE and the errors, in the order of the table of R320. -/
def errorTable : List Err :=
  [.none, .illegalCmd, .sequence, .badSymbol, .tableFull, .countOverflow, .unknownSymbol, .codeTooLong,
    .fmtOddTokens, .fmtNonintSymbol, .fmtSymbolRange, .fmtDupCode, .fmtBadCode, .fmtCodeTooLong, .fmtTableFull,
    .fmtHeaderEof, .bodyTruncated, .bodyNoMatch]

theorem mem_errorTable (e : Err) : e ∈ errorTable := by
  cases e <;> decide

theorem errorTable_codes_nodup : (errorTable.map Err.code).Nodup := by
  decide

theorem err_code_injective : Function.Injective Err.code := fun e f h =>
  List.inj_on_of_nodup_map errorTable_codes_nodup (mem_errorTable e) (mem_errorTable f) h

/-- Settles O5: the codes are evaluated row by row, and the whole column has no repetition. -/
theorem errorCodesOfTheTable : Obligations.ErrorCodesOfTheTable :=
  ⟨rfl, rfl, rfl, fun _ _ h => err_code_injective h⟩

/-! ### A command is its pseudocode behind the common checks -/

/-- A command's pseudocode, without the common checks. -/
def bodyOf : Instr → State → Flow
  | .nop => Flow.cont
  | .encBegin => encBeginBody
  | .encSym val => encSymBody val
  | .encBuild => encBuildBody
  | .encEnd => encEndBody
  | .decBegin => decBeginBody
  | .decByte b => decByteBody b
  | .decEnd => decEndBody
  | .getStatus => getStatusBody
  | .abort => abortBody

theorem exec_eq_commonChecks (i : Instr) (s : State) : exec i s = commonChecks i (bodyOf i) s := by
  cases i <;> rfl

/-- The first common check: in ERROR a command that does not run there is dropped (R325). -/
theorem exec_dropped {i : Instr} {s : State} (hs : s.state = .error) (hi : runsInError i = false) :
    exec i s = .next s := by
  rw [exec_eq_commonChecks]
  simp [commonChecks, hs, hi]

/-! ### Words that no command has -/

theorem encode_not_illegal (i : Instr) : illegal (encode i) = false := by
  have hlegal : Laws.EncodesLegal.Statement i := by
    cases i with
    | nop => exact Laws.EncodesLegal.nop
    | encBegin => exact Laws.EncodesLegal.encBegin
    | encSym val => exact Laws.EncodesLegal.encSym val
    | encBuild => exact Laws.EncodesLegal.encBuild
    | encEnd => exact Laws.EncodesLegal.encEnd
    | decBegin => exact Laws.EncodesLegal.decBegin
    | decByte b => exact Laws.EncodesLegal.decByte b
    | decEnd => exact Laws.EncodesLegal.decEnd
    | getStatus => exact Laws.EncodesLegal.getStatus
    | abort => exact Laws.EncodesLegal.abort
  exact hlegal.1

/-- What R116 calls illegal, the decoder of R117 refuses. -/
theorem decode_error_of_illegal {w : Word} (h : illegal w = true) : ∃ e, decode w = .error e := by
  cases hd : decode w with
  | error e => exact ⟨e, rfl⟩
  | ok i =>
    rw [eq_encode_of_decode hd, encode_not_illegal] at h
    cases h

/-- In ERROR a word that is no command, or a command that does not run there, changes nothing but CI (R31, R325). -/
theorem acceptWord_dropped {w : Word} {s : State} (hs : s.state = .error)
    (hw : ∀ i, decode w = .ok i → runsInError i = false) : acceptWord w s = .next { s with ci := s.ci + 1 } := by
  cases hd : decode w with
  | error e => exact (acceptWord_error hd s).trans (if_pos hs)
  | ok i => exact (acceptWord_ok hd s).trans (exec_dropped hs (hw i hd))

/-- Settles O6: an illegal word decodes to no command, so it raises ILLEGAL_CMD or is dropped. -/
theorem illegalWordRaisesIllegalCmd : Obligations.IllegalWordRaisesIllegalCmd := by
  intro w s h
  have herror := decode_error_of_illegal h
  refine ⟨acceptWord_illegal herror, fun hs => acceptWord_dropped hs fun i hd => ?_⟩
  obtain ⟨e, he⟩ := herror
  cases he.symm.trans hd

/-! ### The sticky ERROR state -/

/-- The words of the commands that run in ERROR (R325). -/
theorem encode_of_runsInError {i : Instr} (h : runsInError i = true) :
    encode i = 0x00000000#32 ∨ encode i = 0x80000000#32 ∨ encode i = 0xE0000000#32 := by
  cases i with
  | nop => exact .inl rfl
  | getStatus => exact .inr (.inl rfl)
  | abort => exact .inr (.inr rfl)
  | encBegin | encSym | encBuild | encEnd | decBegin | decByte | decEnd => cases h

/-- A word that decodes to a command that runs in ERROR is one of the three. -/
theorem acceptWord_dropped_of_ne {w : Word} {s : State} (hs : s.state = .error) (hnop : w ≠ 0x00000000#32)
    (hstatus : w ≠ 0x80000000#32) (habort : w ≠ 0xE0000000#32) :
    acceptWord w s = .next { s with ci := s.ci + 1 } := by
  refine acceptWord_dropped hs fun i hd => Bool.eq_false_iff.2 fun hi => ?_
  obtain rfl := eq_encode_of_decode hd
  rcases encode_of_runsInError hi with h | h | h
  · exact hnop h
  · exact hstatus h
  · exact habort h

/-- The report of GET_STATUS in ERROR: the state code 0xF stands in the word already. -/
theorem status_word_error (e : Err) :
    (Response.status .error e).word = 0x4F000000#32 ||| (e.code.setWidth 32 <<< 16) :=
  status_word .error e

/-- Settles O8: a word decodes to one of the three commands that run in ERROR only if it is that command's word, and those
three do in ERROR what they do in every state. -/
theorem errorStateIsSticky : Obligations.ErrorStateIsSticky := by
  intro w s hs
  have habort : acceptWord 0xE0000000#32 s = exec .abort { s with ci := s.ci + 1 } := acceptWord_encode .abort s
  refine ⟨acceptWord_dropped_of_ne hs, (acceptWord_encode .nop s).trans (exec_nop _), ?_, habort,
    _, habort.trans (exec_abort _), rfl, rfl, rfl⟩
  rw [← status_word_error, ← hs]
  exact (acceptWord_encode .getStatus s).trans (exec_getStatus _)

/-- An edge with a command offered leaves ERROR only by an accepted ABORT (R330). -/
theorem commandEdge_leaves_error {s t : State} (hs : s.state = .error) (h : commandEdge s = .next t)
    (ht : t.state ≠ .error) : t.state = .idle ∧ t.err = .none ∧ s.cmds.head? = some 0xE0000000#32 := by
  rcases commandEdge_cases s with ⟨-, heq⟩ | ⟨-, heq⟩ | ⟨w, ws, hcmds, -, heq⟩ <;> rw [heq] at h
  · cases h
    exact absurd hs ht
  · cases h
    exact absurd hs ht
  · rcases acceptWord_inError (s := { s with cmds := ws }) hs h with ⟨hd, rfl⟩ | ⟨hstate, -⟩
    · exact ⟨rfl, rfl, by rw [hcmds, eq_of_decode_abort hd]; rfl⟩
    · exact absurd hstate ht

theorem takeEdge_state (s : State) : (takeEdge s).state = s.state := by
  rcases takeEdge_cases s with ⟨-, heq⟩ | ⟨w, ws, -, heq⟩ <;> rw [heq]

/-- Settles O9: by the kinds of edge; an offered command leaves ERROR only as ABORT, taking a response never, and a reset
ends in IDLE. -/
theorem errorLeftOnlyByAbortOrReset : Obligations.ErrorLeftOnlyByAbortOrReset := by
  intro s t hs h ht
  rcases step_cases s with ⟨hacts, heq⟩ | ⟨as, hacts, heq⟩ | ⟨as, -, heq⟩ | ⟨as, hacts, heq⟩ <;> rw [heq] at h
  · obtain ⟨hidle, hnone, hword⟩ := commandEdge_leaves_error hs h ht
    exact ⟨hidle, hnone, .inr ⟨by simp [hacts], hword⟩⟩
  · obtain ⟨hidle, hnone, hword⟩ := commandEdge_leaves_error (s := { s with acts := as }) hs h ht
    exact ⟨hidle, hnone, .inr ⟨by simp [hacts], hword⟩⟩
  · cases h
    exact absurd ((takeEdge_state { s with acts := as }).trans hs) ht
  · cases h
    exact ⟨rfl, rfl, .inl (by simp [hacts])⟩

end Sys2Proof.Proofs
end

section
/-! PROOFS. SEQUENCE comes from the legality check and from nowhere else (60_exceptions.md R327). -/

open Sys2Proof Sys2Proof.Machine Sys2Proof.Claims

namespace Sys2Proof.Proofs

/-- The model's legality function is the table of R327. -/
theorem legalIn_iff_mem_legalPhases (i : Instr) (p : Phase) : legalIn i p = true ↔ p ∈ legalPhases i := by
  cases i <;> cases p <;> simp [legalIn, legalPhases]

/-- The third common check: outside its legal states a command raises SEQUENCE (R327). -/
theorem exec_sequence {i : Instr} {s : State} (hs : s.state ≠ .error) (hl : legalIn i s.state = false) :
    exec i s = .next (raised .sequence s) := by
  rw [exec_eq_commonChecks, ← raise_eq_raised]
  simp [commonChecks, hs, hl]

/-- The state is not one in which SEQUENCE was raised. -/
def NotSequence (t : State) : Prop := t.state = .error → t.err ≠ .sequence

/-- A piece of pseudocode raises no SEQUENCE: where it ends the command, it has not ended with that error. -/
abbrev RaisesOther (f : Flow) : Prop := Yields True (fun _ => True) NotSequence f

theorem RaisesOther.andThen {f : Flow} {g : State → Flow} (hf : RaisesOther f) (hg : ∀ t, RaisesOther (g t)) :
    RaisesOther (f.andThen g) :=
  Yields.andThen hf fun t _ => hg t

theorem raisesOther_raiseEnd {e : Err} (he : e ≠ .sequence) (s : State) : RaisesOther (raiseEnd e s) := fun _ => he

theorem raisesOther_tabPush (e : Entry) (s : State) : RaisesOther (tabPush e s) := by
  rcases tabPush_cases e s with ⟨-, heq⟩ | ⟨-, heq⟩ <;> rw [heq] <;> trivial

/-! ### The encode commands -/

theorem raisesOther_count (v : Sym) (s : State) : RaisesOther (count v s) := by
  unfold count
  split_ifs with htotal hknown hfull
  · exact raisesOther_raiseEnd (by decide) s
  · trivial
  · exact raisesOther_raiseEnd (by decide) s
  · exact (raisesOther_tabPush _ s).andThen fun _ => trivial

theorem raisesOther_code (v : Sym) (s : State) : RaisesOther (code v s) := by
  unfold code
  cases findSym v s.tab with
  | some e => trivial
  | none => exact raisesOther_raiseEnd (by decide) s

theorem raisesOther_encSymBody (val : Val) (s : State) : RaisesOther (encSymBody val s) := by
  unfold encSymBody
  split_ifs with hval hcount
  · exact raisesOther_count _ s
  · exact raisesOther_code _ s
  · exact raisesOther_raiseEnd (by decide) s

theorem raisesOther_buildCodes (s : State) : RaisesOther (buildCodes s) := by
  simp only [buildCodes]
  split_ifs with hlong
  · exact raisesOther_raiseEnd (by decide) s
  · trivial

theorem raisesOther_encBuildBody (s : State) : RaisesOther (encBuildBody s) :=
  (raisesOther_tabPush _ s).andThen raisesOther_buildCodes

theorem raisesOther_encEndBody (s : State) : RaisesOther (encEndBody s) := by
  unfold encEndBody
  cases findSym sentinel s.tab <;> trivial

/-! ### The decode commands -/

theorem raisesOther_finishSym (s : State) : RaisesOther (finishSym s) := by
  unfold finishSym
  split_ifs with hnd hsym
  · exact raisesOther_raiseEnd (by decide) s
  · trivial
  · exact raisesOther_raiseEnd (by decide) s

theorem raisesOther_finishCode (s : State) : RaisesOther (finishCode s) := by
  unfold finishCode
  split_ifs with hbad hlong hdup hfull
  · exact raisesOther_raiseEnd (by decide) s
  · exact raisesOther_raiseEnd (by decide) s
  · exact raisesOther_raiseEnd (by decide) s
  · exact raisesOther_raiseEnd (by decide) s
  · exact (raisesOther_tabPush _ s).andThen fun _ => trivial

theorem raisesOther_hdrByte (c : Byte) (s : State) : RaisesOther (hdrByte c s) := by
  cases hp : s.hpPhase <;> cases hc : classify c <;> simp only [hdrByte, hp, hc]
  case symIn.sep => exact raisesOther_finishSym s
  case symIn.nl => exact (raisesOther_finishSym s).andThen (raisesOther_raiseEnd (by decide))
  case codeWait.nl => exact raisesOther_raiseEnd (by decide) s
  case codeIn.sep => exact raisesOther_finishCode s
  case codeIn.nl => exact (raisesOther_finishCode s).andThen fun _ => trivial
  all_goals trivial

theorem raisesOther_bodyBit (b : Bool) (s : State) : RaisesOther (bodyBit b s) := by
  rcases bodyBit_cases b s with ⟨e, -, -, heq⟩ | ⟨e, -, -, heq⟩ | heq | ⟨-, heq⟩ <;> rw [heq]
  · exact fun htail => absurd htail (by simp)
  · trivial
  · exact raisesOther_raiseEnd (by decide) _
  · trivial

theorem raisesOther_bodyBits (bs : Bits) (s : State) : RaisesOther (bodyBits bs s) := by
  induction bs generalizing s with
  | nil => trivial
  | cons b bs ih => exact (raisesOther_bodyBit b s).andThen ih

theorem raisesOther_decByteBody (b : Byte) (s : State) : RaisesOther (decByteBody b s) := by
  unfold decByteBody
  cases s.state with
  | decHeader => exact raisesOther_hdrByte b s
  | decBody => exact raisesOther_bodyBits _ s
  | decTail | idle | encCount | encBody | error => trivial

theorem raisesOther_decEndBody (s : State) : RaisesOther (decEndBody s) := by
  unfold decEndBody
  split_ifs with hheader hbody
  · exact raisesOther_raiseEnd (by decide) s
  · exact raisesOther_raiseEnd (by decide) s
  · trivial

/-! ### Every command -/

/-- No pseudocode raises SEQUENCE; only the common checks do (R327). -/
theorem raisesOther_bodyOf (i : Instr) (s : State) : RaisesOther (bodyOf i s) := by
  cases i with
  | nop | encBegin | decBegin | getStatus | abort => trivial
  | encSym val => exact raisesOther_encSymBody val s
  | encBuild => exact raisesOther_encBuildBody s
  | encEnd => exact raisesOther_encEndBody s
  | decByte b => exact raisesOther_decByteBody b s
  | decEnd => exact raisesOther_decEndBody s

/-- Every pseudocode does to the shared fields what a command may do; in particular it enters ERROR only by a `raise`. -/
theorem tame_bodyOf (i : Instr) (s : State) : Tame s (bodyOf i s) := by
  cases i with
  | nop => exact ⟨.refl s, id⟩
  | encBegin | decBegin | abort => exact .of_silent rfl rfl rfl (.inr (by simp))
  | encSym val => exact tame_encSymBody val s
  | encBuild => exact tame_encBuildBody s
  | encEnd => exact tame_encEndBody s
  | decByte b => exact tame_decByteBody b s
  | decEnd => exact tame_decEndBody s
  | getStatus => exact goesOn_emitAll _ s

/-- Outside ERROR a command that runs does not end in ERROR with SEQUENCE: where its pseudocode runs to its end the command
has raised nothing, and elsewhere it has raised another error. -/
theorem result_notSequence {i : Instr} {s t : State} (hs : s.state ≠ .error) (h : (bodyOf i s).result = .next t) :
    NotSequence t := by
  have htame := tame_bodyOf i s
  have hother := raisesOther_bodyOf i s
  cases hbody : bodyOf i s <;> rw [hbody] at h htame hother <;> cases h
  case cont => exact fun ht => absurd (htame.error ht) hs
  case ended => exact hother

/-- Settles O7: the table of R327 is the check's own, and behind the check no pseudocode raises SEQUENCE. -/
theorem sequenceOutsideLegalStates : Obligations.SequenceOutsideLegalStates := by
  intro i s hs
  rw [← legalIn_iff_mem_legalPhases]
  refine ⟨fun hl => exec_sequence hs (Bool.eq_false_iff.2 hl), fun hl t h => ?_⟩
  rw [exec_eq_commonChecks, commonChecks_legal hs hl] at h
  exact result_notSequence hs h

end Sys2Proof.Proofs
end

section
/-! PROOFS. One edge of the ports for each act of the host, and runs of such edges (70_reset_and_hazards.md R360, R361, R365
to R367). -/

open Sys2Proof Sys2Proof.Machine

namespace Sys2Proof.Proofs

/-! ### A step by the host's act -/

theorem step_of_acts_nil {s : State} (h : s.acts = []) : step s = commandEdge s := by
  simp [step, nextAct, h, edge]

theorem step_of_command {s : State} {as : List HostAct} (h : s.acts = .command :: as) :
    step s = commandEdge { s with acts := as } := by
  simp [step, nextAct, h, edge]

theorem step_of_take {s : State} {as : List HostAct} (h : s.acts = .take :: as) :
    step s = .next (takeEdge { s with acts := as }) := by
  simp [step, nextAct, h, edge]

theorem step_of_reset {s : State} {as : List HostAct} (h : s.acts = .reset :: as) :
    step s = .next (resetEdge { s with acts := as }) := by
  simp [step, nextAct, h, edge]

/-- A ready engine accepts the offered word (R365). -/
theorem commandEdge_of_ready {s : State} {w : Word} {ws : List Word} (hcmds : s.cmds = w :: ws)
    (hroom : s.rsp.length ≤ s.params.rspFifoDepth) : commandEdge s = acceptWord w { s with cmds := ws } := by
  simp [commandEdge, hcmds, cmdReady_eq_true.2 hroom]

/-- A stalled engine accepts nothing, nor does one that is offered nothing (R365). -/
theorem commandEdge_of_waiting {s : State} (h : s.params.rspFifoDepth < s.rsp.length ∨ s.cmds = []) :
    commandEdge s = .next s := by
  rcases commandEdge_cases s with ⟨-, heq⟩ | ⟨-, heq⟩ | ⟨w, ws, hcmds, hroom, -⟩
  · exact heq
  · exact heq
  · rcases h with hstalled | hnone
    · omega
    · simp [hcmds] at hnone

/-- With S.rsp empty there is nothing to take (R366). -/
theorem step_takes_nothing {s : State} {as : List HostAct} (hacts : s.acts = .take :: as) (hrsp : s.rsp = []) :
    step s = .next { s with acts := as } := by
  simp [step_of_take hacts, takeEdge, hrsp]

/-- The host takes the front word of S.rsp (R366). -/
theorem step_takes_front {s : State} {as : List HostAct} {w : Word} {ws : List Word} (hacts : s.acts = .take :: as)
    (hrsp : s.rsp = w :: ws) :
    step s = .next { s with acts := as, rsp := ws, received := s.received ++ [w] } := by
  simp [step_of_take hacts, takeEdge, hrsp]

/-! ### Runs -/

theorem run_zero (s : State) : Sys2Proof.core.run 0 s = .next s := rfl

theorem run_succ_of_step {s t : State} (h : step s = .next t) (n : Nat) :
    Sys2Proof.core.run (n + 1) s = Sys2Proof.core.run n t := by
  simp [Host.Core.run, h]

/-- A run that goes through is its first step, then the rest. -/
theorem run_succ_eq_next {s t : State} {n : Nat} (h : Sys2Proof.core.run (n + 1) s = .next t) :
    ∃ u, step s = .next u ∧ Sys2Proof.core.run n u = .next t := by
  cases hs : step s with
  | next u => exact ⟨u, rfl, run_succ_of_step hs n ▸ h⟩
  | fault r => simp [Host.Core.run, hs] at h
  | refused r => simp [Host.Core.run, hs] at h

/-- A state that a step leaves as it is stays so for ever. -/
theorem run_of_fixed {s : State} (h : step s = .next s) (n : Nat) : Sys2Proof.core.run n s = .next s := by
  induction n with
  | zero => exact run_zero s
  | succ n ih => rw [run_succ_of_step h, ih]

/-! ### The obligations about one edge -/

/-- Settles O51: the step is the edge with `rst` high, and both handshake outputs have `rst` as a factor. -/
theorem resetEdgeFromAnyState : Obligations.ResetEdgeFromAnyState :=
  fun _ _ hacts => ⟨step_of_reset hacts, rfl, rfl⟩

/-- Settles O52: the step is the edge with `rsp_ready` high, by whether a word waits. -/
theorem responseHandshake : Obligations.ResponseHandshake := by
  intro s as hacts
  refine ⟨fun hrsp => ?_, fun w ws hrsp => ?_, List.length_take_le _ _⟩
  · exact ⟨by simp [rspValid, hrsp], step_takes_nothing hacts hrsp⟩
  · exact ⟨by simp [rspValid, hrsp], by simp [rspData, hrsp], step_takes_front hacts hrsp⟩

/-- Settles O53: whether the host planned the offer or has no plan left, the ready engine accepts the word. -/
theorem stepRunsTheDecodedCommand : Obligations.StepRunsTheDecodedCommand := by
  intro s w ws hcmds hroom
  have hunplanned (hacts : s.acts = []) : step s = acceptWord w { s with cmds := ws } := by
    rw [step_of_acts_nil hacts, commandEdge_of_ready hcmds hroom]
  have hplanned (as : List HostAct) (hacts : s.acts = .command :: as) :
      step s = acceptWord w { s with acts := as, cmds := ws } := by
    rw [step_of_command hacts, commandEdge_of_ready (s := { s with acts := as }) hcmds hroom]
  constructor
  · intro i hd
    simp only [acceptWord_ok hd] at hunplanned hplanned
    exact ⟨hunplanned, hplanned⟩
  · intro e hd
    simp only [acceptWord_error hd] at hunplanned hplanned
    exact ⟨hunplanned, hplanned⟩

/-- Settles O54: an edge with a command offered leaves a waiting engine as it is, and with no plan every edge is one. -/
theorem stalledEngineWaits : Obligations.StalledEngineWaits := by
  intro s hwait
  constructor
  · intro hacts
    exact run_of_fixed (by rw [step_of_acts_nil hacts, commandEdge_of_waiting hwait])
  · intro as hacts
    rw [step_of_command hacts, commandEdge_of_waiting (s := { s with acts := as }) hwait]

/-! ### A word placed for the next step -/

/-- The engine accepts a word that is offered with the engine ready for it. -/
theorem step_offerNow (w : Word) (s : State) :
    step (offerNow w s) = acceptWord w { s with
      rsp := s.rsp.drop (s.rsp.length - s.params.rspFifoDepth)
      received := s.received ++ s.rsp.take (s.rsp.length - s.params.rspFifoDepth) } := by
  have hroom : (s.rsp.drop (s.rsp.length - s.params.rspFifoDepth)).length ≤ s.params.rspFifoDepth := by
    rw [List.length_drop]
    omega
  rw [step_of_command (s := offerNow w s) rfl]
  exact commandEdge_of_ready (s := { offerNow w s with acts := s.acts }) rfl hroom

theorem withFetchWord_eq_offerNow (w : Word) (s : State) : s.withFetchWord 32 w.toNat = offerNow w s := by
  have hword : BitVec.ofNat 32 (w.toNat % 2 ^ 32) = w := by
    rw [Nat.mod_eq_of_lt w.isLt, BitVec.ofNat_toNat, BitVec.setWidth_eq]
  rw [State.withFetchWord, hword]

/-- Settles O55: the placed word is offered to an engine from which the words beyond the FIFO have been taken. -/
theorem fetchWordRunsNext : Obligations.FetchWordRunsNext := by
  intro s w i hd
  refine ⟨s.rsp.drop (s.rsp.length - s.params.rspFifoDepth),
    s.received ++ s.rsp.take (s.rsp.length - s.params.rspFifoDepth), ?_, ?_, ?_⟩
  · rw [withFetchWord_eq_offerNow, step_offerNow, acceptWord_ok hd]
  · rw [List.append_assoc, List.take_append_drop]
  · intro hroom
    rw [Nat.sub_eq_zero_of_le hroom, List.drop_zero]

/-! ### A reset between two responses -/

/-- Settles O56, by induction on the number of words taken: each take hands the front word to the host, and the reset keeps
what the host has. -/
theorem resetBetweenResponses : Obligations.ResetBetweenResponses := by
  intro s j as hj hacts
  induction j generalizing s with
  | zero =>
    rw [run_succ_of_step (step_of_reset hacts), run_zero]
    simp [resetEdge]
  | succ j ih =>
    cases hrsp : s.rsp with
    | nil => simp [hrsp] at hj
    | cons w ws =>
      have hstep : step s = .next { s with
          acts := List.replicate j .take ++ .reset :: as, rsp := ws, received := s.received ++ [w] } :=
        step_takes_front hacts hrsp
      have hrest : j ≤ ws.length := by simpa [hrsp] using hj
      rw [run_succ_of_step hstep, ih _ hrest rfl]
      simp

end Sys2Proof.Proofs
end

section
/-! PROOFS. Neither the host's schedule nor the depth of the response FIFO changes what the engine does
(70_reset_and_hazards.md R371, R372): every reset-free step leaves the completion of a state as it is. -/

open Sys2Proof Sys2Proof.Machine Sys2Proof.Claims

namespace Sys2Proof.Proofs

/-! ### The engine with its whole response stream -/

/-- The engine of s with all it has emitted in S.rsp, those words included that the host has taken, and with nothing else
left of the host or of the FIFO. -/
def drained (s : State) : State := Surroundings.around ⟨s.received, 0, [], [], []⟩ s

/-- The result once the engine has accepted every offered word, all its responses kept in order: what a run without a reset
reaches under any schedule of the host and any depth of the FIFO. -/
def completion (s : State) : Result := feed s.cmds (drained s)

theorem completion_of_cmds_nil {s : State} (h : s.cmds = []) : completion s = .next (drained s) := by
  rw [completion, h, feed_nil]

/-- Two states of one drained engine differ in no field of the engine but S.rsp, and their streams are the same. -/
theorem sameEngine_of_drained_eq {s t : State} (h : drained s = drained t) :
    sameEngine s t ∧ s.received ++ s.rsp = t.received ++ t.rsp := by
  have hengine : sameEngine (drained s) (drained t) := by simp [h, sameEngine]
  exact ⟨hengine, congrArg State.rsp h⟩

/-! ### The edges without a reset keep the completion -/

/-- An accepted word leaves the host's side of the ports alone. -/
theorem acceptWord_host {w : Word} {s t : State} (h : acceptWord w s = .next t) :
    t.cmds = s.cmds ∧ t.acts = s.acts ∧ t.received = s.received := by
  have halone := acceptWord_around w (surroundingsOf s) { s with rsp := [] }
  rw [around_surroundingsOf, h] at halone
  obtain ⟨u, -, rfl⟩ := result_eq_next halone.symm
  exact ⟨rfl, rfl, rfl⟩

theorem acceptWord_drained {w : Word} {s t : State} (h : acceptWord w s = .next t) :
    acceptWord w (drained s) = .next (drained t) := by
  obtain ⟨-, -, hreceived⟩ := acceptWord_host h
  rw [drained, acceptWord_around, h, drained, hreceived]
  rfl

theorem completion_commandEdge {s t : State} (h : commandEdge s = .next t) : completion t = completion s := by
  rcases commandEdge_cases s with ⟨-, heq⟩ | ⟨-, heq⟩ | ⟨w, ws, hcmds, -, heq⟩ <;> rw [heq] at h
  · cases h; rfl
  · cases h; rfl
  · obtain ⟨hrest, -, -⟩ := acceptWord_host h
    have haccept : acceptWord w (drained s) = .next (drained t) := acceptWord_drained (s := { s with cmds := ws }) h
    rw [completion, completion, hcmds, feed_cons_next haccept, hrest]

theorem completion_takeEdge (s : State) : completion (takeEdge s) = completion s := by
  rcases takeEdge_cases s with ⟨-, heq⟩ | ⟨w, ws, hrsp, heq⟩ <;> rw [heq]
  simp [completion, drained, Surroundings.around, hrsp]

theorem commandEdge_acts {s t : State} (h : commandEdge s = .next t) : t.acts = s.acts := by
  rcases commandEdge_cases s with ⟨-, heq⟩ | ⟨-, heq⟩ | ⟨w, ws, -, -, heq⟩ <;> rw [heq] at h
  · cases h; rfl
  · cases h; rfl
  · exact (acceptWord_host h).2.1

theorem takeEdge_acts (s : State) : (takeEdge s).acts = s.acts := by
  rcases takeEdge_cases s with ⟨-, heq⟩ | ⟨w, ws, -, heq⟩ <;> rw [heq]

/-- A step without a reset keeps the completion, and plans no reset. -/
theorem step_keeps_completion {s t : State} (h : step s = .next t) (hplan : .reset ∉ s.acts) :
    completion t = completion s ∧ .reset ∉ t.acts := by
  rcases step_cases s with ⟨hacts, heq⟩ | ⟨as, hacts, heq⟩ | ⟨as, hacts, heq⟩ | ⟨as, hacts, -⟩
  · rw [heq] at h
    exact ⟨completion_commandEdge h, commandEdge_acts h ▸ hplan⟩
  · rw [heq] at h
    have hleft : .reset ∉ as := by simpa [hacts] using hplan
    exact ⟨completion_commandEdge (s := { s with acts := as }) h, commandEdge_acts h ▸ hleft⟩
  · cases heq.symm.trans h
    have hleft : .reset ∉ as := by simpa [hacts] using hplan
    exact ⟨completion_takeEdge { s with acts := as }, by rwa [takeEdge_acts]⟩
  · simp [hacts] at hplan

theorem run_keeps_completion {s t : State} {n : Nat} (h : Sys2Proof.core.run n s = .next t) (hplan : .reset ∉ s.acts) :
    completion t = completion s := by
  induction n generalizing s with
  | zero => cases h; rfl
  | succ n ih =>
    obtain ⟨u, hstep, hrest⟩ := run_succ_eq_next h
    obtain ⟨hcompletion, hleft⟩ := step_keeps_completion hstep hplan
    exact (ih hrest hleft).trans hcompletion

/-- The completion holds nothing of the plan and the depth that a run starts with. -/
theorem scheduledRun_completion {s t : State} {as : List HostAct} {d n : Nat}
    (h : Sys2Proof.core.run n { s with acts := as, params := { s.params with rspFifoDepth := d } } = .next t)
    (hplan : .reset ∉ as) : completion t = completion s := by
  have hsame : completion { s with acts := as, params := { s.params with rspFifoDepth := d } } = completion s := rfl
  rw [run_keeps_completion h hplan, hsame]

/-- Settles O57: both runs start from one completion, keep it, and at their ends it is their drained engine. -/
theorem scheduleDoesNotChangeResponses : Obligations.ScheduleDoesNotChangeResponses := by
  intro s as bs d e m n t u has hbs ht hu htcmds hucmds
  have hends : completion t = completion u :=
    calc completion t = completion s := scheduledRun_completion ht has
      _ = completion u := (scheduledRun_completion hu hbs).symm
  rw [completion_of_cmds_nil htcmds, completion_of_cmds_nil hucmds] at hends
  exact sameEngine_of_drained_eq (Host.Outcome.next.inj hends)

end Sys2Proof.Proofs
end
